-- ==== Sys2Proof/Word.lean ====
section
/-! DEFINITION. The word sizes of the machine. All bit vectors here are things the spec itself treats as bits
(00_scope.md R6): register contents, addresses, instruction bytes and the fields of an encoding. -/

namespace Sys2Proof

/-- One byte of memory or of the instruction stream. -/
abbrev Byte := BitVec 8

/-- A 32-bit pattern: a binary32 value (00_scope.md R9), a displacement, MXCSR. -/
abbrev Dword := BitVec 32

/-- 64 bits: an address, a general register, a control register, an opmask register. -/
abbrev Qword := BitVec 64

/-- The low 128 bits of a vector register (10_state.md R20). -/
abbrev Xmm := BitVec 128

/-- The storage of one vector register (10_state.md R21). Bits at or above the configured MAXVL do not exist; they are
kept zero (`Safety.lean`). -/
abbrev Zmm := BitVec 512

/-- The number of a vector register, assembled from the instruction's fields (30_encoding.md R70). -/
abbrev VReg := BitVec 5

/-- The number of a general register (10_state.md R26): RAX 0, RCX 1, RDX 2, RBX 3, RSP 4, RBP 5, RSI 6, RDI 7, R8 8 … R15 15. -/
abbrev Gpr := BitVec 4

end Sys2Proof
end

