-- ==== Sys2Proof/Config.lean ====
section
/-! DEFINITION. The configuration: the parameters of 00_scope.md R5 that are not bits of a register (those are in
`Machine/State.lean`). A machine carries its configuration as plain data, so a statement about every state is a statement about
every configuration. -/

namespace Sys2Proof

/-- `MAXVL`, the width in bits of a vector register (R5, decision D3). -/
inductive MaxVL where
  | vl128 | vl256 | vl512
deriving DecidableEq, Repr

/-- `IMM_HI_POLICY` (30_encoding.md R84, decision D4): what imm8[7:4] ≠ 0 does. -/
inductive ImmHiPolicy where
  /-- The encoding has no meaning: the model refuses it. -/
  | refuse
  /-- It executes as imm8 AND 0Fh. -/
  | ignore
deriving DecidableEq, Repr

/-- `DAZ_READING` (40_vrangess.md R95, decision D5): what "Src1.fraction := 0" does under DAZ = 1. -/
inductive DazReading where
  /-- The denormal input is replaced by a zero of its sign everywhere after step 2. -/
  | replace
  /-- The assignment changes nothing; DE is still not indicated. -/
  | literal
deriving DecidableEq, Repr

/-- `FAULT_SUPPRESSION` (20_memory.md R49, decision D23): a memory operand whose writemask bit is 0. -/
inductive FaultSuppression where
  /-- Readable: completes. Not readable: refused. -/
  | conservative
  /-- No access, no fault: completes. -/
  | suppress
deriving DecidableEq, Repr

/-- An entry of Table 5-22: which zero. -/
inductive ZeroPick where
  | plusZero | minusZero
deriving DecidableEq, Repr

/-- `TABLE_5_22` (40_vrangess.md R97, decision D6): the comparison result for zeros of opposite sign. -/
structure Table522 where
  min : ZeroPick
  max : ZeroPick
  minAbs : ZeroPick
  maxAbs : ZeroPick
deriving DecidableEq, Repr

/-- An entry of Table 5-23: which of the two inputs of equal magnitude and opposite sign. -/
inductive TiePick where
  | negativeInput | positiveInput
deriving DecidableEq, Repr

/-- `TABLE_5_23` (40_vrangess.md R98, decision D6): MIN_ABS and MAX_ABS on equal magnitudes of opposite sign. -/
structure Table523 where
  minAbs : TiePick
  maxAbs : TiePick
deriving DecidableEq, Repr

/-- The width of a canonical linear address (10_state.md R30): bits 63:47 all equal under 4-level paging, bits 63:56 under
5-level paging. -/
inductive Paging where
  | level4 | level5
deriving DecidableEq, Repr

/-- What an implementation fixes. The three CPUID words are those 10_state.md R29 reads for `FEATURE`. -/
structure Config where
  maxvl : MaxVL
  immHi : ImmHiPolicy
  daz : DazReading
  table522 : Table522
  table523 : Table523
  faultSuppression : FaultSuppression
  paging : Paging
  /-- CPUID.(EAX=07H,ECX=0):EBX; bit 17 is AVX512DQ. -/
  cpuid7_0_ebx : Dword
  /-- CPUID.(EAX=07H,ECX=1):EDX; bit 19 enumerates AVX10. -/
  cpuid7_1_edx : Dword
  /-- The AVX10 version of leaf 24H. -/
  avx10Version : Byte
  /-- What RDX holds after RESET and INIT, "processor signature" (10_state.md R32). -/
  processorSignature : Dword
deriving DecidableEq, Repr

/-- The default column of R5. `cpuid7_0_ebx` is AVX512DQ alone (DESIGN CHOICE, log entry 9); `processorSignature` is the
signature of the family, model and stepping of 96_host_run_record.md (PRESUMED, log entry 3). -/
def Config.default : Config where
  maxvl := .vl512
  immHi := .refuse
  daz := .replace
  table522 := { min := .minusZero, max := .plusZero, minAbs := .minusZero, maxAbs := .plusZero }
  table523 := { minAbs := .negativeInput, maxAbs := .positiveInput }
  faultSuppression := .conservative
  paging := .level4
  cpuid7_0_ebx := 0x00020000#32
  cpuid7_1_edx := 0#32
  avx10Version := 0#8
  processorSignature := 0x000C06F2#32

end Sys2Proof
end

