-- ==== Sys2Proof/Syntax.lean ====
section
/-! DEFINITION. The instruction as a term: one constructor of `Instr` per row of spec/opcode_table.json (the five decode rows of
30_encoding.md R72), holding every operand of R85 step (9). -/

namespace Sys2Proof

/-- The legacy prefixes permitted before the EVEX prefix (30_encoding.md R61): six segment overrides and the address-size
prefix. -/
inductive Prefix where
  | es | cs | ss | ds | fs | gs | addr32
deriving DecidableEq, Repr

/-- imm8[1:0], `CmpOpCtl` (40_vrangess.md R91). -/
inductive CmpOp where
  | min | max | minAbs | maxAbs
deriving DecidableEq, Repr

/-- imm8[3:2], `SignSelCtl` (40_vrangess.md R91). -/
inductive SignSel where
  | ofSrc1 | ofCompare | clear | set
deriving DecidableEq, Repr

/-- What every form has: the legacy prefixes in the order they stand, DEST, SRC1, the writemask selector EVEX.aaa (0 = no
writemask, never k0: 10_state.md R22), zeroing-masking, and imm8. -/
structure Common where
  pre : List Prefix
  dest : VReg
  src1 : VReg
  mask : BitVec 3
  z : Bool
  imm8 : Byte
deriving DecidableEq, Repr

/-- The base and index of a memory operand with mod = 01b or 10b (20_memory.md R44). -/
inductive Base where
  /-- No SIB byte. `r[2:0] ≠ 100b`. -/
  | reg (r : Gpr)
  /-- SIB byte: base, index (0100b means no index), scale. -/
  | sib (base index : Gpr) (scale : BitVec 2)
deriving DecidableEq, Repr

/-- The memory operand with mod = 00b (20_memory.md R44). -/
inductive Mem00 where
  /-- `[r]`, no displacement. `r[2:0]` is neither 100b nor 101b. -/
  | reg (r : Gpr)
  /-- RIP-relative with disp32 (R46). -/
  | ripRel (disp : Dword)
  /-- SIB byte with a base, no displacement. `base[2:0] ≠ 101b`. -/
  | sib (base index : Gpr) (scale : BitVec 2)
  /-- SIB byte with SIB.base = 101b: no base register, disp32. -/
  | noBase (index : Gpr) (scale : BitVec 2) (disp : Dword)
deriving DecidableEq, Repr

/-- VRANGESS, the one instruction in scope (00_scope.md R3), in its five decode rows (30_encoding.md R72). -/
inductive Instr where
  /-- Row 1: register third operand, mod = 11b, b = 0. -/
  | vrangessReg (c : Common) (src2 : VReg)
  /-- Row 2: register third operand with `{sae}`, mod = 11b, b = 1. -/
  | vrangessRegSae (c : Common) (src2 : VReg)
  /-- Row 3: memory third operand, mod = 00b. -/
  | vrangessMem (c : Common) (m : Mem00)
  /-- Row 4: memory third operand, mod = 01b, disp8 scaled by 4. -/
  | vrangessMemDisp8 (c : Common) (base : Base) (disp8 : Byte)
  /-- Row 5: memory third operand, mod = 10b, disp32. -/
  | vrangessMemDisp32 (c : Common) (base : Base) (disp32 : Dword)
deriving DecidableEq, Repr

/-- The operands every form has. -/
def Instr.common : Instr → Common
  | .vrangessReg c _ => c
  | .vrangessRegSae c _ => c
  | .vrangessMem c _ => c
  | .vrangessMemDisp8 c _ _ => c
  | .vrangessMemDisp32 c _ _ => c

/-- Bytes of the SIB byte a base needs. -/
def Base.extraBytes : Base → Nat
  | .reg _ => 0
  | .sib _ _ _ => 1

/-- Bytes of SIB and displacement a mod = 00b operand needs (30_encoding.md R68). -/
def Mem00.extraBytes : Mem00 → Nat
  | .reg _ => 0
  | .ripRel _ => 4
  | .sib _ _ _ => 1
  | .noBase _ _ _ => 5

/-- `ilen` (30_encoding.md R76): prefixes, then 4 (EVEX), opcode, ModRM, SIB, displacement, imm8. -/
def Instr.length : Instr → Nat
  | .vrangessReg c _ => c.pre.length + 7
  | .vrangessRegSae c _ => c.pre.length + 7
  | .vrangessMem c m => c.pre.length + 7 + m.extraBytes
  | .vrangessMemDisp8 c b _ => c.pre.length + 8 + b.extraBytes
  | .vrangessMemDisp32 c b _ => c.pre.length + 11 + b.extraBytes

end Sys2Proof
end

