-- ==== Sys2Proof/WellFormed.lean ====
section
/-! DEFINITION. Which terms are instructions: those that have an encoding (30_encoding.md R73, R76; 20_memory.md R44). -/

namespace Sys2Proof

/-- `{z}` needs a writemask (30_encoding.md R73). -/
def Common.wellFormed (c : Common) : Bool := !(c.z && c.mask == 0#3)

/-- Bits 2:0 of a general register's number, as ModRM.rm or SIB.base holds them. -/
def lowBits (r : Gpr) : BitVec 3 := r.extractLsb' 0 3

/-- rm = 100b means a SIB byte follows, so RSP and R12 have no form without one (20_memory.md R44). -/
def Base.wellFormed : Base → Bool
  | .reg r => lowBits r != 0b100#3
  | .sib _ _ _ => true

/-- With mod = 00b, rm = 101b is RIP-relative and SIB.base = 101b is no base (20_memory.md R44). -/
def Mem00.wellFormed : Mem00 → Bool
  | .reg r => lowBits r != 0b100#3 && lowBits r != 0b101#3
  | .ripRel _ => true
  | .sib b _ _ => lowBits b != 0b101#3
  | .noBase _ _ _ => true

/-- The operand has an encoding of its row. -/
def Instr.operandWellFormed : Instr → Bool
  | .vrangessReg _ _ => true
  | .vrangessRegSae _ _ => true
  | .vrangessMem _ m => m.wellFormed
  | .vrangessMemDisp8 _ b _ => b.wellFormed
  | .vrangessMemDisp32 _ b _ => b.wellFormed

/-- The longest instruction (30_encoding.md R76). -/
def maxLength : Nat := 15

/-- A term that some byte string encodes. -/
def Instr.wellFormed (i : Instr) : Bool :=
  i.common.wellFormed && i.operandWellFormed && decide (i.length ≤ maxLength)

end Sys2Proof
end

