-- ==== Sys2Proof/Decode.lean ====
section
/-! DEFINITION. Decoding (30_encoding.md R85), total on any byte string, each rejection by name; then the encoder (R86); then
the table word of the host. All of it is for 64-bit mode, the only mode in which bytes are decoded (00_scope.md R5 `MODE`). -/

namespace Sys2Proof

/-- Encodings that look like VRANGESS and are invalid: each is #UD (30_encoding.md R61, R73). -/
inductive BadEncoding where
  /-- LOCK, 66h, F2h, F3h or REX before the EVEX prefix. -/
  | legacyPrefix
  /-- P0[3:2] ≠ 00b. -/
  | reservedP0
  /-- P1[2] = 0. -/
  | fixedP1
  /-- b = 1 with a memory operand. -/
  | broadcast
  /-- z = 1 with aaa = 000b. -/
  | zeroingNoMask
deriving DecidableEq, Repr

/-- Bytes that are given no meaning. -/
inductive NotDecoded where
  /-- The bytes end inside an instruction. -/
  | truncated
  /-- Another instruction, out of scope (30_encoding.md R73, R75; 00_scope.md R4). -/
  | notVrangess
  /-- L'L = 11b with b = 0 (30_encoding.md R74, 90_conflicts.md C15). -/
  | vectorLength11
deriving DecidableEq, Repr

/-- What the decoder says of a byte string. -/
inductive Verdict where
  /-- An instruction, and the bytes after it. -/
  | ok (i : Instr) (rest : List Byte)
  /-- #UD. -/
  | ud (why : BadEncoding)
  /-- Longer than 15 bytes (30_encoding.md R76): the instruction, whose execution raises #GP once the imm8 policy lets it (R85 steps
  (7) and (8)). -/
  | overlong (i : Instr)
  /-- No meaning. -/
  | refuse (why : NotDecoded)
deriving DecidableEq, Repr

/-! ### Legacy prefixes (R61) -/

/-- The byte of a permitted legacy prefix. -/
def prefixByte : Prefix → Byte
  | .es => 0x26#8
  | .cs => 0x2E#8
  | .ss => 0x36#8
  | .ds => 0x3E#8
  | .fs => 0x64#8
  | .gs => 0x65#8
  | .addr32 => 0x67#8

/-- The permitted legacy prefix a byte is. -/
def prefixOf (b : Byte) : Option Prefix :=
  if b = 0x26#8 then some .es
  else if b = 0x2E#8 then some .cs
  else if b = 0x36#8 then some .ss
  else if b = 0x3E#8 then some .ds
  else if b = 0x64#8 then some .fs
  else if b = 0x65#8 then some .gs
  else if b = 0x67#8 then some .addr32
  else none

/-- LOCK, operand size, repeat, REX: #UD before an EVEX prefix. -/
def forbiddenPrefix (b : Byte) : Bool :=
  b == 0xF0#8 || b == 0x66#8 || b == 0xF2#8 || b == 0xF3#8 || b.extractLsb' 4 4 == 0x4#4

/-! ### Bit fields (R62 to R67) -/

/-- The EVEX escape byte. -/
def evexByte : Byte := 0x62#8

/-- The opcode byte (R65). -/
def opcodeByte : Byte := 0x51#8

/-- Bit 3 of the base, bit 3 of a register SRC2: stored inverted (R62). -/
def extB (p0 : Byte) : Bool := !p0.getLsbD 5

/-- Bit 3 of the SIB index, bit 4 of a register SRC2: stored inverted (R62). -/
def extX (p0 : Byte) : Bool := !p0.getLsbD 6

/-- P0[3:2], reserved. -/
def p0Reserved (p0 : Byte) : BitVec 2 := p0.extractLsb' 2 2

/-- P0[1:0], `mm`. -/
def p0Map (p0 : Byte) : BitVec 2 := p0.extractLsb' 0 2

/-- P1[7], `W`. -/
def p1W (p1 : Byte) : Bool := p1.getLsbD 7

/-- P1[2], fixed at 1. -/
def p1Fixed (p1 : Byte) : Bool := p1.getLsbD 2

/-- P1[1:0], `pp`. -/
def p1Pp (p1 : Byte) : BitVec 2 := p1.extractLsb' 0 2

/-- P2[7], `z`. -/
def p2Z (p2 : Byte) : Bool := p2.getLsbD 7

/-- P2[6:5], `L'L`. -/
def p2LL (p2 : Byte) : BitVec 2 := p2.extractLsb' 5 2

/-- P2[4], `b`. -/
def p2B (p2 : Byte) : Bool := p2.getLsbD 4

/-- P2[2:0], `aaa`. -/
def p2Mask (p2 : Byte) : BitVec 3 := p2.extractLsb' 0 3

/-- ModRM[7:6] or SIB.scale. -/
def field76 (m : Byte) : BitVec 2 := m.extractLsb' 6 2

/-- ModRM.reg or SIB.index. -/
def field53 (m : Byte) : BitVec 3 := m.extractLsb' 3 3

/-- ModRM.rm or SIB.base. -/
def field20 (m : Byte) : BitVec 3 := m.extractLsb' 0 3

/-- DEST = (NOT P0[4]) ++ (NOT P0[7]) ++ ModRM[5:3] (R70). -/
def destOf (p0 modrm : Byte) : VReg :=
  BitVec.ofBool (!p0.getLsbD 4) ++ BitVec.ofBool (!p0.getLsbD 7) ++ field53 modrm

/-- SRC1 = (NOT P2[3]) ++ (NOT P1[6:3]) (R70). -/
def src1Of (p1 p2 : Byte) : VReg :=
  BitVec.ofBool (!p2.getLsbD 3) ++ ~~~(p1.extractLsb' 3 4)

/-- A register SRC2 = (NOT P0[6]) ++ (NOT P0[5]) ++ ModRM[2:0] (R70). -/
def src2Of (x b : Bool) (rm : BitVec 3) : VReg :=
  BitVec.ofBool x ++ BitVec.ofBool b ++ rm

/-- A base or index register: the extension bit above three bits (R44). -/
def extend (e : Bool) (low : BitVec 3) : Gpr := BitVec.ofBool e ++ low

/-! ### The third operand (R66 to R68) -/

/-- Four bytes, the one at the lowest address being bits 7:0 (20_memory.md R41). -/
def dwordOfBytes (b0 b1 b2 b3 : Byte) : Dword := b3 ++ b2 ++ b1 ++ b0

/-- A little-endian disp32, and the bytes after it. -/
def readDisp32 : List Byte → Option (Dword × List Byte)
  | b0 :: b1 :: b2 :: b3 :: rest => some (dwordOfBytes b0 b1 b2 b3, rest)
  | _ => none

/-- The third operand as the bytes give it, one alternative per value of mod (mod = 11b the first). -/
inductive Form where
  | reg (r : VReg)
  | mem (m : Mem00)
  | disp8 (base : Base) (d : Byte)
  | disp32 (base : Base) (d : Dword)
deriving DecidableEq, Repr

/-- Base and index with mod = 01b or 10b: a SIB byte when rm = 100b. -/
def readBase (x b : Bool) (rm : BitVec 3) (bs : List Byte) : Option (Base × List Byte) :=
  if rm = 0b100#3 then
    match bs with
    | sib :: rest => some (.sib (extend b (field20 sib)) (extend x (field53 sib)) (field76 sib), rest)
    | [] => none
  else some (.reg (extend b rm), bs)

/-- The operand with mod = 00b: SIB, RIP-relative, or a plain base. -/
def readMem00 (x b : Bool) (rm : BitVec 3) (bs : List Byte) : Option (Mem00 × List Byte) :=
  if rm = 0b100#3 then
    match bs with
    | sib :: rest =>
      if field20 sib = 0b101#3 then
        match readDisp32 rest with
        | some (d, rest') => some (.noBase (extend x (field53 sib)) (field76 sib) d, rest')
        | none => none
      else some (.sib (extend b (field20 sib)) (extend x (field53 sib)) (field76 sib), rest)
    | [] => none
  else if rm = 0b101#3 then
    match readDisp32 bs with
    | some (d, rest) => some (.ripRel d, rest)
    | none => none
  else some (.reg (extend b rm), bs)

/-- The third operand for every mod, SIB and displacement read (R85 step (6)). -/
def readForm (x b : Bool) (mod : BitVec 2) (rm : BitVec 3) (bs : List Byte) : Option (Form × List Byte) :=
  if mod = 0b11#2 then some (.reg (src2Of x b rm), bs)
  else if mod = 0b00#2 then
    match readMem00 x b rm bs with
    | some (m, rest) => some (.mem m, rest)
    | none => none
  else
    match readBase x b rm bs with
    | none => none
    | some (base, rest) =>
      if mod = 0b01#2 then
        match rest with
        | d :: rest' => some (.disp8 base d, rest')
        | [] => none
      else
        match readDisp32 rest with
        | some (d, rest') => some (.disp32 base d, rest')
        | none => none

/-- The term of R85 step (9). `sae` only matters with a register operand (R73). -/
def instrOf (c : Common) (sae : Bool) : Form → Instr
  | .reg r => if sae then .vrangessRegSae c r else .vrangessReg c r
  | .mem m => .vrangessMem c m
  | .disp8 b d => .vrangessMemDisp8 c b d
  | .disp32 b d => .vrangessMemDisp32 c b d

/-! ### The procedure of R85 -/

/-- Steps (8) and (9): the length check. -/
def checkLength (i : Instr) (rest : List Byte) : Verdict :=
  if i.length ≤ maxLength then .ok i rest else .overlong i

/-- The operands every form has, from the payload bytes, ModRM and imm8 (R70). -/
def commonOf (pre : List Prefix) (p0 p1 p2 modrm imm8 : Byte) : Common where
  pre := pre
  dest := destOf p0 modrm
  src1 := src1Of p1 p2
  mask := p2Mask p2
  z := p2Z p2
  imm8 := imm8

/-- Steps (6) to (9): SIB, displacement, imm8. What imm8[7:4] ≠ 0 does (R84) depends on the machine's policy, so it is decided
when the instruction executes. -/
def decodeTail (pre : List Prefix) (p0 p1 p2 modrm : Byte) (bs : List Byte) : Verdict :=
  match readForm (extX p0) (extB p0) (field76 modrm) (field20 modrm) bs with
  | none => .refuse .truncated
  | some (_, []) => .refuse .truncated
  | some (form, imm8 :: rest) =>
    checkLength (instrOf (commonOf pre p0 p1 p2 modrm imm8) (p2B p2) form) rest

/-- Step (5): ModRM, and the checks that need it. -/
def decodeModrm (pre : List Prefix) (p0 p1 p2 modrm : Byte) (bs : List Byte) : Verdict :=
  if field76 modrm ≠ 0b11#2 ∧ p2B p2 = true then .ud .broadcast
  else if p2Z p2 = true ∧ p2Mask p2 = 0#3 then .ud .zeroingNoMask
  else if p2B p2 = false ∧ p2LL p2 = 0b11#2 then .refuse .vectorLength11
  else decodeTail pre p0 p1 p2 modrm bs

/-- Steps (3) and (4): the payload bytes and the opcode, after the escape byte. -/
def decodeEvex (pre : List Prefix) : List Byte → Verdict
  | p0 :: p1 :: p2 :: bs =>
    if p0Map p0 ≠ 0b11#2 ∨ p1Pp p1 ≠ 0b01#2 ∨ p1W p1 = true then .refuse .notVrangess
    else if p0Reserved p0 ≠ 0b00#2 then .ud .reservedP0
    else if p1Fixed p1 = false then .ud .fixedP1
    else
      match bs with
      | [] => .refuse .truncated
      | op :: bs' =>
        if op ≠ opcodeByte then .refuse .notVrangess
        else
          match bs' with
          | [] => .refuse .truncated
          | modrm :: bs'' => decodeModrm pre p0 p1 p2 modrm bs''
  | _ => .refuse .truncated

/-- Steps (1) and (2): `pre` holds the permitted prefixes read so far, `bad` whether a forbidden one was seen. -/
def decodeFrom (bad : Bool) (pre : List Prefix) : List Byte → Verdict
  | [] => .refuse .truncated
  | b :: bs =>
    match prefixOf b with
    | some p => decodeFrom bad (pre ++ [p]) bs
    | none =>
      if forbiddenPrefix b then decodeFrom true pre bs
      else if b = evexByte then
        if bad then .ud .legacyPrefix else decodeEvex pre bs
      else .refuse .notVrangess

/-- The decoder. -/
def decode (bs : List Byte) : Verdict := decodeFrom false [] bs

/-! ### The encoder (R86) -/

/-- P0 = (NOT dest[3]) (NOT X) (NOT B) (NOT dest[4]) 0 0 1 1. -/
def encodeP0 (dest : VReg) (x b : Bool) : Byte :=
  BitVec.ofBool (!dest.getLsbD 3) ++ BitVec.ofBool (!x) ++ BitVec.ofBool (!b) ++ BitVec.ofBool (!dest.getLsbD 4) ++ 0b0011#4

/-- P1 = 0 (NOT src1[3:0]) 1 0 1. -/
def encodeP1 (src1 : VReg) : Byte := 0b0#1 ++ ~~~(src1.extractLsb' 0 4) ++ 0b101#3

/-- P2 = z 0 0 b (NOT src1[4]) aaa. -/
def encodeP2 (c : Common) (b : Bool) : Byte :=
  BitVec.ofBool c.z ++ 0b00#2 ++ BitVec.ofBool b ++ BitVec.ofBool (!c.src1.getLsbD 4) ++ c.mask

/-- ModRM or SIB from its three fields. -/
def packFields (hi : BitVec 2) (mid lo : BitVec 3) : Byte := hi ++ mid ++ lo

/-- A disp32, little-endian. -/
def dispBytes (d : Dword) : List Byte :=
  [d.extractLsb' 0 8, d.extractLsb' 8 8, d.extractLsb' 16 8, d.extractLsb' 24 8]

/-- What the third operand contributes: X, B, mod, rm, and the bytes between ModRM and imm8. -/
structure OperandCode where
  x : Bool
  b : Bool
  mod : BitVec 2
  rm : BitVec 3
  tail : List Byte

/-- Bit 3 of a general register's number, as X or B holds it. -/
def highBit (r : Gpr) : Bool := r.getLsbD 3

/-- A base with mod = 01b or 10b. -/
def Base.code (mod : BitVec 2) (disp : List Byte) : Base → OperandCode
  | .reg r => { x := false, b := highBit r, mod := mod, rm := lowBits r, tail := disp }
  | .sib base index scale =>
    { x := highBit index, b := highBit base, mod := mod, rm := 0b100#3,
      tail := packFields scale (lowBits index) (lowBits base) :: disp }

/-- A mod = 00b operand. -/
def Mem00.code : Mem00 → OperandCode
  | .reg r => { x := false, b := highBit r, mod := 0b00#2, rm := lowBits r, tail := [] }
  | .ripRel d => { x := false, b := false, mod := 0b00#2, rm := 0b101#3, tail := dispBytes d }
  | .sib base index scale =>
    { x := highBit index, b := highBit base, mod := 0b00#2, rm := 0b100#3,
      tail := [packFields scale (lowBits index) (lowBits base)] }
  | .noBase index scale d =>
    { x := highBit index, b := false, mod := 0b00#2, rm := 0b100#3,
      tail := packFields scale (lowBits index) 0b101#3 :: dispBytes d }

/-- A register third operand. -/
def regCode (r : VReg) : OperandCode :=
  { x := r.getLsbD 4, b := r.getLsbD 3, mod := 0b11#2, rm := r.extractLsb' 0 3, tail := [] }

/-- The whole byte string. -/
def encodeWith (c : Common) (sae : Bool) (o : OperandCode) : List Byte :=
  c.pre.map prefixByte ++
    [evexByte, encodeP0 c.dest o.x o.b, encodeP1 c.src1, encodeP2 c sae, opcodeByte,
      packFields o.mod (c.dest.extractLsb' 0 3) o.rm] ++ o.tail ++ [c.imm8]

/-- The bytes of an instruction at rising addresses (R60, R86), with L'L = 00b. -/
def encode : Instr → List Byte
  | .vrangessReg c r => encodeWith c false (regCode r)
  | .vrangessRegSae c r => encodeWith c true (regCode r)
  | .vrangessMem c m => encodeWith c false m.code
  | .vrangessMemDisp8 c b d => encodeWith c false (b.code 0b01#2 [d])
  | .vrangessMemDisp32 c b d => encodeWith c false (b.code 0b10#2 (dispBytes d))

/-! ### Which row an assembler picks for a base operand (R86, 20_memory.md R45) -/

/-- `d` is a multiple of 4 in -512..508: disp8 can hold `d / 4`. -/
def disp8Fits (d : Dword) : Bool := ((d.sshiftRight 2).setWidth 8).signExtend 32 <<< 2 == d

/-- A base whose low bits are 101b has no displacement-free form (RBP, R13). -/
def Base.needsDisp : Base → Bool
  | .reg r => lowBits r == 0b101#3
  | .sib base _ _ => lowBits base == 0b101#3

/-- The mod = 00b operand of a base. -/
def Base.toMem00 : Base → Mem00
  | .reg r => .reg r
  | .sib base index scale => .sib base index scale

/-- "disp8 only if the displacement is a multiple of 4 in -512..508, else disp32; a zero displacement needs none unless the base
is RBP or R13" (R86). -/
def assembleMem (c : Common) (b : Base) (d : Dword) : Instr :=
  if d = 0#32 ∧ b.needsDisp = false then .vrangessMem c b.toMem00
  else if disp8Fits d then .vrangessMemDisp8 c b ((d.sshiftRight 2).setWidth 8)
  else .vrangessMemDisp32 c b d

/-! ### The host's table word -/

/-- The bytes of an instruction given as one number: byte k is bits 8k+7..8k; bits at or above `nbits` are 0; as many bytes as
the longest instruction has. -/
def tableBytes (nbits w : Nat) : List Byte :=
  (List.range maxLength).map fun k => BitVec.ofNat 8 ((w % 2 ^ nbits) / 2 ^ (8 * k))

/-- The instruction the decoder reads from a table word. -/
def decodeTableWord (nbits w : Nat) : Option Instr :=
  match decode (tableBytes nbits w) with
  | .ok i _ => some i
  | _ => none

end Sys2Proof
end

