-- ==== Sys2Proof/Machine/State.lean ====
section
/-! DEFINITION. The state, the reasons a step stops, and the state a run starts from (10_state.md; 60_exceptions.md R141, R147;
70_reset_and_hazards.md R160, R161). -/

namespace Sys2Proof.Machine

/-- Memory as data: (address, byte) pairs in one canonical form (`Memory.wf`). An address not listed holds no byte: it is not
in `LaunchMemory` (20_memory.md R50), and reading it is a memory fault (R48). -/
abbrev Memory := List Host.Cell

/-- The number of linear addresses (10_state.md R30). -/
def addressSpace : Nat := 2 ^ 64

/-- The canonical form: addresses strictly rising, all of them 64-bit addresses. No byte equals what an unlisted address reads
as, since an unlisted address has no value. -/
abbrev Memory.wf (m : Memory) : Prop :=
  m.Pairwise (fun c d => c.1 < d.1) ∧ ∀ c ∈ m, c.1 < addressSpace

/-- Processor modes (00_scope.md R5 `MODE`; 60_exceptions.md R132). -/
inductive Mode where
  | real | virtual8086 | protected32 | compatibility | mode64
deriving DecidableEq, Repr

/-- The machine. -/
structure State where
  /-- ZMM0 to ZMM31; XMM and YMM are their low bits (10_state.md R20, R21). -/
  zmm : Vector Zmm 32
  /-- k0 to k7 (R22). -/
  k : Vector Qword 8
  /-- SIMD floating-point control and status (R23). -/
  mxcsr : Dword
  /-- The instruction pointer (R25). -/
  rip : Qword
  /-- RAX to R15 (R26). -/
  gpr : Vector Qword 16
  /-- Segment bases (R27). -/
  fsBase : Qword
  gsBase : Qword
  csBase : Qword
  dsBase : Qword
  esBase : Qword
  ssBase : Qword
  /-- RFLAGS (R28). -/
  rflags : Qword
  /-- Control registers and the extended control register that gate the instruction (R29, R32). -/
  cr0 : Qword
  /-- The faulting linear address of a page fault (60_exceptions.md R136), written on delivery (`State.recorded`). -/
  cr2 : Qword
  cr4 : Qword
  xcr0 : Qword
  efer : Qword
  /-- The L bit of the code segment (R29). -/
  csL : Bool
  /-- Current privilege level (60_exceptions.md R144). -/
  cpl : BitVec 2
  /-- `LaunchMemory` (20_memory.md R50). -/
  mem : Memory
  /-- Where the program text is placed (`CodeBase`, R50; 70_reset_and_hazards.md R165). -/
  codeBase : Qword
  /-- The program text, contiguous from `codeBase`; not part of `mem` (R50, decision D13). -/
  text : List Byte
  /-- The configuration (00_scope.md R5), which nothing changes. -/
  cfg : Config
deriving DecidableEq, Repr

/-- Why a #UD is raised (60_exceptions.md R133). -/
inductive UdCause where
  /-- An invalid encoding (30_encoding.md R73). -/
  | encoding (why : BadEncoding)
  /-- CPUID reports neither AVX512DQ nor AVX10. -/
  | feature
  /-- CR4.OSXSAVE = 0. -/
  | osxsave
  /-- XCR0[2:1] ≠ 11b or XCR0[7:5] ≠ 111b. -/
  | xcr0
  /-- An unmasked SIMD floating-point exception with CR4.OSXMMEXCPT = 0 (R131). -/
  | osxmmexcpt
deriving DecidableEq, Repr

/-- The exceptions one execution can raise (60_exceptions.md R138), before they are delivered. -/
inductive Exc where
  | ud (why : UdCause)
  | nm
  | gp
  | memoryFault (la : Qword)
  | ac (la : Qword)
  | xm (ie de : Bool)
deriving DecidableEq, Repr

/-- A fault is what the chip is believed to do (60_exceptions.md R147). It ends the run (R141, decision D16): no handler runs.
Each constructor holds the state at the fault, whose `rip` is the address of the instruction. All are SAFE: the model stops
where hardware would enter a handler. -/
inductive Fault where
  /-- #UD: the decoder (R73), the enabling checks (R133), or an unmasked SIMD exception with OSXMMEXCPT = 0 (R131). Safe. -/
  | ud (why : UdCause) (atFault : State)
  /-- #NM: CR0.TS = 1 (R134). Safe. -/
  | nm (atFault : State)
  /-- #GP(0): the instruction is longer than 15 bytes (R135). Safe. -/
  | gp (atFault : State)
  /-- #GP, #SS or #PF, which one not determined: the four bytes at `la` are not all readable (R147, 20_memory.md R48). Safe. -/
  | memoryFault (la : Qword) (atFault : State)
  /-- #AC(0): alignment checking is on and `la` is not a multiple of 4 (R137). Safe. -/
  | ac (la : Qword) (atFault : State)
  /-- #XM: an unmasked SIMD floating-point exception (40_vrangess.md R105). Safe. -/
  | xm (ie de : Bool) (atFault : State)
deriving DecidableEq, Repr

/-- A refusal is the model declining to say (60_exceptions.md R147). All are SAFE. -/
inductive Refusal where
  /-- An arm of `exec` with no meaning yet. No arm raises it. Safe. -/
  | notModelled (mnemonic : String)
  /-- A mode other than 64-bit mode: the gate of every meaning, and the fetch (decision D2, 00_scope.md R4(c)). Safe. -/
  | mode (m : Mode)
  /-- The fetch: bytes that are another instruction (30_encoding.md R73, R75). Safe. -/
  | notVrangess
  /-- The fetch: the program text ends inside an instruction (R165: a program is a list of whole encodings). Safe. -/
  | truncated
  /-- The fetch: L'L = 11b with b = 0 (30_encoding.md R74, 90_conflicts.md C15). Safe. -/
  | vectorLength11
  /-- The gate: imm8[7:4] ≠ 0 under `IMM_HI_POLICY = refuse` (30_encoding.md R84, 90_conflicts.md C9). Safe. -/
  | immHigh (imm8 : Byte)
  /-- The operand of a masked-off memory form is not readable, under `FAULT_SUPPRESSION = conservative` (20_memory.md R49). Safe. -/
  | maskedOffUnreadable (la : Qword)
  /-- The gate: the instruction's end leaves the canonical range or wraps (10_state.md R25, decision D22). Safe. -/
  | ripLeavesCanonical
  /-- The fetch: `rip` is neither the start of an instruction of the program nor its end (70_reset_and_hazards.md R165). Safe. -/
  | notInstructionStart
deriving DecidableEq, Repr

/-- What a part of an execution answers: a value, a fault or a refusal. -/
abbrev Result (α : Type) := Host.Outcome α Fault Refusal

/-- The state after power-up or RESET: the table of 10_state.md R32, real mode with every enabling bit clear. What the table does
not give (EFER, CR2, the other segment bases) is the family's 0 (PRESUMED, log entry 3). -/
def State.powerUp : State where
  zmm := Vector.replicate 32 0#512
  k := Vector.replicate 8 0#64
  mxcsr := 0x1F80#32
  rip := 0xFFF0#64
  gpr := (Vector.replicate 16 0#64).set 2 (Config.default.processorSignature.setWidth 64)
  fsBase := 0#64
  gsBase := 0#64
  csBase := 0xFFFF0000#64
  dsBase := 0#64
  esBase := 0#64
  ssBase := 0#64
  rflags := 2#64
  cr0 := 0x60000010#64
  cr2 := 0#64
  cr4 := 0#64
  xcr0 := 1#64
  efer := 0#64
  csL := false
  cpl := 0#2
  mem := []
  codeBase := 0#64
  text := []
  cfg := Config.default

/-- What software has done before a VRANGESS can execute (70_reset_and_hazards.md R161), in its order: (2) CR0.PE, CR0.PG, CR4.PAE,
EFER.LME (with EFER.LMA) and a 64-bit code segment; (3) CR4.OSFXSR and CR4.OSXSAVE; (4) XCR0 bits 0, 1, 2, 5, 6 and 7; (5) CR0.TS and
CR0.EM clear; (6) CR4.OSXMMEXCPT. These are the launch premises `MODE`, `FEATURE` and `ENABLED` of 00_scope.md R5. `rip` becomes the
linear address it stood for, and an empty program is placed there. -/
def State.launch (s : State) : State :=
  { s with
    cr0 := (s.cr0 ||| 0x80000001#64) &&& ~~~0xC#64
    cr4 := s.cr4 ||| 0x40620#64
    efer := s.efer ||| 0x500#64
    csL := true
    xcr0 := s.xcr0 ||| 0xE7#64
    rip := s.csBase + s.rip
    csBase := 0#64
    codeBase := s.csBase + s.rip
    text := [] }

/-- The state a run starts from. The spec starts its model from a launch state and not from the reset values of R32
(70_reset_and_hazards.md R160, decisions D20, D21; the defaults of 00_scope.md R5): this is the launch state reached from R32's
values by R161 (log entry 2). -/
def State.reset : State := State.powerUp.launch

end Sys2Proof.Machine
end

