-- ==== Sys2Proof/Machine/Ops.lean ====
section
/-! DEFINITION. The named operations over registers and memory, and the one operation that raises an exception. -/

namespace Sys2Proof.Machine

/-- Run one part of an execution and, if it gives a value, the next. -/
def andThen {α β : Type} (o : Result α) (f : α → Result β) : Result β :=
  match o with
  | .next a => f a
  | .fault r => .fault r
  | .refused r => .refused r

/-! ### Modes and gating bits (10_state.md R29) -/

/-- CR0.PE. -/
def State.pe (s : State) : Bool := s.cr0.getLsbD 0

/-- CR0.TS. -/
def State.ts (s : State) : Bool := s.cr0.getLsbD 3

/-- CR0.AM. -/
def State.am (s : State) : Bool := s.cr0.getLsbD 18

/-- CR4.OSXMMEXCPT. -/
def State.osxmmexcpt (s : State) : Bool := s.cr4.getLsbD 10

/-- CR4.OSXSAVE. -/
def State.osxsave (s : State) : Bool := s.cr4.getLsbD 18

/-- EFER.LMA. -/
def State.lma (s : State) : Bool := s.efer.getLsbD 10

/-- RFLAGS.VM. -/
def State.vm (s : State) : Bool := s.rflags.getLsbD 17

/-- RFLAGS.AC. -/
def State.acFlag (s : State) : Bool := s.rflags.getLsbD 18

/-- XCR0[2:1] = 11b and XCR0[7:5] = 111b. -/
def State.xcr0Enabled (s : State) : Bool := s.xcr0.extractLsb' 1 2 == 0b11#2 && s.xcr0.extractLsb' 5 3 == 0b111#3

/-- `FEATURE`: CPUID reports AVX512DQ, or AVX10 with version ≥ 1 (R29; 90_conflicts.md C8). -/
def featurePresent (c : Config) : Bool :=
  c.cpuid7_0_ebx.getLsbD 17 || (c.cpuid7_1_edx.getLsbD 19 && decide (1 ≤ c.avx10Version.toNat))

/-- The processor mode: CR0.PE, EFER.LMA and CS.L decide it (R29), and RFLAGS.VM between protected and virtual-8086. -/
def State.mode (s : State) : Mode :=
  if s.pe = false then .real
  else if s.lma then (if s.csL then .mode64 else .compatibility)
  else if s.vm then .virtual8086
  else .protected32

/-- The enabling #UD conditions (60_exceptions.md R133), the first that holds. -/
def State.enableUd (s : State) : Option UdCause :=
  if featurePresent s.cfg = false then some .feature
  else if s.osxsave = false then some .osxsave
  else if s.xcr0Enabled = false then some .xcr0
  else none

/-- `ALIGN_CHECK`: CR0.AM and RFLAGS.AC and CPL = 3 (20_memory.md R42). -/
def State.alignCheck (s : State) : Bool := s.am && s.acFlag && s.cpl == 3#2

/-! ### Registers -/

/-- A whole vector register. -/
def State.zmmAt (s : State) (r : VReg) : Zmm := s.zmm[r.toNat]'r.isLt

/-- `XMM[r]`, the low 128 bits (10_state.md R21). -/
def State.xmm (s : State) (r : VReg) : Xmm := (s.zmmAt r).setWidth 128

/-- Bits 31:0 of a vector register, the low element. -/
def low (v : Xmm) : Dword := v.extractLsb' 0 32

/-- Bits 127:32 of a vector register. -/
def upper (v : Xmm) : BitVec 96 := v.extractLsb' 32 96

/-- `ZMM[r] <- v`. -/
def State.setZmm (s : State) (r : VReg) (v : Zmm) : State := { s with zmm := s.zmm.set r.toNat v r.isLt }

/-- The instruction-pointer write. -/
def State.setRip (s : State) (v : Qword) : State := { s with rip := v }

/-- The MXCSR write. -/
def State.setMxcsr (s : State) (v : Dword) : State := { s with mxcsr := v }

/-- `K[j]` (10_state.md R22). -/
def State.kAt (s : State) (j : BitVec 3) : Qword := s.k[j.toNat]'j.isLt

/-- The writemask bit: 1 when there is no writemask (aaa = 000b, which is never k0), else bit 0 of the register
(40_vrangess.md R102). -/
def State.maskBit (s : State) (mask : BitVec 3) : Bool := mask == 0#3 || (s.kAt mask).getLsbD 0

/-- A general register (10_state.md R26). -/
def State.gprAt (s : State) (r : Gpr) : Qword := s.gpr[r.toNat]'r.isLt

/-- `ZMM[dest] <- zext_MAXVL(v); pc <- pc + ilen` (40_vrangess.md R102, R103, R110). Zero-extension to MAXVL and to the 512 bits of
storage agree, since bits that do not exist are kept zero. -/
def State.complete (s : State) (dest : VReg) (v : Xmm) (len : Nat) : State :=
  (s.setZmm dest (v.setWidth 512)).setRip (s.rip + BitVec.ofNat 64 len)

/-- `MAXVL` in bits. -/
def maxvlBits : MaxVL → Nat
  | .vl128 => 128
  | .vl256 => 256
  | .vl512 => 512

/-! ### Memory (20_memory.md) -/

/-- The byte at an address, none where there is none. -/
def Memory.read : Memory → Nat → Option Byte
  | [], _ => none
  | c :: rest, a => if c.1 = a then some c.2 else Memory.read rest a

/-- Put a byte at an address, in the canonical form. No instruction stores (R40): this is how `LaunchMemory` is made. -/
def Memory.write : Memory → Nat → Byte → Memory
  | [], a, b => [(a, b)]
  | c :: rest, a, b =>
    if a < c.1 then (a, b) :: c :: rest
    else if a = c.1 then (a, b) :: rest
    else c :: Memory.write rest a b

/-- Put bytes at rising addresses. -/
def Memory.writeBytes (m : Memory) (a : Nat) : List Byte → Memory
  | [] => m
  | b :: bs => Memory.writeBytes (m.write a b) (a + 1) bs

/-- A canonical linear address (10_state.md R30): the bits from the sign bit up are all equal. -/
def canonical (p : Paging) (a : Qword) : Bool :=
  match p with
  | .level4 => a.extractLsb' 47 17 == 0#17 || a.extractLsb' 47 17 == BitVec.allOnes 17
  | .level5 => a.extractLsb' 56 8 == 0#8 || a.extractLsb' 56 8 == BitVec.allOnes 8

/-- All of `LA .. LA+3` are canonical addresses (60_exceptions.md R135), so none lies past the top of the address space. -/
def State.canonical4 (s : State) (la : Qword) : Bool :=
  decide (la.toNat + 3 < addressSpace) && canonical s.cfg.paging la && canonical s.cfg.paging (la + 3#64)

/-- `Mem[a+3] ++ Mem[a+2] ++ Mem[a+1] ++ Mem[a]` (20_memory.md R41), none unless all four bytes are there. -/
def Memory.read4 (m : Memory) (a : Nat) : Option Dword :=
  match Memory.read m a, Memory.read m (a + 1), Memory.read m (a + 2), Memory.read m (a + 3) with
  | some b0, some b1, some b2, some b3 => some (dwordOfBytes b0 b1 b2 b3)
  | _, _, _, _ => none

/-- `MemRead(LA, 4)` where it does not fault: canonical, and all four bytes in `LaunchMemory` (20_memory.md R48). -/
def State.memRead4 (s : State) (la : Qword) : Option Dword :=
  if s.canonical4 la then Memory.read4 s.mem la.toNat else none

/-! ### Exceptions (60_exceptions.md R141) -/

/-- Raise an exception. It ends the run in a fault that names it; the state at the fault is the given one, the state before the
instruction, with the MXCSR flag set where the exception is an #XM or its #UD substitute (the caller has set it); `rip` is the
address of the instruction (R141, R147, decision D16). What an exception records on its way to a handler is `State.recorded` in
`Machine/Exceptions.lean` (log entry 12). There is no return: no return instruction is in scope and a fault is terminal (R142). -/
def raise {α : Type} (e : Exc) (s : State) : Result α :=
  match e with
  | .ud why => .fault (.ud why s)
  | .nm => .fault (.nm s)
  | .gp => .fault (.gp s)
  | .memoryFault la => .fault (.memoryFault la s)
  | .ac la => .fault (.ac la s)
  | .xm ie de => .fault (.xm ie de s)

end Sys2Proof.Machine
end

