-- ==== Sys2Proof/Machine/Float.lean ====
section
/-! DEFINITION. The binary32 patterns (00_scope.md R9 to R11). -/

namespace Sys2Proof.Machine

/-- The sign, bit 31. -/
def sign (v : Dword) : Bool := v.getLsbD 31

/-- The biased exponent, bits 30:23. -/
def exponent (v : Dword) : BitVec 8 := v.extractLsb' 23 8

/-- The fraction, bits 22:0. -/
def fraction (v : Dword) : BitVec 23 := v.extractLsb' 0 23

/-- Bits 30:0, the magnitude as an unsigned number. -/
def magnitude (v : Dword) : BitVec 31 := v.extractLsb' 0 31

/-- e = 0 and f ≠ 0. -/
def isDenormal (v : Dword) : Bool := exponent v == 0#8 && fraction v != 0#23

/-- e = 255 and f ≠ 0. -/
def isNaN (v : Dword) : Bool := exponent v == 255#8 && fraction v != 0#23

/-- A NaN with fraction bit 22 set. -/
def isQNaN (v : Dword) : Bool := isNaN v && v.getLsbD 22

/-- A NaN with fraction bit 22 clear. -/
def isSNaN (v : Dword) : Bool := isNaN v && !v.getLsbD 22

/-- `QNAN(v)` (R10). -/
def quiet (v : Dword) : Dword := v ||| 0x00400000#32

/-- The sign bit above 31 bits. -/
def withSign (b : Bool) (m : BitVec 31) : Dword := BitVec.ofBool b ++ m

/-- A zero of the same sign. -/
def signedZero (v : Dword) : Dword := withSign (sign v) 0#31

/-- `key(v)` (R11). -/
def key (v : Dword) : Int := if sign v then -((magnitude v).toNat : Int) else ((magnitude v).toNat : Int)

/-- `A ≤ B` for patterns that are not NaNs (R11). -/
def leValue (a b : Dword) : Bool := decide (key a ≤ key b)

/-- `ABS(A) ≤ ABS(B)` (R11). -/
def leMagnitude (a b : Dword) : Bool := decide ((magnitude a).toNat ≤ (magnitude b).toNat)

/-- The value of a pattern that is not a NaN, times 2^149, so that it is an integer (R9): an infinity counts as the number its
pattern would name, which is above every finite value. -/
def scaledValue (v : Dword) : Int :=
  let m : Nat :=
    if exponent v = 0#8 then (fraction v).toNat
    else (2 ^ 23 + (fraction v).toNat) * 2 ^ ((exponent v).toNat - 1)
  if sign v then -(m : Int) else (m : Int)

end Sys2Proof.Machine
end

