-- ==== Sys2Proof/Machine/RangeSP.lean ====
section
/-! DEFINITION. The function RangeSP (40_vrangess.md R93), step by step, and the imm8 controls (R91). -/

namespace Sys2Proof.Machine

/-- `CmpOpCtl` = imm8[1:0]. -/
def cmpOp (imm8 : Byte) : CmpOp :=
  match imm8.getLsbD 1, imm8.getLsbD 0 with
  | false, false => .min
  | false, true => .max
  | true, false => .minAbs
  | true, true => .maxAbs

/-- `SignSelCtl` = imm8[3:2]. -/
def signSel (imm8 : Byte) : SignSel :=
  match imm8.getLsbD 3, imm8.getLsbD 2 with
  | false, false => .ofSrc1
  | false, true => .ofCompare
  | true, false => .clear
  | true, true => .set

/-- What RangeSP returns: the value and the two indications. -/
structure RangeResult where
  res : Dword
  ie : Bool
  de : Bool
deriving DecidableEq, Repr

/-- Step 2 on one input (R95): a denormal under DAZ becomes a zero of its sign (`DAZ_READING = replace`). -/
def dazInput (cfg : Config) (daz : Bool) (v : Dword) : Dword :=
  if isDenormal v && daz && cfg.daz == .replace then signedZero v else v

/-- Step 2 on one input (R95): DE is indicated for a denormal when DAZ = 0 and the other input is not a QNaN. -/
def denormalIndicated (daz : Bool) (v other : Dword) : Bool := isDenormal v && !daz && !isQNaN other

/-- The two zeros of Table 5-22. -/
def zeroOf : ZeroPick → Dword
  | .plusZero => 0x00000000#32
  | .minusZero => 0x80000000#32

/-- Table 5-22 (R97). -/
def table522 (t : Table522) : CmpOp → Dword
  | .min => zeroOf t.min
  | .max => zeroOf t.max
  | .minAbs => zeroOf t.minAbs
  | .maxAbs => zeroOf t.maxAbs

/-- One of two inputs of opposite sign. -/
def pickTie (p : TiePick) (a b : Dword) : Dword :=
  match p with
  | .negativeInput => if sign a then a else b
  | .positiveInput => if sign a then b else a

/-- The ordinary comparison, arm (v) (R99). -/
def compareOrdinary (cmp : CmpOp) (a b : Dword) : Dword :=
  match cmp with
  | .min => if leValue a b then a else b
  | .max => if leValue a b then b else a
  | .minAbs => if leMagnitude a b then a else b
  | .maxAbs => if leMagnitude a b then b else a

/-- Arms (iv) and (v) (R96): Table 5-23 (R98) for equal magnitudes of opposite sign under an absolute-value comparison. -/
def compareTie (t : Table523) (cmp : CmpOp) (a b : Dword) : Dword :=
  if magnitude a = magnitude b ∧ sign a ≠ sign b then
    match cmp with
    | .minAbs => pickTie t.minAbs a b
    | .maxAbs => pickTie t.maxAbs a b
    | .min => compareOrdinary .min a b
    | .max => compareOrdinary .max a b
  else compareOrdinary cmp a b

/-- Step 3 (R96): the five arms, the first that applies. -/
def selectTmp (cfg : Config) (cmp : CmpOp) (a b : Dword) : Dword :=
  if isQNaN b then a
  else if isQNaN a then b
  else if magnitude a = 0#31 ∧ magnitude b = 0#31 ∧ sign a ≠ sign b then table522 cfg.table522 cmp
  else compareTie cfg.table523 cmp a b

/-- Step 4 (R100). -/
def applySign (sgn : SignSel) (src1 tmp : Dword) : Dword :=
  match sgn with
  | .ofSrc1 => withSign (sign src1) (magnitude tmp)
  | .ofCompare => tmp
  | .clear => withSign false (magnitude tmp)
  | .set => withSign true (magnitude tmp)

/-- RangeSP (R93): a signalling NaN returns at once (R94), then steps 2 to 4. -/
def rangeSP (cfg : Config) (s1 s2 : Dword) (cmp : CmpOp) (sgn : SignSel) (daz : Bool) : RangeResult :=
  if isSNaN s1 then { res := quiet s1, ie := true, de := false }
  else if isSNaN s2 then { res := quiet s2, ie := true, de := false }
  else
    { res := applySign sgn s1 (selectTmp cfg cmp (dazInput cfg daz s1) (dazInput cfg daz s2))
      ie := false
      de := denormalIndicated daz s1 s2 || denormalIndicated daz s2 s1 }

end Sys2Proof.Machine
end

