-- ==== Sys2Proof/Machine/Flags.lean ====
section
/-! DEFINITION. MXCSR (10_state.md R23, R24) and the report of an execution's SIMD floating-point exceptions (40_vrangess.md R104
to R106). -/

namespace Sys2Proof.Machine

/-- MXCSR.IE, bit 0. -/
def State.ieFlag (s : State) : Bool := s.mxcsr.getLsbD 0

/-- MXCSR.DE, bit 1. -/
def State.deFlag (s : State) : Bool := s.mxcsr.getLsbD 1

/-- MXCSR.DAZ, bit 6. -/
def State.daz (s : State) : Bool := s.mxcsr.getLsbD 6

/-- MXCSR.IM, bit 7. -/
def State.im (s : State) : Bool := s.mxcsr.getLsbD 7

/-- MXCSR.DM, bit 8. -/
def State.dm (s : State) : Bool := s.mxcsr.getLsbD 8

/-- MXCSR[31:16], reserved. -/
def State.mxcsrReserved (s : State) : BitVec 16 := s.mxcsr.extractLsb' 16 16

/-- The flags as MXCSR bits. -/
def flagBits (ie de : Bool) : Dword := (BitVec.ofBool de ++ BitVec.ofBool ie).setWidth 32

/-- `MXCSR.IE <- MXCSR.IE OR ie; MXCSR.DE <- MXCSR.DE OR de` (R104): the flags are sticky. -/
def State.setFlags (s : State) (ie de : Bool) : State := s.setMxcsr (s.mxcsr ||| flagBits ie de)

/-- Some indicated exception is not masked (R105). -/
def State.unmasked (s : State) (ie de : Bool) : Bool := (ie && !s.im) || (de && !s.dm)

/-- The report (R104 to R106): nothing under `{sae}`; else the flags are set, and an unmasked exception is raised as #XM, or as #UD
when CR4.OSXMMEXCPT = 0 (60_exceptions.md R131). -/
def report (ie de sae : Bool) (s : State) : Result State :=
  if sae then .next s
  else if s.unmasked ie de then
    if s.osxmmexcpt then raise (.xm ie de) (s.setFlags ie de) else raise (.ud .osxmmexcpt) (s.setFlags ie de)
  else .next (s.setFlags ie de)

end Sys2Proof.Machine
end

