-- ==== Sys2Proof/Machine/Operands.lean ====
section
/-! DEFINITION. The third operand: effective and linear address (20_memory.md R44 to R47), the read and its checks (R40 to R42, R48),
and the masked-off operand (R49). -/

namespace Sys2Proof.Machine

/-- A memory operand as R85 step (9) gives it. The displacement is already the 64-bit amount added. -/
structure MemOperand where
  base : Option Gpr
  index : Option Gpr
  scale : BitVec 2
  disp : Qword
  ripRel : Bool
deriving DecidableEq, Repr

/-- The third operand. -/
inductive Source where
  | reg (r : VReg)
  | mem (m : MemOperand)
deriving DecidableEq, Repr

/-- `X ++ idx = 0100b` means no index (R44). -/
def indexOf (index : Gpr) : Option Gpr := if index = 0b0100#4 then none else some index

/-- A base operand with a displacement amount. -/
def baseOperand (b : Base) (disp : Qword) : MemOperand :=
  match b with
  | .reg r => { base := some r, index := none, scale := 0#2, disp := disp, ripRel := false }
  | .sib r index scale => { base := some r, index := indexOf index, scale := scale, disp := disp, ripRel := false }

/-- disp8*N with N = 4: `sext_64(disp8) × 4` (R45). -/
def disp8Amount (d : Byte) : Qword := d.signExtend 64 * 4#64

/-- `sext_64(disp32)`. -/
def disp32Amount (d : Dword) : Qword := d.signExtend 64

/-- A mod = 00b operand. -/
def mem00Operand (m : Mem00) : MemOperand :=
  match m with
  | .reg r => { base := some r, index := none, scale := 0#2, disp := 0#64, ripRel := false }
  | .ripRel d => { base := none, index := none, scale := 0#2, disp := disp32Amount d, ripRel := true }
  | .sib r index scale => { base := some r, index := indexOf index, scale := scale, disp := 0#64, ripRel := false }
  | .noBase index scale d =>
    { base := none, index := indexOf index, scale := scale, disp := disp32Amount d, ripRel := false }

/-- The base register's part: `pc + ilen` when RIP-relative (R46), 0 when there is none. -/
def State.basePart (s : State) (m : MemOperand) (len : Nat) : Qword :=
  if m.ripRel then s.rip + BitVec.ofNat 64 len
  else
    match m.base with
    | some r => s.gprAt r
    | none => 0#64

/-- `x[index] << scale`, 0 when there is no index. -/
def State.indexPart (s : State) (m : MemOperand) : Qword :=
  match m.index with
  | some r => s.gprAt r <<< m.scale.toNat
  | none => 0#64

/-- The address-size prefix 67h is present. -/
def hasAddr32 (pre : List Prefix) : Bool := pre.contains .addr32

/-- `EA` (R44, R46, R47): all additions wrap. With 67h the low 32 bits of the registers are used with 32-bit wrap-around and the
result is zero-extended, which is the low half of the 64-bit sum. -/
def State.effectiveAddress (s : State) (m : MemOperand) (pre : List Prefix) (len : Nat) : Qword :=
  let ea := s.basePart m len + s.indexPart m + m.disp
  if hasAddr32 pre then (ea.setWidth 32).setWidth 64 else ea

/-- The segment bases that count in 64-bit mode. -/
inductive SegOverride where
  | fs | gs
deriving DecidableEq, Repr

/-- The segment base a prefix selects in 64-bit mode: 26h, 2Eh, 36h and 3Eh "have no effect on the address" (R47). -/
def prefixSegment : Prefix → Option SegOverride
  | .fs => some .fs
  | .gs => some .gs
  | .es | .cs | .ss | .ds | .addr32 => none

/-- The override a prefix list makes: the last of the FS and GS prefixes. 26h, 2Eh, 36h and 3Eh do not undo one (DEDUCED, log
entry 7). -/
def segOverride : List Prefix → Option SegOverride
  | [] => none
  | p :: rest =>
    match segOverride rest with
    | some o => some o
    | none => prefixSegment p

/-- `SegBase` (R47): FS.base or GS.base under its prefix, else 0. -/
def State.segBase (s : State) (pre : List Prefix) : Qword :=
  match segOverride pre with
  | some .fs => s.fsBase
  | some .gs => s.gsBase
  | none => 0#64

/-- `LA = SegBase + EA` (R47). -/
def State.linearAddress (s : State) (m : MemOperand) (pre : List Prefix) (len : Nat) : Qword :=
  s.segBase pre + s.effectiveAddress m pre len

/-- `LA mod 4 ≠ 0`. -/
def misaligned (la : Qword) : Bool := la.extractLsb' 0 2 != 0#2

/-- The read of the 32 bits at `la` (R40): the canonical check, then the alignment check, then presence (60_exceptions.md R139). -/
def State.load (s : State) (la : Qword) : Result Dword :=
  if s.canonical4 la = false then raise (.memoryFault la) s
  else if s.alignCheck && misaligned la then raise (.ac la) s
  else
    match s.memRead4 la with
    | some v => .next v
    | none => raise (.memoryFault la) s

/-- SRC2[31:0], with the mask bit 1 (40_vrangess.md R102). -/
def readSource (src : Source) (pre : List Prefix) (len : Nat) (s : State) : Result Dword :=
  match src with
  | .reg r => .next (low (s.xmm r))
  | .mem m => s.load (s.linearAddress m pre len)

/-- The third operand with the mask bit 0 (20_memory.md R49): no value is needed; a memory operand that is not readable is refused
under `FAULT_SUPPRESSION = conservative`. -/
def skipSource (src : Source) (pre : List Prefix) (len : Nat) (s : State) : Result Unit :=
  match src with
  | .reg _ => .next ()
  | .mem m =>
    match s.cfg.faultSuppression with
    | .suppress => .next ()
    | .conservative =>
      if (s.memRead4 (s.linearAddress m pre len)).isSome then .next ()
      else .refused (.maskedOffUnreadable (s.linearAddress m pre len))

end Sys2Proof.Machine
end

