-- ==== Sys2Proof/Machine/Vrangess.lean ====
section
/-! DEFINITION. The meaning of VRANGESS (40_vrangess.md R102), once over the shared operations, then one definition per decode row. -/

namespace Sys2Proof.Machine

/-- imm8[7:4], "must be zero" (30_encoding.md R84). -/
def immHighBits (imm8 : Byte) : BitVec 4 := imm8.extractLsb' 4 4

/-- R84: under `IMM_HI_POLICY = refuse` an instruction with imm8[7:4] ≠ 0 has no meaning. -/
def immAllowed (cfg : Config) (imm8 : Byte) : Bool := cfg.immHi == .ignore || immHighBits imm8 == 0#4

/-- The instruction lies inside the canonical range and so does the next address (10_state.md R25, decision D22). -/
def State.ripInRange (s : State) (len : Nat) : Bool :=
  decide (s.rip.toNat + len < addressSpace) && canonical s.cfg.paging s.rip &&
    canonical s.cfg.paging (s.rip + BitVec.ofNat 64 len)

/-- What comes before any operand is read (R108 (1), 60_exceptions.md R139, R147): the refusals of R147, then #GP for the length,
#UD (60_exceptions.md R133), #NM (R134). -/
def gate (c : Common) (len : Nat) (s : State) : Result Unit :=
  if s.mode ≠ .mode64 then .refused (.mode s.mode)
  else if s.ripInRange len = false then .refused .ripLeavesCanonical
  else if immAllowed s.cfg c.imm8 = false then .refused (.immHigh c.imm8)
  else if maxLength < len then raise .gp s
  else if c.wellFormed = false then raise (.ud (.encoding .zeroingNoMask)) s
  else
    match s.enableUd with
    | some why => raise (.ud why) s
    | none => if s.ts then raise .nm s else .next ()

/-- The mask bit is 1: read SRC2, compute, report, write (R102; order of events R108). -/
def compute (c : Common) (src : Source) (sae : Bool) (len : Nat) (s : State) : Result State :=
  andThen (readSource src c.pre len s) fun s2 =>
    let r := rangeSP s.cfg (low (s.xmm c.src1)) s2 (cmpOp c.imm8) (signSel c.imm8) s.daz
    andThen (report r.ie r.de sae s) fun s' =>
      .next (s'.complete c.dest (upper (s.xmm c.src1) ++ r.res) len)

/-- The low element when the mask bit is 0: 0 under zeroing-masking, DEST[31:0] under merging-masking (R102). -/
def maskedLow (c : Common) (s : State) : Dword := if c.z then 0#32 else low (s.xmm c.dest)

/-- The mask bit is 0: RangeSP is not evaluated, and the upper bits are written all the same (R102, R103). -/
def skip (c : Common) (src : Source) (len : Nat) (s : State) : Result State :=
  andThen (skipSource src c.pre len s) fun _ =>
    .next (s.complete c.dest (upper (s.xmm c.src1) ++ maskedLow c s) len)

/-- VRANGESS (R102). -/
def vrangess (c : Common) (src : Source) (sae : Bool) (len : Nat) (s : State) : Result State :=
  andThen (gate c len s) fun _ =>
    if s.maskBit c.mask then compute c src sae len s else skip c src len s

/-- Row 1, `xmm1 {k1}{z}, xmm2, xmm3, imm8`. -/
def execVrangessReg (c : Common) (src2 : VReg) (s : State) : Result State :=
  vrangess c (.reg src2) false (Instr.vrangessReg c src2).length s

/-- Row 2, `xmm1 {k1}{z}, xmm2, xmm3{sae}, imm8` (R106). -/
def execVrangessRegSae (c : Common) (src2 : VReg) (s : State) : Result State :=
  vrangess c (.reg src2) true (Instr.vrangessRegSae c src2).length s

/-- Row 3, `xmm1 {k1}{z}, xmm2, m32, imm8` with mod = 00b. -/
def execVrangessMem (c : Common) (m : Mem00) (s : State) : Result State :=
  vrangess c (.mem (mem00Operand m)) false (Instr.vrangessMem c m).length s

/-- Row 4, `m32` with mod = 01b: disp8 × 4. -/
def execVrangessMemDisp8 (c : Common) (base : Base) (disp8 : Byte) (s : State) : Result State :=
  vrangess c (.mem (baseOperand base (disp8Amount disp8))) false (Instr.vrangessMemDisp8 c base disp8).length s

/-- Row 5, `m32` with mod = 10b: disp32. -/
def execVrangessMemDisp32 (c : Common) (base : Base) (disp32 : Dword) (s : State) : Result State :=
  vrangess c (.mem (baseOperand base (disp32Amount disp32))) false (Instr.vrangessMemDisp32 c base disp32).length s

end Sys2Proof.Machine
end

