-- ==== Sys2Proof/Machine/Dispatch.lean ====
section
/-! DEFINITION. The dispatch: one arm per constructor of Instr. -/

namespace Sys2Proof.Machine

/-- The meaning of an instruction. -/
def exec (i : Instr) (s : State) : Host.Outcome State Fault Refusal :=
  match i with
  | .vrangessReg c src2 => Sys2Proof.Machine.execVrangessReg c src2 s
  | .vrangessRegSae c src2 => Sys2Proof.Machine.execVrangessRegSae c src2 s
  | .vrangessMem c m => Sys2Proof.Machine.execVrangessMem c m s
  | .vrangessMemDisp8 c base disp8 => Sys2Proof.Machine.execVrangessMemDisp8 c base disp8 s
  | .vrangessMemDisp32 c base disp32 => Sys2Proof.Machine.execVrangessMemDisp32 c base disp32 s

end Sys2Proof.Machine
end

