-- ==== Sys2Proof/Machine/Fetch.lean ====
section
/-! DEFINITION. Fetching from the program text (70_reset_and_hazards.md R165; 20_memory.md R50, R54, decision D13). -/

namespace Sys2Proof.Machine

/-- How far `rip` is into the program text. -/
def State.offset (s : State) : Nat := (s.rip - s.codeBase).toNat

/-- The run has ended: `rip` is one past the last instruction (R165). Only the length of the text counts: of a text that is not a list of
whole encodings, which R165 does not speak of, its end counts as the end of the run too (DESIGN CHOICE, log entry 6). -/
def State.runComplete (s : State) : Bool := s.offset == s.text.length

/-- `off` is the start of one of the instructions that stand one after another in `bs`, or the end of the last. `fuel` bounds how
many are passed. -/
def onBoundary (fuel : Nat) (bs : List Byte) (off : Nat) : Bool :=
  match fuel with
  | 0 => off == 0
  | fuel' + 1 =>
    if off = 0 then true
    else
      match decode bs with
      | .ok i rest => if i.length ≤ off then onBoundary fuel' rest (off - i.length) else false
      | .ud _ => false
      | .overlong _ => false
      | .refuse _ => false

/-- `rip` stands at an instruction of the program or at its end. Every instruction has at least one byte, so the length of the text
is fuel enough. -/
def State.onProgram (s : State) : Bool := onBoundary s.text.length s.text s.offset

/-- The bytes from `rip` on. -/
def State.bytesAtRip (s : State) : List Byte := s.text.drop s.offset

/-- What a decoder's verdict means for the machine (60_exceptions.md R147). An instruction that is too long goes on to its meaning, whose
gate applies the imm8 policy and then raises #GP: the order of steps (7) and (8) of 30_encoding.md R85. -/
def verdictResult (v : Verdict) (s : State) : Result Instr :=
  match v with
  | .ok i _ => .next i
  | .ud why => raise (.ud (.encoding why)) s
  | .overlong i => .next i
  | .refuse .truncated => .refused .truncated
  | .refuse .notVrangess => .refused .notVrangess
  | .refuse .vectorLength11 => .refused .vectorLength11

/-- Fetch and decode. Bytes are decoded in 64-bit mode only (decision D2); a `rip` that is not the start of an instruction of the
program is refused (R165). -/
def fetch (s : State) : Result Instr :=
  if s.mode ≠ .mode64 then .refused (.mode s.mode)
  else if s.onProgram = false then .refused .notInstructionStart
  else verdictResult (decode s.bytesAtRip) s

end Sys2Proof.Machine
end

