-- ==== Sys2Proof/Machine/Step.lean ====
section
/-! DEFINITION. One step. -/

namespace Sys2Proof.Machine

/-- One instruction (70_reset_and_hazards.md R163, R165). A completed run stays where it is: its state is the final state
(DESIGN CHOICE, log entry 6). -/
def step (s : State) : Host.Outcome State Fault Refusal :=
  if s.runComplete then .next s else andThen (fetch s) fun i => exec i s

/-- Load the instruction whose bits are `w` as the program, at `rip` (log entry 2). -/
def State.withFetchWord (s : State) (nbits w : Nat) : State :=
  { s with codeBase := s.rip, text := tableBytes nbits w }

end Sys2Proof.Machine
end

