-- ==== Sys2Proof/Machine/Exceptions.lean ====
section
/-! DEFINITION. What the exceptions are on the chip (60_exceptions.md R132 to R138), as far as an execution can meet them, and the
INIT event (10_state.md R32). The step stops at the fault (R141); these definitions say which architectural exceptions a fault stands
for, and what each hands to its handler: vector, error code, recorded value. -/

namespace Sys2Proof.Machine

/-- The exceptions of R138. -/
inductive ArchException where
  | ud | nm | ss | gp | pf | ac | xm
deriving DecidableEq, Repr

/-- The vector (R138). -/
def ArchException.vector : ArchException → Nat
  | .ud => 6
  | .nm => 7
  | .ss => 12
  | .gp => 13
  | .pf => 14
  | .ac => 17
  | .xm => 19

/-- What a fault stands for (R147). -/
def Fault.standsFor : Fault → List ArchException
  | .ud _ _ => [.ud]
  | .nm _ => [.nm]
  | .gp _ => [.gp]
  | .memoryFault _ _ => [.gp, .ss, .pf]
  | .ac _ _ => [.ac]
  | .xm _ _ _ => [.xm]

/-- The state at the fault (R141). -/
def Fault.state : Fault → State
  | .ud _ s => s
  | .nm s => s
  | .gp s => s
  | .memoryFault _ s => s
  | .ac _ s => s
  | .xm _ _ s => s

/-- The default segment is SS: the base register is RSP or RBP, and no FS or GS override is present (R135, 20_memory.md R44). -/
def usesStackSegment (m : MemOperand) (pre : List Prefix) : Bool :=
  (m.base == some 4#4 || m.base == some 5#4) && (segOverride pre).isNone

/-- The exceptions the architecture may raise for an operand that cannot be read (R48, R135, R136): #SS or #GP for an address that is
not canonical, #PF for one that is. Under a 36h prefix R48 reads as #SS and R135 as #GP: both stand here. `MemoryFault` does not
choose (decision D15). -/
def State.addressExceptions (s : State) (m : MemOperand) (pre : List Prefix) (len : Nat) : List ArchException :=
  if s.canonical4 (s.linearAddress m pre len) then [.pf]
  else if usesStackSegment m pre then [.ss]
  else if pre.contains .ss && (segOverride pre).isNone then [.ss, .gp]
  else [.gp]

/-- The error code of a #PF on the operand (R136): PK, I/D = 0, RSVD, U/S = 1 at CPL 3, W/R = 0, P. P, RSVD and PK are the
translation's, which is not modelled: they are arguments. -/
def State.pageFaultCode (s : State) (p rsvd pk : Bool) : BitVec 6 :=
  BitVec.ofBool pk ++ 0#1 ++ BitVec.ofBool rsvd ++ BitVec.ofBool (s.cpl == 3#2) ++ 0#1 ++ BitVec.ofBool p

/-- The error code an exception pushes (R138): none, 0, or that of R136. Bits of it that R136 does not name are 0 (PRESUMED, log
entry 3). -/
def State.errorCode (s : State) (p rsvd pk : Bool) : ArchException → Option Dword
  | .ud => none
  | .nm => none
  | .ss => some 0#32
  | .gp => some 0#32
  | .pf => some ((s.pageFaultCode p rsvd pk).setWidth 32)
  | .ac => some 0#32
  | .xm => none

/-- The faulting linear address of a read at `la` that is not possible: "the lowest faulting byte address" (20_memory.md R48), the
first of the four bytes that is not there, which lies in the page that faulted when the read crosses a page boundary (R136). Which byte it is: DEDUCED, log entry 12. -/
def State.faultingAddress (s : State) (la : Qword) : Qword :=
  if Memory.read s.mem la.toNat = none then la
  else if Memory.read s.mem (la.toNat + 1) = none then la + 1#64
  else if Memory.read s.mem (la.toNat + 2) = none then la + 2#64
  else la + 3#64

/-- What an exception on the read at `la` records before its handler runs (R138): a #PF writes the faulting linear address to CR2
(R136); the others record nothing (R135), but for the MXCSR flags of an #XM, which the report has set. It belongs to delivery, which
the step stops before (R141, log entry 12). -/
def State.recorded (s : State) (la : Qword) : ArchException → State
  | .ud => s
  | .nm => s
  | .ss => s
  | .gp => s
  | .pf => { s with cr2 := s.faultingAddress la }
  | .ac => s
  | .xm => s

/-- INIT (the third column of 10_state.md R32): an event from outside, not a step. ZMM, k, MXCSR and XCR0 stay; CR0 keeps CD and NW. -/
def State.afterInit (s : State) : State :=
  { s with
    rip := 0xFFF0#64
    csBase := 0xFFFF0000#64
    csL := false
    gpr := (Vector.replicate 16 0#64).set 2 (s.cfg.processorSignature.setWidth 64)
    cr0 := (s.cr0 &&& 0x60000000#64) ||| 0x10#64
    cr4 := 0#64
    efer := 0#64
    rflags := 2#64
    cpl := 0#2 }

end Sys2Proof.Machine
end

