-- ==== Sys2Proof/Safety.lean ====
section
/-! DEFINITION. The terms statements use: when an instruction gets past its gate, what a machine keeps, what a safe outcome is. -/

namespace Sys2Proof.Machine

/-- Nothing stops an instruction before its operands are read: 64-bit mode, the enabling state of 10_state.md R29, and an encoding
and a place the model gives a meaning to. -/
structure State.Ready (s : State) (c : Common) (len : Nat) : Prop where
  mode : s.mode = .mode64
  feature : featurePresent s.cfg = true
  osxsave : s.osxsave = true
  xcr0 : s.xcr0Enabled = true
  ts : s.ts = false
  rip : s.ripInRange len = true
  imm : immAllowed s.cfg c.imm8 = true
  length : len ≤ maxLength
  masking : c.wellFormed = true

/-- Bits of a vector register at or above MAXVL do not exist: they are kept zero (10_state.md R21). -/
abbrev State.zmmWithin (s : State) : Prop := ∀ v ∈ s.zmm.toList, v.toNat < 2 ^ maxvlBits s.cfg.maxvl

/-- What every step keeps: memory in its canonical form, vector registers no wider than MAXVL, the reserved bits of MXCSR zero
(10_state.md R23), a program that fits the address space, and `rip` at an instruction of it or at its end
(70_reset_and_hazards.md R165). -/
structure State.Inv (s : State) : Prop where
  mem : Memory.wf s.mem
  zmm : s.zmmWithin
  mxcsr : s.mxcsrReserved = 0#16
  text : s.text.length < addressSpace
  rip : s.onProgram = true

/-- The third operand of an instruction, as its meaning reads it. -/
def sourceOf : Instr → Source
  | .vrangessReg _ r => .reg r
  | .vrangessRegSae _ r => .reg r
  | .vrangessMem _ m => .mem (mem00Operand m)
  | .vrangessMemDisp8 _ b d => .mem (baseOperand b (disp8Amount d))
  | .vrangessMemDisp32 _ b d => .mem (baseOperand b (disp32Amount d))

/-- `{sae}` is present. -/
def saeOf : Instr → Bool
  | .vrangessReg _ _ => false
  | .vrangessRegSae _ _ => true
  | .vrangessMem _ _ => false
  | .vrangessMemDisp8 _ _ _ => false
  | .vrangessMemDisp32 _ _ _ => false

/-- The same instruction with another imm8. -/
def withImm (b : Byte) : Instr → Instr
  | .vrangessReg c r => .vrangessReg { c with imm8 := b } r
  | .vrangessRegSae c r => .vrangessRegSae { c with imm8 := b } r
  | .vrangessMem c m => .vrangessMem { c with imm8 := b } m
  | .vrangessMemDisp8 c base d => .vrangessMemDisp8 { c with imm8 := b } base d
  | .vrangessMemDisp32 c base d => .vrangessMemDisp32 { c with imm8 := b } base d

/-- The linear address of a memory operand of an instruction (20_memory.md R47). -/
def State.operandAddress (s : State) (i : Instr) (m : MemOperand) : Qword := s.linearAddress m i.common.pre i.length

/-- RangeSP on the instruction's operands, the second input given. -/
def State.rangeOf (s : State) (c : Common) (s2 : Dword) : RangeResult :=
  rangeSP s.cfg (low (s.xmm c.src1)) s2 (cmpOp c.imm8) (signSel c.imm8) s.daz

/-- MXCSR after IE and DE are or-ed in (40_vrangess.md R104). -/
def mxcsrWith (v : Dword) (ie de : Bool) : Dword :=
  v ||| (if ie then 0x1#32 else 0x0#32) ||| (if de then 0x2#32 else 0x0#32)

/-- The state after an execution that completed: DEST holds the low element, SRC1[127:32] above it and zeros above bit 127; IE and DE
are or-ed into MXCSR; the instruction pointer is past the instruction; nothing else has changed (R102 to R104, R110). -/
def State.wrote (s : State) (c : Common) (lowElement : Dword) (ie de : Bool) (len : Nat) : State :=
  { s with
    zmm := s.zmm.set c.dest.toNat ((((s.xmm c.src1).extractLsb' 32 96 ++ lowElement).setWidth 512)) c.dest.isLt
    mxcsr := mxcsrWith s.mxcsr ie de
    rip := s.rip + BitVec.ofNat 64 len }

end Sys2Proof.Machine
end

