-- ==== Sys2Proof/Certificates/Slice0/Obligations.lean ====
section
/-! DEFINITION. The statements. `open` shortens names only; every statement is about the machine, none about a program. -/

open Sys2Proof Sys2Proof.Machine

/-! ## Encoding -/

/-- Decoding what the encoder writes gives the instruction back, whatever bytes follow (30_encoding.md R85, R86). -/
def Obligations.DecodeInvertsEncode : Prop :=
  ∀ (i : Instr) (rest : List Byte), i.wellFormed = true → decode (encode i ++ rest) = .ok i rest

/-- What the decoder accepts is a well-formed instruction, and it takes exactly `ilen` bytes (30_encoding.md R76, R85). -/
def Obligations.DecodedTermsAreWellFormed : Prop :=
  ∀ (bs : List Byte) (i : Instr) (rest : List Byte), decode bs = .ok i rest →
    i.wellFormed = true ∧ ∃ front, bs = front ++ rest ∧ front.length = i.length

/-- The register form, bit by bit (30_encoding.md R62 to R64, R70): every value of every field. -/
def Obligations.RegisterFieldsDecode : Prop :=
  ∀ (p0 p1 p2 m imm8 : Byte) (rest : List Byte),
    p0.extractLsb' 0 4 = 0b0011#4 → p1.getLsbD 7 = false → p1.extractLsb' 0 3 = 0b101#3 → m.extractLsb' 6 2 = 0b11#2 →
    ¬ (p2.getLsbD 7 = true ∧ p2.extractLsb' 0 3 = 0#3) → ¬ (p2.getLsbD 4 = false ∧ p2.extractLsb' 5 2 = 0b11#2) →
    decode (0x62#8 :: p0 :: p1 :: p2 :: 0x51#8 :: m :: imm8 :: rest) =
      .ok ((if p2.getLsbD 4 then Instr.vrangessRegSae else Instr.vrangessReg)
        { pre := []
          dest := BitVec.ofBool (!p0.getLsbD 4) ++ BitVec.ofBool (!p0.getLsbD 7) ++ m.extractLsb' 3 3
          src1 := BitVec.ofBool (!p2.getLsbD 3) ++ ~~~(p1.extractLsb' 3 4)
          mask := p2.extractLsb' 0 3
          z := p2.getLsbD 7
          imm8 := imm8 }
        (BitVec.ofBool (!p0.getLsbD 6) ++ BitVec.ofBool (!p0.getLsbD 5) ++ m.extractLsb' 0 3)) rest

/-- The memory forms, bit by bit: the rows of the table of 20_memory.md R44, with the fields of 30_encoding.md R66 to R68. -/
def Obligations.MemoryFieldsDecode : Prop :=
  ∀ (p0 p1 p2 m imm8 : Byte) (rest : List Byte) (c : Common) (B X : Bool),
    p0.extractLsb' 0 4 = 0b0011#4 → p1.getLsbD 7 = false → p1.extractLsb' 0 3 = 0b101#3 →
    ¬ (p2.getLsbD 7 = true ∧ p2.extractLsb' 0 3 = 0#3) → p2.getLsbD 4 = false → p2.extractLsb' 5 2 ≠ 0b11#2 →
    B = !p0.getLsbD 5 → X = !p0.getLsbD 6 →
    c = { pre := []
          dest := BitVec.ofBool (!p0.getLsbD 4) ++ BitVec.ofBool (!p0.getLsbD 7) ++ m.extractLsb' 3 3
          src1 := BitVec.ofBool (!p2.getLsbD 3) ++ ~~~(p1.extractLsb' 3 4)
          mask := p2.extractLsb' 0 3
          z := p2.getLsbD 7
          imm8 := imm8 } →
    (m.extractLsb' 6 2 = 0b00#2 → m.extractLsb' 0 3 ≠ 0b100#3 → m.extractLsb' 0 3 ≠ 0b101#3 →
      decode (0x62#8 :: p0 :: p1 :: p2 :: 0x51#8 :: m :: imm8 :: rest) =
        .ok (.vrangessMem c (.reg (BitVec.ofBool B ++ m.extractLsb' 0 3))) rest) ∧
    (m.extractLsb' 6 2 = 0b00#2 → m.extractLsb' 0 3 = 0b101#3 → ∀ d0 d1 d2 d3 : Byte,
      decode (0x62#8 :: p0 :: p1 :: p2 :: 0x51#8 :: m :: d0 :: d1 :: d2 :: d3 :: imm8 :: rest) =
        .ok (.vrangessMem c (.ripRel (d3 ++ d2 ++ d1 ++ d0))) rest) ∧
    (m.extractLsb' 6 2 = 0b00#2 → m.extractLsb' 0 3 = 0b100#3 → ∀ sib : Byte, sib.extractLsb' 0 3 ≠ 0b101#3 →
      decode (0x62#8 :: p0 :: p1 :: p2 :: 0x51#8 :: m :: sib :: imm8 :: rest) =
        .ok (.vrangessMem c (.sib (BitVec.ofBool B ++ sib.extractLsb' 0 3) (BitVec.ofBool X ++ sib.extractLsb' 3 3)
          (sib.extractLsb' 6 2))) rest) ∧
    (m.extractLsb' 6 2 = 0b00#2 → m.extractLsb' 0 3 = 0b100#3 → ∀ sib d0 d1 d2 d3 : Byte, sib.extractLsb' 0 3 = 0b101#3 →
      decode (0x62#8 :: p0 :: p1 :: p2 :: 0x51#8 :: m :: sib :: d0 :: d1 :: d2 :: d3 :: imm8 :: rest) =
        .ok (.vrangessMem c (.noBase (BitVec.ofBool X ++ sib.extractLsb' 3 3) (sib.extractLsb' 6 2)
          (d3 ++ d2 ++ d1 ++ d0))) rest) ∧
    (m.extractLsb' 6 2 = 0b01#2 → m.extractLsb' 0 3 ≠ 0b100#3 → ∀ d : Byte,
      decode (0x62#8 :: p0 :: p1 :: p2 :: 0x51#8 :: m :: d :: imm8 :: rest) =
        .ok (.vrangessMemDisp8 c (.reg (BitVec.ofBool B ++ m.extractLsb' 0 3)) d) rest) ∧
    (m.extractLsb' 6 2 = 0b01#2 → m.extractLsb' 0 3 = 0b100#3 → ∀ sib d : Byte,
      decode (0x62#8 :: p0 :: p1 :: p2 :: 0x51#8 :: m :: sib :: d :: imm8 :: rest) =
        .ok (.vrangessMemDisp8 c (.sib (BitVec.ofBool B ++ sib.extractLsb' 0 3) (BitVec.ofBool X ++ sib.extractLsb' 3 3)
          (sib.extractLsb' 6 2)) d) rest) ∧
    (m.extractLsb' 6 2 = 0b10#2 → m.extractLsb' 0 3 ≠ 0b100#3 → ∀ d0 d1 d2 d3 : Byte,
      decode (0x62#8 :: p0 :: p1 :: p2 :: 0x51#8 :: m :: d0 :: d1 :: d2 :: d3 :: imm8 :: rest) =
        .ok (.vrangessMemDisp32 c (.reg (BitVec.ofBool B ++ m.extractLsb' 0 3)) (d3 ++ d2 ++ d1 ++ d0)) rest) ∧
    (m.extractLsb' 6 2 = 0b10#2 → m.extractLsb' 0 3 = 0b100#3 → ∀ sib d0 d1 d2 d3 : Byte,
      decode (0x62#8 :: p0 :: p1 :: p2 :: 0x51#8 :: m :: sib :: d0 :: d1 :: d2 :: d3 :: imm8 :: rest) =
        .ok (.vrangessMemDisp32 c (.sib (BitVec.ofBool B ++ sib.extractLsb' 0 3) (BitVec.ofBool X ++ sib.extractLsb' 3 3)
          (sib.extractLsb' 6 2)) (d3 ++ d2 ++ d1 ++ d0)) rest)

/-- 30_encoding.md R74. L'L does not matter, but for L'L = 11b with b = 0, which is refused; the encoder writes 00b; EVEX.X is ignored with
a memory operand and no SIB, EVEX.B with no base register. -/
def Obligations.IgnoredEncodingBits : Prop :=
  (∀ (pre : List Prefix) (p0 p1 p2 q2 : Byte) (bs : List Byte), p2 &&& 0x9F#8 = q2 &&& 0x9F#8 →
    (p2.getLsbD 4 = true ∨ p2.extractLsb' 5 2 ≠ 0b11#2) → (q2.getLsbD 4 = true ∨ q2.extractLsb' 5 2 ≠ 0b11#2) →
    decode (pre.map prefixByte ++ 0x62#8 :: p0 :: p1 :: p2 :: bs) =
      decode (pre.map prefixByte ++ 0x62#8 :: p0 :: p1 :: q2 :: bs)) ∧
  (∀ (pre : List Prefix) (p0 p1 p2 m : Byte) (bs : List Byte), p0.extractLsb' 0 4 = 0b0011#4 → p1.getLsbD 7 = false →
    p1.extractLsb' 0 3 = 0b101#3 → ¬ (p2.getLsbD 7 = true ∧ p2.extractLsb' 0 3 = 0#3) → p2.getLsbD 4 = false →
    p2.extractLsb' 5 2 = 0b11#2 →
    decode (pre.map prefixByte ++ 0x62#8 :: p0 :: p1 :: p2 :: 0x51#8 :: m :: bs) = .refuse .vectorLength11) ∧
  (∀ (c : Common) (b : Bool), (encodeP2 c b).extractLsb' 5 2 = 0b00#2) ∧
  (∀ (pre : List Prefix) (p0 p1 p2 m : Byte) (bs : List Byte), m.extractLsb' 6 2 ≠ 0b11#2 → m.extractLsb' 0 3 ≠ 0b100#3 →
    decode (pre.map prefixByte ++ 0x62#8 :: (p0 ^^^ 0x40#8) :: p1 :: p2 :: 0x51#8 :: m :: bs) =
      decode (pre.map prefixByte ++ 0x62#8 :: p0 :: p1 :: p2 :: 0x51#8 :: m :: bs)) ∧
  (∀ (pre : List Prefix) (p0 p1 p2 m : Byte) (bs : List Byte), m.extractLsb' 6 2 = 0b00#2 → m.extractLsb' 0 3 = 0b101#3 →
    decode (pre.map prefixByte ++ 0x62#8 :: (p0 ^^^ 0x20#8) :: p1 :: p2 :: 0x51#8 :: m :: bs) =
      decode (pre.map prefixByte ++ 0x62#8 :: p0 :: p1 :: p2 :: 0x51#8 :: m :: bs)) ∧
  (∀ (pre : List Prefix) (p0 p1 p2 m sib : Byte) (bs : List Byte), m.extractLsb' 6 2 = 0b00#2 → m.extractLsb' 0 3 = 0b100#3 →
    sib.extractLsb' 0 3 = 0b101#3 →
    decode (pre.map prefixByte ++ 0x62#8 :: (p0 ^^^ 0x20#8) :: p1 :: p2 :: 0x51#8 :: m :: sib :: bs) =
      decode (pre.map prefixByte ++ 0x62#8 :: p0 :: p1 :: p2 :: 0x51#8 :: m :: sib :: bs))

/-- The invalid encodings (30_encoding.md R61, R73), each by name, after any permitted prefixes. -/
def Obligations.InvalidEncodingsAreUd : Prop :=
  (∀ (pre : List Prefix) (p0 p1 p2 : Byte) (bs : List Byte), p0.extractLsb' 0 2 = 0b11#2 → p1.extractLsb' 0 2 = 0b01#2 →
    p1.getLsbD 7 = false →
    (p0.extractLsb' 2 2 ≠ 0b00#2 →
      decode (pre.map prefixByte ++ 0x62#8 :: p0 :: p1 :: p2 :: bs) = .ud .reservedP0) ∧
    (p0.extractLsb' 2 2 = 0b00#2 → p1.getLsbD 2 = false →
      decode (pre.map prefixByte ++ 0x62#8 :: p0 :: p1 :: p2 :: bs) = .ud .fixedP1) ∧
    (p0.extractLsb' 2 2 = 0b00#2 → p1.getLsbD 2 = true → ∀ m : Byte, m.extractLsb' 6 2 ≠ 0b11#2 → p2.getLsbD 4 = true →
      decode (pre.map prefixByte ++ 0x62#8 :: p0 :: p1 :: p2 :: 0x51#8 :: m :: bs) = .ud .broadcast) ∧
    (p0.extractLsb' 2 2 = 0b00#2 → p1.getLsbD 2 = true → ∀ m : Byte, (m.extractLsb' 6 2 = 0b11#2 ∨ p2.getLsbD 4 = false) →
      p2.getLsbD 7 = true → p2.extractLsb' 0 3 = 0#3 →
      decode (pre.map prefixByte ++ 0x62#8 :: p0 :: p1 :: p2 :: 0x51#8 :: m :: bs) = .ud .zeroingNoMask)) ∧
  (∀ (before after : List Prefix) (f : Byte) (bs : List Byte),
    (f = 0xF0#8 ∨ f = 0x66#8 ∨ f = 0xF2#8 ∨ f = 0xF3#8 ∨ f.extractLsb' 4 4 = 0x4#4) →
    decode (before.map prefixByte ++ f :: (after.map prefixByte ++ 0x62#8 :: bs)) = .ud .legacyPrefix)

/-- Another map, another implied prefix, W = 1 (VRANGESD) or another opcode byte is "not VRANGESS", not #UD (30_encoding.md R73, R75,
R85 steps (3), (4)); so is a first byte that is neither a prefix nor 62h (R85 step (2)). -/
def Obligations.OtherInstructionsAreNotDecoded : Prop :=
  (∀ (pre : List Prefix) (p0 p1 p2 : Byte) (bs : List Byte),
    (p0.extractLsb' 0 2 ≠ 0b11#2 ∨ p1.extractLsb' 0 2 ≠ 0b01#2 ∨ p1.getLsbD 7 = true) →
    decode (pre.map prefixByte ++ 0x62#8 :: p0 :: p1 :: p2 :: bs) = .refuse .notVrangess) ∧
  (∀ (pre : List Prefix) (p0 p1 p2 op : Byte) (bs : List Byte), p0.extractLsb' 0 4 = 0b0011#4 → p1.getLsbD 7 = false →
    p1.extractLsb' 0 3 = 0b101#3 → op ≠ 0x51#8 →
    decode (pre.map prefixByte ++ 0x62#8 :: p0 :: p1 :: p2 :: op :: bs) = .refuse .notVrangess) ∧
  (∀ (pre : List Prefix) (b : Byte) (bs : List Byte), prefixOf b = none → forbiddenPrefix b = false → b ≠ 0x62#8 →
    decode (pre.map prefixByte ++ b :: bs) = .refuse .notVrangess)

/-- Words written out from the spec's encoding tables (95_test_vectors.md A1, A5, A6, A12, A19, A21, A26, A30) decode to the instructions
they stand for. -/
def Obligations.WrittenWordsDecode : Prop :=
  decode [0x62#8, 0xF3#8, 0x6D#8, 0x08#8, 0x51#8, 0xCB#8, 0x03#8] = .ok (.vrangessReg ⟨[], 1#5, 2#5, 0#3, false, 3#8⟩ 3#5) [] ∧
  decode [0x62#8, 0xF3#8, 0x6D#8, 0x9F#8, 0x51#8, 0xCB#8, 0x0F#8] = .ok (.vrangessRegSae ⟨[], 1#5, 2#5, 7#3, true, 15#8⟩ 3#5) [] ∧
  decode [0x62#8, 0xA3#8, 0x6D#8, 0x00#8, 0x51#8, 0xCB#8, 0x05#8] = .ok (.vrangessReg ⟨[], 17#5, 18#5, 0#3, false, 5#8⟩ 19#5) [] ∧
  decode [0x62#8, 0xF3#8, 0x6D#8, 0x08#8, 0x51#8, 0x48#8, 0x01#8, 0x02#8] =
    .ok (.vrangessMemDisp8 ⟨[], 1#5, 2#5, 0#3, false, 2#8⟩ (.reg 0#4) 1#8) [] ∧
  decode [0x62#8, 0xF3#8, 0x6D#8, 0x08#8, 0x51#8, 0x0D#8, 0x10#8, 0x00#8, 0x00#8, 0x00#8, 0x02#8] =
    .ok (.vrangessMem ⟨[], 1#5, 2#5, 0#3, false, 2#8⟩ (.ripRel 0x10#32)) [] ∧
  decode [0x62#8, 0x93#8, 0x6D#8, 0x08#8, 0x51#8, 0x4C#8, 0xC8#8, 0xFF#8, 0x02#8] =
    .ok (.vrangessMemDisp8 ⟨[], 1#5, 2#5, 0#3, false, 2#8⟩ (.sib 8#4 9#4 3#2) 0xFF#8) [] ∧
  decode [0x62#8, 0xF3#8, 0x6D#8, 0x08#8, 0x51#8, 0x0C#8, 0x25#8, 0x00#8, 0x10#8, 0x00#8, 0x00#8, 0x02#8] =
    .ok (.vrangessMem ⟨[], 1#5, 2#5, 0#3, false, 2#8⟩ (.noBase 4#4 0#2 0x1000#32)) [] ∧
  decode [0x64#8, 0x62#8, 0xF3#8, 0x6D#8, 0x08#8, 0x51#8, 0x08#8, 0x02#8] =
    .ok (.vrangessMem ⟨[.fs], 1#5, 2#5, 0#3, false, 2#8⟩ (.reg 0#4)) [] ∧
  decode [0x62#8, 0xF3#8, 0x6D#8, 0x08#8, 0x51#8, 0x88#8, 0xFC#8, 0xFD#8, 0xFF#8, 0xFF#8, 0x02#8] =
    .ok (.vrangessMemDisp32 ⟨[], 1#5, 2#5, 0#3, false, 2#8⟩ (.reg 0#4) 0xFFFFFDFC#32) []

/-- 30_encoding.md R76: `ilen` is the number of bytes; its value for every form; longer than 15 bytes is #GP, where neither the place (D22)
nor imm8 (R84, which R85 applies before the length) has the instruction refused. That #GP for the length comes before the enabling #UD and #NM,
so that the last clause needs no premise on those bits, is how the model orders them (DEDUCED, log entry 16): no rule gives the order of #GP and #UD. -/
def Obligations.InstructionLengths : Prop :=
  (∀ i : Instr, (encode i).length = i.length) ∧
  (∀ (c : Common) (r : VReg) (g x : Gpr) (sc : BitVec 2) (d : Dword) (b : Byte),
    (Instr.vrangessReg c r).length = c.pre.length + 7 ∧
    (Instr.vrangessRegSae c r).length = c.pre.length + 7 ∧
    (Instr.vrangessMem c (.reg g)).length = c.pre.length + 7 ∧
    (Instr.vrangessMem c (.sib g x sc)).length = c.pre.length + 8 ∧
    (Instr.vrangessMem c (.ripRel d)).length = c.pre.length + 11 ∧
    (Instr.vrangessMem c (.noBase x sc d)).length = c.pre.length + 12 ∧
    (Instr.vrangessMemDisp8 c (.reg g) b).length = c.pre.length + 8 ∧
    (Instr.vrangessMemDisp8 c (.sib g x sc) b).length = c.pre.length + 9 ∧
    (Instr.vrangessMemDisp32 c (.reg g) d).length = c.pre.length + 11 ∧
    (Instr.vrangessMemDisp32 c (.sib g x sc) d).length = c.pre.length + 12) ∧
  (∀ (i : Instr) (rest : List Byte), i.common.wellFormed = true → i.operandWellFormed = true → 15 < i.length →
    decode (encode i ++ rest) = .overlong i) ∧
  (∀ (s : State) (i : Instr), s.mode = .mode64 → s.onProgram = true → s.runComplete = false → decode s.bytesAtRip = .overlong i →
    s.ripInRange i.length = true → immAllowed s.cfg i.common.imm8 = true → step s = .fault (.gp s))

/-! ## Addresses and memory -/

/-- 20_memory.md R45: disp8 is sign-extended and multiplied by 4; which displacements it can hold; disp32 is not scaled; the form an
assembler picks (30_encoding.md R86) never changes the address. -/
def Obligations.CompressedDisplacement : Prop :=
  (∀ (s : State) (b : Base) (d : Byte) (len : Nat),
    s.effectiveAddress (baseOperand b (disp8Amount d)) [] len =
      s.effectiveAddress (baseOperand b 0#64) [] len + d.signExtend 64 * 4#64) ∧
  (∀ (s : State) (b : Base) (d : Dword) (len : Nat),
    s.effectiveAddress (baseOperand b (disp32Amount d)) [] len =
      s.effectiveAddress (baseOperand b 0#64) [] len + d.signExtend 64) ∧
  (disp8Amount 0x01#8).toInt = 4 ∧ (disp8Amount 0x7F#8).toInt = 508 ∧ (disp8Amount 0xFF#8).toInt = -4 ∧
  (disp8Amount 0x80#8).toInt = -512 ∧
  (∀ d : Dword, disp8Fits d = true ↔ ∃ k : Int, -128 ≤ k ∧ k ≤ 127 ∧ d.toInt = 4 * k) ∧
  (∀ (c : Common) (b : Base) (d : Dword), disp8Fits d = false → assembleMem c b d = .vrangessMemDisp32 c b d) ∧
  (∀ (c : Common) (b : Base) (d : Dword), sourceOf (assembleMem c b d) = .mem (baseOperand b (d.signExtend 64)))

/-- The rows of the effective-address table of 20_memory.md R44, without the address-size prefix. Index 0100b is no index. -/
def Obligations.EffectiveAddressRows : Prop :=
  ∀ (s : State) (pre : List Prefix) (len : Nat) (r x : Gpr) (sc : BitVec 2) (d8 : Byte) (d32 : Dword) (ix : Qword),
    Prefix.addr32 ∉ pre → ix = (if x = 0b0100#4 then 0#64 else s.gprAt x <<< sc.toNat) →
    s.effectiveAddress (mem00Operand (.reg r)) pre len = s.gprAt r ∧
    s.effectiveAddress (mem00Operand (.ripRel d32)) pre len = s.rip + BitVec.ofNat 64 len + d32.signExtend 64 ∧
    s.effectiveAddress (mem00Operand (.sib r x sc)) pre len = s.gprAt r + ix ∧
    s.effectiveAddress (mem00Operand (.noBase x sc d32)) pre len = d32.signExtend 64 + ix ∧
    s.effectiveAddress (baseOperand (.reg r) (disp8Amount d8)) pre len = s.gprAt r + d8.signExtend 64 * 4#64 ∧
    s.effectiveAddress (baseOperand (.sib r x sc) (disp8Amount d8)) pre len = s.gprAt r + ix + d8.signExtend 64 * 4#64 ∧
    s.effectiveAddress (baseOperand (.reg r) (disp32Amount d32)) pre len = s.gprAt r + d32.signExtend 64 ∧
    s.effectiveAddress (baseOperand (.sib r x sc) (disp32Amount d32)) pre len = s.gprAt r + ix + d32.signExtend 64

/-- 20_memory.md R46: RIP-relative is relative to the next instruction, imm8 counted; with 67h the sum is truncated to 32 bits and
zero-extended; the worked example. -/
def Obligations.RipRelativeAddress : Prop :=
  (∀ (s : State) (c : Common) (d : Dword),
    s.effectiveAddress (mem00Operand (.ripRel d)) c.pre (encode (.vrangessMem c (.ripRel d))).length =
      if Prefix.addr32 ∈ c.pre then
        ((s.rip + BitVec.ofNat 64 (c.pre.length + 11) + d.signExtend 64).setWidth 32).setWidth 64
      else s.rip + BitVec.ofNat 64 (c.pre.length + 11) + d.signExtend 64) ∧
  (∀ (s : State) (c : Common), s.rip = 0x72#64 → c.pre = [] →
    s.effectiveAddress (mem00Operand (.ripRel 0x10#32)) c.pre (Instr.vrangessMem c (.ripRel 0x10#32)).length = 0x8D#64)

/-- 20_memory.md R47: the segment base, the prefixes without effect, and 32-bit address size; of several FS and GS prefixes the last one
counts (30_encoding.md R61). That 26h, 2Eh, 36h and 3Eh have no effect after an
FS or GS prefix either is how the model reads R47 (log entry 7). -/
def Obligations.LinearAddressSegments : Prop :=
  ∀ (s : State) (m : MemOperand) (pre : List Prefix) (len : Nat),
    s.linearAddress m pre len = s.segBase pre + s.effectiveAddress m pre len ∧
    (Prefix.fs ∉ pre → Prefix.gs ∉ pre → s.segBase pre = 0#64) ∧
    (Prefix.fs ∈ pre → Prefix.gs ∉ pre → s.segBase pre = s.fsBase) ∧
    (Prefix.gs ∈ pre → Prefix.fs ∉ pre → s.segBase pre = s.gsBase) ∧
    (∀ post : List Prefix, Prefix.fs ∉ post → Prefix.gs ∉ post →
      s.segBase (pre ++ .fs :: post) = s.fsBase ∧ s.segBase (pre ++ .gs :: post) = s.gsBase) ∧
    (∀ (p : Prefix) (post : List Prefix), p = .es ∨ p = .cs ∨ p = .ss ∨ p = .ds →
      s.linearAddress m (pre ++ p :: post) len = s.linearAddress m (pre ++ post) len) ∧
    (Prefix.addr32 ∈ pre → s.effectiveAddress m pre len =
      ((s.basePart m len).setWidth 32 +
        (match m.index with
          | some r => (s.gprAt r).setWidth 32 <<< m.scale.toNat
          | none => 0#32) + m.disp.setWidth 32).setWidth 64)

/-- 10_state.md R27: in 64-bit mode the bases of CS, DS, ES and SS are treated as zero, so no outcome of an execution that goes on depends
on them. -/
def Obligations.OtherSegmentBasesIgnored : Prop :=
  ∀ (i : Instr) (s t : State) (cs ds es ss : Qword), exec i s = .next t →
    exec i { s with csBase := cs, dsBase := ds, esBase := es, ssBase := ss } =
      .next { t with csBase := cs, dsBase := ds, esBase := es, ssBase := ss }

/-- 20_memory.md R41: the byte at the lowest address is bits 7:0, in data memory and in a disp32; four single-byte stores followed by the
4-byte read see the bytes so assembled. -/
def Obligations.LittleEndianBytes : Prop :=
  (∀ (s : State) (la : Qword) (b0 b1 b2 b3 : Byte), s.canonical4 la = true →
    Memory.read s.mem la.toNat = some b0 → Memory.read s.mem (la.toNat + 1) = some b1 →
    Memory.read s.mem (la.toNat + 2) = some b2 → Memory.read s.mem (la.toNat + 3) = some b3 →
    s.memRead4 la = some (b3 ++ b2 ++ b1 ++ b0)) ∧
  (∀ (m : Memory) (a : Nat) (b0 b1 b2 b3 : Byte), Memory.wf m → a + 3 < addressSpace →
    Memory.read4 (Memory.writeBytes m a [b0, b1, b2, b3]) a = some (b3 ++ b2 ++ b1 ++ b0)) ∧
  (∀ (b0 b1 b2 b3 : Byte) (rest : List Byte), readDisp32 (b0 :: b1 :: b2 :: b3 :: rest) = some (b3 ++ b2 ++ b1 ++ b0, rest)) ∧
  (∀ d : Dword, readDisp32 (dispBytes d) = some (d, [])) ∧
  Memory.read4 (Memory.writeBytes [] 0x20000 [0x01#8, 0x02#8, 0x03#8, 0x04#8]) 0x20000 = some 0x04030201#32

/-- 60_exceptions.md R137: when #AC is raised, and that nothing else raises it. The canonical check comes first (R139). -/
def Obligations.AlignmentCheckFault : Prop :=
  (∀ (i : Instr) (s : State) (m : MemOperand), s.Ready i.common i.length → sourceOf i = .mem m →
    s.maskBit i.common.mask = true → s.canonical4 (s.operandAddress i m) = true →
    s.am = true → s.acFlag = true → s.cpl = 3#2 → (s.operandAddress i m).toNat % 4 ≠ 0 →
    exec i s = .fault (.ac (s.operandAddress i m) s)) ∧
  (∀ (i : Instr) (s t : State) (la : Qword), exec i s = .fault (.ac la t) →
    t = s ∧ s.maskBit i.common.mask = true ∧ s.am = true ∧ s.acFlag = true ∧ s.cpl = 3#2 ∧ la.toNat % 4 ≠ 0 ∧
      ∃ m, sourceOf i = .mem m ∧ la = s.operandAddress i m) ∧
  State.reset.alignCheck = false

/-- A memory form with the mask bit 1 whose four bytes are not all readable, by presence or by a non-canonical address, is a memory fault
at LA (60_exceptions.md R147, 20_memory.md R48), and the state at the fault is the state before it. Which addresses are canonical: each of the
four bytes has bits 63:47 (63:56 under 5-level paging) all equal (10_state.md R30, 60_exceptions.md R135). An address that is canonical and fails the alignment check is an #AC instead (log entry 8). -/
def Obligations.UnreadableOperandFaults : Prop :=
  (∀ (s : State) (la : Qword), s.canonical4 la = true ↔
    la.toNat + 3 < 2 ^ 64 ∧ ∀ k, k < 4 → ∀ b, (match s.cfg.paging with | .level4 => 47 | .level5 => 56) ≤ b → b < 64 →
      (la + BitVec.ofNat 64 k).getLsbD b = (la + BitVec.ofNat 64 k).getLsbD 63) ∧
  ∀ (i : Instr) (s : State) (m : MemOperand), s.Ready i.common i.length → sourceOf i = .mem m →
    s.maskBit i.common.mask = true →
    (s.canonical4 (s.operandAddress i m) = false ∨
      ((s.alignCheck = false ∨ (s.operandAddress i m).toNat % 4 = 0) ∧
        ∃ k, k < 4 ∧ Memory.read s.mem ((s.operandAddress i m).toNat + k) = none)) →
    exec i s = .fault (.memoryFault (s.operandAddress i m) s)

/-- 20_memory.md R49: a masked-off memory operand. Readable, or under `suppress`, the instruction completes; not readable under
`conservative` it is refused. Each of the three memory forms. -/
def Obligations.MaskedOffMemoryOperand : Prop :=
  ∀ (i : Instr) (s : State) (m : MemOperand), s.Ready i.common i.length → sourceOf i = .mem m →
    s.maskBit i.common.mask = false →
    ((s.cfg.faultSuppression = .suppress ∨ s.memRead4 (s.operandAddress i m) ≠ none) →
      exec i s = .next (s.wrote i.common (if i.common.z then 0#32 else low (s.xmm i.common.dest)) false false i.length)) ∧
    (s.cfg.faultSuppression = .conservative → s.memRead4 (s.operandAddress i m) = none →
      exec i s = .refused (.maskedOffUnreadable (s.operandAddress i m)))

/-! ## RangeSP -/

/-- 40_vrangess.md R94. -/
def Obligations.SignallingNanReturns : Prop :=
  (∀ (cfg : Config) (s1 s2 : Dword) (cmp : CmpOp) (sgn : SignSel) (daz : Bool),
    (isSNaN s1 = true → rangeSP cfg s1 s2 cmp sgn daz = { res := s1 ||| 0x00400000#32, ie := true, de := false }) ∧
    (isSNaN s1 = false → isSNaN s2 = true →
      rangeSP cfg s1 s2 cmp sgn daz = { res := s2 ||| 0x00400000#32, ie := true, de := false }) ∧
    (isSNaN s1 = false → isSNaN s2 = false → (rangeSP cfg s1 s2 cmp sgn daz).ie = false) ∧
    rangeSP cfg 0x7F800001#32 0xC0000000#32 cmp sgn daz = { res := 0x7FC00001#32, ie := true, de := false } ∧
    rangeSP cfg 0x3F800000#32 0xFFBFFFFF#32 .maxAbs .clear daz = { res := 0xFFFFFFFF#32, ie := true, de := false })

/-- 40_vrangess.md R95 under `DAZ_READING = replace`. -/
def Obligations.DenormalInputsHandled : Prop :=
  (∀ (cfg : Config) (s1 s2 : Dword) (cmp : CmpOp) (sgn : SignSel), cfg.daz = .replace →
    isSNaN s1 = false → isSNaN s2 = false →
    (rangeSP cfg s1 s2 cmp sgn true).de = false ∧
    (rangeSP cfg s1 s2 cmp sgn true).res =
      (rangeSP cfg (if isDenormal s1 then s1 &&& 0x80000000#32 else s1) (if isDenormal s2 then s2 &&& 0x80000000#32 else s2)
        cmp sgn true).res ∧
    (rangeSP cfg s1 s2 cmp sgn false).de =
      ((isDenormal s1 && !isQNaN s2) || (isDenormal s2 && !isQNaN s1)) ∧
    (rangeSP cfg s1 s2 cmp sgn false).res = applySign sgn s1 (selectTmp cfg cmp s1 s2)) ∧
  rangeSP Config.default 0x00000001#32 0xC0000000#32 .min .set false = { res := 0xC0000000#32, ie := false, de := true } ∧
  rangeSP Config.default 0x7FC00000#32 0x00000001#32 .max .ofCompare false = { res := 0x00000001#32, ie := false, de := false } ∧
  rangeSP Config.default 0x807FFFFF#32 0x00000000#32 .min .ofCompare true = { res := 0x80000000#32, ie := false, de := false } ∧
  rangeSP Config.default 0x00000001#32 0xC0000000#32 .max .ofCompare true = { res := 0x00000000#32, ie := false, de := false }

/-- `DAZ_READING = literal` (92_eei_decisions.md D5): the result is that of DAZ = 0, and DE is not indicated. -/
def Obligations.LiteralDazReading : Prop :=
  ∀ (cfg : Config) (s1 s2 : Dword) (cmp : CmpOp) (sgn : SignSel), cfg.daz = .literal →
    (rangeSP cfg s1 s2 cmp sgn true).res = (rangeSP cfg s1 s2 cmp sgn false).res ∧
    (rangeSP cfg s1 s2 cmp sgn true).de = false

/-- 40_vrangess.md R97: zeros of opposite sign take Table 5-22, whichever operand held which; its default content. -/
def Obligations.OppositeZerosTable : Prop :=
  (∀ (cfg : Config) (a b : Dword), (a = 0x00000000#32 ∧ b = 0x80000000#32) ∨ (a = 0x80000000#32 ∧ b = 0x00000000#32) →
    ∀ cmp, selectTmp cfg cmp a b = table522 cfg.table522 cmp) ∧
  (∀ (a b : Dword), (a = 0x00000000#32 ∧ b = 0x80000000#32) ∨ (a = 0x80000000#32 ∧ b = 0x00000000#32) →
    selectTmp Config.default .min a b = 0x80000000#32 ∧ selectTmp Config.default .minAbs a b = 0x80000000#32 ∧
    selectTmp Config.default .max a b = 0x00000000#32 ∧ selectTmp Config.default .maxAbs a b = 0x00000000#32)

/-- 40_vrangess.md R98: non-zero inputs of equal magnitude and opposite sign, infinities included, under MIN_ABS and MAX_ABS take Table
5-23, whichever operand held which; its default content is the negative and the positive input. -/
def Obligations.EqualMagnitudeTable : Prop :=
  ∀ (cfg : Config) (a b : Dword), isNaN a = false → magnitude a ≠ 0#31 → magnitude a = magnitude b →
    a.getLsbD 31 = false → b.getLsbD 31 = true →
    selectTmp cfg .minAbs a b = (if cfg.table523.minAbs = .negativeInput then b else a) ∧
    selectTmp cfg .minAbs b a = (if cfg.table523.minAbs = .negativeInput then b else a) ∧
    selectTmp cfg .maxAbs a b = (if cfg.table523.maxAbs = .positiveInput then a else b) ∧
    selectTmp cfg .maxAbs b a = (if cfg.table523.maxAbs = .positiveInput then a else b) ∧
    selectTmp Config.default .minAbs a b = b ∧ selectTmp Config.default .minAbs b a = b ∧
    selectTmp Config.default .maxAbs a b = a ∧ selectTmp Config.default .maxAbs b a = a

/-- 00_scope.md R9, R11: on patterns that are not NaNs the model's comparison is that of the binary32 values (times 2^149, an infinity above
every finite value), its magnitude comparison that of their absolute values, and the two zeros are equal. -/
def Obligations.ComparisonIsNumerical : Prop :=
  ∀ a b : Dword, isNaN a = false → isNaN b = false →
    (leValue a b = true ↔ scaledValue a ≤ scaledValue b) ∧
    (leMagnitude a b = true ↔ (scaledValue a).natAbs ≤ (scaledValue b).natAbs) ∧
    leValue 0x00000000#32 0x80000000#32 = true ∧ leValue 0x80000000#32 0x00000000#32 = true ∧
    leValue 0xFF800000#32 a = true ∧ leValue a 0x7F800000#32 = true

/-- 40_vrangess.md R99: the ordinary comparison, by value, where it is reached. -/
def Obligations.OrdinaryComparison : Prop :=
  ∀ (cfg : Config) (a b : Dword), isNaN a = false → isNaN b = false →
    ¬ (magnitude a = 0#31 ∧ magnitude b = 0#31 ∧ sign a ≠ sign b) →
    selectTmp cfg .min a b = (if scaledValue a ≤ scaledValue b then a else b) ∧
    selectTmp cfg .max a b = (if scaledValue a ≤ scaledValue b then b else a) ∧
    (¬ (magnitude a = magnitude b ∧ sign a ≠ sign b) →
      selectTmp cfg .minAbs a b = (if (scaledValue a).natAbs ≤ (scaledValue b).natAbs then a else b) ∧
      selectTmp cfg .maxAbs a b = (if (scaledValue a).natAbs ≤ (scaledValue b).natAbs then b else a)) ∧
    (scaledValue a = scaledValue b → a = b) ∧
    ((scaledValue a).natAbs = (scaledValue b).natAbs → a = b ∨ (magnitude a = magnitude b ∧ sign a ≠ sign b)) ∧
    scaledValue 0xFF800000#32 ≤ scaledValue a ∧ scaledValue a ≤ scaledValue 0x7F800000#32

/-- 40_vrangess.md R100: bits 30:0 are those of TMP; bit 31 is the sign of SRC1 (which the DAZ replacement does not change), TMP's, 0 or
1. -/
def Obligations.SignSelection : Prop :=
  ∀ (cfg : Config) (s1 s2 : Dword) (cmp : CmpOp) (sgn : SignSel) (daz : Bool) (tmp : Dword),
    isSNaN s1 = false → isSNaN s2 = false → tmp = selectTmp cfg cmp (dazInput cfg daz s1) (dazInput cfg daz s2) →
    (rangeSP cfg s1 s2 cmp sgn daz).res.extractLsb' 0 31 = tmp.extractLsb' 0 31 ∧
    (sgn = .ofSrc1 → (rangeSP cfg s1 s2 cmp sgn daz).res.getLsbD 31 = s1.getLsbD 31) ∧
    (sgn = .ofCompare → (rangeSP cfg s1 s2 cmp sgn daz).res = tmp) ∧
    (sgn = .clear → (rangeSP cfg s1 s2 cmp sgn daz).res.getLsbD 31 = false) ∧
    (sgn = .set → (rangeSP cfg s1 s2 cmp sgn daz).res.getLsbD 31 = true) ∧
    (dazInput cfg daz s1).getLsbD 31 = s1.getLsbD 31

/-- 40_vrangess.md R101, Table 5-21: every row. -/
def Obligations.NanInputTable : Prop :=
  ∀ (cfg : Config) (s1 s2 : Dword) (cmp : CmpOp) (sgn : SignSel) (daz : Bool),
    (isSNaN s1 = true → rangeSP cfg s1 s2 cmp sgn daz = { res := quiet s1, ie := true, de := false }) ∧
    (isQNaN s1 = true → isSNaN s2 = true → rangeSP cfg s1 s2 cmp sgn daz = { res := quiet s2, ie := true, de := false }) ∧
    (isQNaN s1 = true → isQNaN s2 = true →
      (rangeSP cfg s1 s2 cmp sgn daz).res = applySign sgn s1 s1 ∧ (rangeSP cfg s1 s2 cmp sgn daz).ie = false) ∧
    (isQNaN s1 = true → isNaN s2 = false →
      (rangeSP cfg s1 s2 cmp sgn daz).res = applySign sgn s1 (dazInput cfg daz s2) ∧ (rangeSP cfg s1 s2 cmp sgn daz).ie = false) ∧
    (isNaN s1 = false → isSNaN s2 = true → rangeSP cfg s1 s2 cmp sgn daz = { res := quiet s2, ie := true, de := false }) ∧
    (isNaN s1 = false → isQNaN s2 = true →
      (rangeSP cfg s1 s2 cmp sgn daz).res = applySign sgn s1 (dazInput cfg daz s1) ∧ (rangeSP cfg s1 s2 cmp sgn daz).ie = false) ∧
    ((rangeSP cfg s1 s2 cmp sgn daz).ie = true ↔ isSNaN s1 = true ∨ isSNaN s2 = true)

/-- 40_vrangess.md R113, (a) to (g). -/
def Obligations.RangeProperties : Prop :=
  (∀ (cfg : Config) (s1 s2 : Dword) (cmp : CmpOp) (sgn : SignSel) (daz : Bool), isSNaN s1 = false → isSNaN s2 = false →
    ((rangeSP cfg s1 s2 cmp sgn daz).res.extractLsb' 0 31 = (dazInput cfg daz s1).extractLsb' 0 31 ∨
      (rangeSP cfg s1 s2 cmp sgn daz).res.extractLsb' 0 31 = (dazInput cfg daz s2).extractLsb' 0 31) ∧
    (rangeSP cfg s1 s2 cmp .clear daz).res.getLsbD 31 = false ∧
    (rangeSP cfg s1 s2 cmp .set daz).res.getLsbD 31 = true ∧
    (rangeSP cfg s1 s2 cmp .ofSrc1 daz).res.getLsbD 31 = s1.getLsbD 31 ∧
    (rangeSP cfg s1 s2 cmp sgn daz).ie = false) ∧
  (∀ (cfg : Config) (s1 s2 : Dword) (cmp : CmpOp) (sgn : SignSel) (daz : Bool), isNaN s1 = false → isNaN s2 = false →
    (sgn ≠ .ofSrc1 → rangeSP cfg s1 s2 cmp sgn daz = rangeSP cfg s2 s1 cmp sgn daz) ∧
    ((rangeSP cfg s1 s2 cmp sgn daz).de = true ↔ daz = false ∧ (isDenormal s1 = true ∨ isDenormal s2 = true))) ∧
  (∀ (cfg : Config) (x : Dword) (cmp : CmpOp), isSNaN x = false →
    rangeSP cfg x x cmp .ofCompare false = { res := x, ie := false, de := isDenormal x }) ∧
  (∀ (i : Instr) (s : State) (b : Byte), s.cfg.immHi = .ignore → b.extractLsb' 0 4 = i.common.imm8.extractLsb' 0 4 →
    exec (withImm b i) s = exec i s) ∧
  (∀ (i : Instr) (s t t' : State) (v : Dword), v.getLsbD 6 = s.mxcsr.getLsbD 6 → exec i s = .next t →
    exec i (s.setMxcsr v) = .next t' → t'.zmm = t.zmm)

/-- 40_vrangess.md R111: imm8 = 02h with SRC2 = 150.0 clamps to ±150 and keeps the sign of SRC1, for every SRC1 that is not a NaN (with
DAZ = 0, or SRC1 not a denormal). -/
def Obligations.ClampToReference : Prop :=
  ∀ (s1 : Dword) (daz : Bool), isNaN s1 = false → (daz = false ∨ isDenormal s1 = false) →
    ((scaledValue s1).natAbs < (scaledValue 0x43160000#32).natAbs →
      (rangeSP Config.default s1 0x43160000#32 (cmpOp 0x02#8) (signSel 0x02#8) daz).res = s1) ∧
    (scaledValue 0x43160000#32 ≤ scaledValue s1 →
      (rangeSP Config.default s1 0x43160000#32 (cmpOp 0x02#8) (signSel 0x02#8) daz).res = 0x43160000#32) ∧
    (scaledValue s1 ≤ scaledValue 0xC3160000#32 →
      (rangeSP Config.default s1 0x43160000#32 (cmpOp 0x02#8) (signSel 0x02#8) daz).res = 0xC3160000#32)

/-- One value twice (30_encoding.md R83, 40_vrangess.md R109(b)): every comparison selects it, so the sign control gives |x|, -|x| or x; a
denormal indicates DE with DAZ = 0 and becomes a zero of its sign with DAZ = 1; an SNaN is quieted with IE. -/
def Obligations.SameSourceTwice : Prop :=
  ∀ (cfg : Config) (x : Dword) (cmp : CmpOp),
    (isSNaN x = false →
      rangeSP cfg x x cmp .clear false = { res := x &&& 0x7FFFFFFF#32, ie := false, de := isDenormal x } ∧
      rangeSP cfg x x cmp .set false = { res := x ||| 0x80000000#32, ie := false, de := isDenormal x } ∧
      rangeSP cfg x x cmp .ofSrc1 false = { res := x, ie := false, de := isDenormal x } ∧
      rangeSP cfg x x cmp .ofCompare false = { res := x, ie := false, de := isDenormal x }) ∧
    (isSNaN x = false → cfg.daz = .replace → ∀ y, y = (if isDenormal x then x &&& 0x80000000#32 else x) →
      rangeSP cfg x x cmp .clear true = { res := y &&& 0x7FFFFFFF#32, ie := false, de := false } ∧
      rangeSP cfg x x cmp .set true = { res := y ||| 0x80000000#32, ie := false, de := false } ∧
      rangeSP cfg x x cmp .ofSrc1 true = { res := y, ie := false, de := false } ∧
      rangeSP cfg x x cmp .ofCompare true = { res := y, ie := false, de := false }) ∧
    (isSNaN x = true → ∀ sgn daz, rangeSP cfg x x cmp sgn daz = { res := x ||| 0x00400000#32, ie := true, de := false })

/-! ## The instruction, row by row -/

/-- Row 1 completes, with and without a writemask, for every operand: DEST[31:0] is RangeSP's result with the mask bit 1, kept or zeroed
with the mask bit 0; DEST[127:32] = SRC1[127:32]; zeros above; IE and DE or-ed in; the instruction pointer past the instruction; nothing else
changes (40_vrangess.md R102 to R104, R110). -/
def Obligations.RegisterFormResult : Prop :=
  ∀ (c : Common) (r : VReg) (s : State), s.Ready c (c.pre.length + 7) →
    (s.maskBit c.mask = true →
      s.unmasked (s.rangeOf c (low (s.xmm r))).ie (s.rangeOf c (low (s.xmm r))).de = false →
      exec (.vrangessReg c r) s = .next (s.wrote c (s.rangeOf c (low (s.xmm r))).res (s.rangeOf c (low (s.xmm r))).ie
        (s.rangeOf c (low (s.xmm r))).de (c.pre.length + 7))) ∧
    (s.maskBit c.mask = false →
      exec (.vrangessReg c r) s =
        .next (s.wrote c (if c.z then 0#32 else low (s.xmm c.dest)) false false (c.pre.length + 7)))

/-- Row 2, `{sae}` (40_vrangess.md R106): completes whatever the exception masks are, writes no flag, and with DAZ honoured gives the result
RangeSP gives without `{sae}`. -/
def Obligations.RegisterSaeFormResult : Prop :=
  ∀ (c : Common) (r : VReg) (s : State), s.Ready c (c.pre.length + 7) →
    (s.maskBit c.mask = true →
      exec (.vrangessRegSae c r) s = .next (s.wrote c (s.rangeOf c (low (s.xmm r))).res false false (c.pre.length + 7)) ∧
      ∀ t, exec (.vrangessReg c r) s = .next t →
        exec (.vrangessRegSae c r) s = .next (t.setMxcsr s.mxcsr)) ∧
    (s.maskBit c.mask = false →
      exec (.vrangessRegSae c r) s =
        .next (s.wrote c (if c.z then 0#32 else low (s.xmm c.dest)) false false (c.pre.length + 7)))

/-- Row 3 completes with the mask bit 1: the second input is the four bytes at LA. -/
def Obligations.MemoryFormResult : Prop :=
  ∀ (c : Common) (m : Mem00) (s : State) (v : Dword), s.Ready c (Instr.vrangessMem c m).length → s.maskBit c.mask = true →
    s.memRead4 (s.linearAddress (mem00Operand m) c.pre (Instr.vrangessMem c m).length) = some v →
    (s.alignCheck = false ∨ (s.linearAddress (mem00Operand m) c.pre (Instr.vrangessMem c m).length).toNat % 4 = 0) →
    s.unmasked (s.rangeOf c v).ie (s.rangeOf c v).de = false →
    exec (.vrangessMem c m) s =
      .next (s.wrote c (s.rangeOf c v).res (s.rangeOf c v).ie (s.rangeOf c v).de (Instr.vrangessMem c m).length)

/-- Row 4 completes with the mask bit 1: base and index plus disp8 × 4. -/
def Obligations.MemoryDisp8FormResult : Prop :=
  ∀ (c : Common) (b : Base) (d : Byte) (s : State) (v : Dword), s.Ready c (Instr.vrangessMemDisp8 c b d).length →
    s.maskBit c.mask = true →
    s.memRead4 (s.linearAddress (baseOperand b (d.signExtend 64 * 4#64)) c.pre (Instr.vrangessMemDisp8 c b d).length) = some v →
    (s.alignCheck = false ∨
      (s.linearAddress (baseOperand b (d.signExtend 64 * 4#64)) c.pre (Instr.vrangessMemDisp8 c b d).length).toNat % 4 = 0) →
    s.unmasked (s.rangeOf c v).ie (s.rangeOf c v).de = false →
    exec (.vrangessMemDisp8 c b d) s =
      .next (s.wrote c (s.rangeOf c v).res (s.rangeOf c v).ie (s.rangeOf c v).de (Instr.vrangessMemDisp8 c b d).length)

/-- Row 5 completes with the mask bit 1: base and index plus disp32. -/
def Obligations.MemoryDisp32FormResult : Prop :=
  ∀ (c : Common) (b : Base) (d : Dword) (s : State) (v : Dword), s.Ready c (Instr.vrangessMemDisp32 c b d).length →
    s.maskBit c.mask = true →
    s.memRead4 (s.linearAddress (baseOperand b (d.signExtend 64)) c.pre (Instr.vrangessMemDisp32 c b d).length) = some v →
    (s.alignCheck = false ∨
      (s.linearAddress (baseOperand b (d.signExtend 64)) c.pre (Instr.vrangessMemDisp32 c b d).length).toNat % 4 = 0) →
    s.unmasked (s.rangeOf c v).ie (s.rangeOf c v).de = false →
    exec (.vrangessMemDisp32 c b d) s =
      .next (s.wrote c (s.rangeOf c v).res (s.rangeOf c v).ie (s.rangeOf c v).de (Instr.vrangessMemDisp32 c b d).length)

/-! ## The instruction, every row -/

/-- 40_vrangess.md R104, the masked response: the flags are or-ed in, the result is written, no other bit of MXCSR and no bit of RFLAGS
changes, and IE and DE are never both indicated. -/
def Obligations.MaskedResponse : Prop :=
  ∀ (i : Instr) (s : State) (s2 : Dword), saeOf i = false → s.Ready i.common i.length → s.maskBit i.common.mask = true →
    readSource (sourceOf i) i.common.pre i.length s = .next s2 →
    ((s.rangeOf i.common s2).ie = false ∨ s.im = true) → ((s.rangeOf i.common s2).de = false ∨ s.dm = true) →
    ¬ ((s.rangeOf i.common s2).ie = true ∧ (s.rangeOf i.common s2).de = true) ∧
    ∃ t, exec i s = .next t ∧ t.ieFlag = (s.ieFlag || (s.rangeOf i.common s2).ie) ∧
      t.deFlag = (s.deFlag || (s.rangeOf i.common s2).de) ∧
      (∀ b, 2 ≤ b → t.mxcsr.getLsbD b = s.mxcsr.getLsbD b) ∧ t.rflags = s.rflags ∧
      low (t.xmm i.common.dest) = (s.rangeOf i.common s2).res

/-- 40_vrangess.md R105 with 60_exceptions.md R131, the unmasked response: the flag is set, nothing else changes, and #XM is raised, or #UD
when CR4.OSXMMEXCPT = 0. -/
def Obligations.UnmaskedResponse : Prop :=
  (∀ (i : Instr) (s u : State) (s2 : Dword), saeOf i = false → s.Ready i.common i.length → s.maskBit i.common.mask = true →
    readSource (sourceOf i) i.common.pre i.length s = .next s2 →
    (((s.rangeOf i.common s2).ie = true ∧ s.im = false) ∨ ((s.rangeOf i.common s2).de = true ∧ s.dm = false)) →
    u = { s with mxcsr := mxcsrWith s.mxcsr (s.rangeOf i.common s2).ie (s.rangeOf i.common s2).de } →
    (s.osxmmexcpt = true → exec i s = .fault (.xm (s.rangeOf i.common s2).ie (s.rangeOf i.common s2).de u)) ∧
    (s.osxmmexcpt = false → exec i s = .fault (.ud .osxmmexcpt u))) ∧
  (∀ (ie de : Bool) (u : State), (Fault.xm ie de u).standsFor = [.xm]) ∧
  (∀ u : State, (Fault.ud .osxmmexcpt u).standsFor = [.ud]) ∧
  ArchException.vector .xm = 19 ∧ (∀ (s : State) p rsvd pk, s.errorCode p rsvd pk .xm = none) ∧ State.reset.osxmmexcpt = true

/-- 40_vrangess.md R103: in every form that goes on, with or without a mask, whatever the mask bit, DEST[127:32] is SRC1[127:32] and the bits
above 127 are 0. -/
def Obligations.UpperBitsWritten : Prop :=
  ∀ (i : Instr) (s t : State), exec i s = .next t →
    (t.zmmAt i.common.dest).extractLsb' 32 96 = (s.zmmAt i.common.src1).extractLsb' 32 96 ∧
    (t.zmmAt i.common.dest).extractLsb' 128 384 = 0#384

/-- The frame of every form: only DEST, MXCSR.IE, MXCSR.DE and the instruction pointer can change; every byte of memory reads as before
(20_memory.md R40, 10_state.md R22, R24, R26, R28). -/
def Obligations.NextStateFrame : Prop :=
  ∀ (i : Instr) (s t : State), exec i s = .next t →
    t = { s with zmm := t.zmm, mxcsr := t.mxcsr, rip := t.rip } ∧
    (∀ r : VReg, r ≠ i.common.dest → t.zmmAt r = s.zmmAt r) ∧
    (∀ b, 2 ≤ b → t.mxcsr.getLsbD b = s.mxcsr.getLsbD b) ∧
    (∀ a, Memory.read t.mem a = Memory.read s.mem a)

/-- 10_state.md R24: what is done with MXCSR. Flags are never cleared; under `{sae}` or with the mask bit 0 none is written; no bit but DAZ, IM
and DM is read. -/
def Obligations.MxcsrUse : Prop :=
  ∀ (i : Instr) (s t : State), exec i s = .next t →
    (s.ieFlag = true → t.ieFlag = true) ∧ (s.deFlag = true → t.deFlag = true) ∧
    (∀ b, 2 ≤ b → t.mxcsr.getLsbD b = s.mxcsr.getLsbD b) ∧
    (saeOf i = true → t.mxcsr = s.mxcsr) ∧ (s.maskBit i.common.mask = false → t.mxcsr = s.mxcsr) ∧
    (∀ v : Dword, v.extractLsb' 6 3 = s.mxcsr.extractLsb' 6 3 →
      ∃ t', exec i (s.setMxcsr v) = .next t' ∧ t'.zmm = t.zmm ∧ t'.rip = t.rip)

/-- 40_vrangess.md R110: on completion the instruction pointer moves by `ilen`; on any exception it keeps the address of the instruction. -/
def Obligations.ProgramCounterRule : Prop :=
  (∀ (i : Instr) (s t : State), exec i s = .next t → t.rip = s.rip + BitVec.ofNat 64 (encode i).length) ∧
  (∀ (i : Instr) (s : State) (f : Fault), exec i s = .fault f → f.state.rip = s.rip)

/-- Faults are precise (60_exceptions.md R141, R147): the state at the fault is the state before the instruction, but for the MXCSR flags IE and
DE of an #XM or its #UD substitute, which are only set. -/
def Obligations.PreciseFaults : Prop :=
  ∀ (i : Instr) (s : State) (f : Fault), exec i s = .fault f →
    (match f with
      | .ud .osxmmexcpt t => ∃ ie de, t = { s with mxcsr := mxcsrWith s.mxcsr ie de }
      | .ud _ t => t = s
      | .nm t => t = s
      | .gp t => t = s
      | .memoryFault _ t => t = s
      | .ac _ t => t = s
      | .xm ie de t => t = { s with mxcsr := mxcsrWith s.mxcsr ie de })

/-- 40_vrangess.md R107: which form raises what. A memory fault or #AC needs a memory form and the mask bit 1; #GP is the length limit; #XM
needs CR4.OSXMMEXCPT = 1, the mask bit 1, no `{sae}`, and an SNaN input with IM = 0, or a denormal input with DAZ = 0 whose partner is not a NaN with
DM = 0. -/
def Obligations.FaultsByForm : Prop :=
  ∀ (i : Instr) (s : State) (f : Fault), exec i s = .fault f →
    (∀ la t, f = .memoryFault la t ∨ f = .ac la t → (∃ m, sourceOf i = .mem m) ∧ s.maskBit i.common.mask = true) ∧
    (∀ t, f = .gp t → 15 < i.length) ∧
    (∀ ie de t, f = .xm ie de t → saeOf i = false ∧ s.maskBit i.common.mask = true ∧ s.osxmmexcpt = true ∧
      ∃ s2, readSource (sourceOf i) i.common.pre i.length s = .next s2 ∧
        ((ie = true ∧ de = false ∧ s.im = false ∧ (isSNaN (low (s.xmm i.common.src1)) = true ∨ isSNaN s2 = true)) ∨
         (ie = false ∧ de = true ∧ s.dm = false ∧ s.daz = false ∧
           ((isDenormal (low (s.xmm i.common.src1)) = true ∧ isNaN s2 = false) ∨
            (isDenormal s2 = true ∧ isNaN (low (s.xmm i.common.src1)) = false)))))

/-- 60_exceptions.md R133: the enabling #UD conditions, for every form, before any operand is read and before #NM. The feature is AVX512DQ, or
AVX10 with version 1 or above: either suffices (10_state.md R29, 90_conflicts.md C8). -/
def Obligations.EnablingFaults : Prop :=
  (∀ c : Config, featurePresent c = true ↔
    c.cpuid7_0_ebx.getLsbD 17 = true ∨ (c.cpuid7_1_edx.getLsbD 19 = true ∧ 1 ≤ c.avx10Version.toNat)) ∧
  ∀ (i : Instr) (s : State), s.mode = .mode64 → s.ripInRange i.length = true → immAllowed s.cfg i.common.imm8 = true →
    i.wellFormed = true →
    (featurePresent s.cfg = false → exec i s = .fault (.ud .feature s)) ∧
    (featurePresent s.cfg = true → s.cr4.getLsbD 18 = false → exec i s = .fault (.ud .osxsave s)) ∧
    (featurePresent s.cfg = true → s.cr4.getLsbD 18 = true →
      (s.xcr0.extractLsb' 1 2 ≠ 0b11#2 ∨ s.xcr0.extractLsb' 5 3 ≠ 0b111#3) → exec i s = .fault (.ud .xcr0 s))

/-- 60_exceptions.md R134: #NM when CR0.TS = 1, checked after the #UD conditions; TS is clear in the default configuration. -/
def Obligations.DeviceNotAvailable : Prop :=
  (∀ (i : Instr) (s : State), s.mode = .mode64 → s.ripInRange i.length = true → immAllowed s.cfg i.common.imm8 = true →
    i.wellFormed = true → s.cr0.getLsbD 3 = true →
    ((featurePresent s.cfg = true ∧ s.osxsave = true ∧ s.xcr0Enabled = true) → exec i s = .fault (.nm s)) ∧
    (¬ (featurePresent s.cfg = true ∧ s.osxsave = true ∧ s.xcr0Enabled = true) → ∃ why, exec i s = .fault (.ud why s))) ∧
  ArchException.vector .nm = 7 ∧ (∀ (s : State) p rsvd pk, s.errorCode p rsvd pk .nm = none) ∧ State.reset.ts = false

/-- Modes other than 64-bit mode are refused by name, by the meaning and by the step (00_scope.md R4(c), 92_eei_decisions.md D2). -/
def Obligations.OtherModesRefused : Prop :=
  ∀ s : State, s.mode ≠ .mode64 →
    (∀ i : Instr, exec i s = .refused (.mode s.mode)) ∧ (s.runComplete = false → step s = .refused (.mode s.mode))

/-- 30_encoding.md R84: imm8[7:4] ≠ 0 is refused under `refuse`, and under `ignore` executes as imm8 AND 0Fh. -/
def Obligations.ImmediateHighBits : Prop :=
  (∀ (i : Instr) (s : State), s.mode = .mode64 → s.ripInRange i.length = true → i.common.imm8.extractLsb' 4 4 ≠ 0#4 →
    s.cfg.immHi = .refuse → exec i s = .refused (.immHigh i.common.imm8)) ∧
  (∀ (i : Instr) (s : State), s.cfg.immHi = .ignore → exec i s = exec (withImm (i.common.imm8 &&& 0x0F#8) i) s) ∧
  State.reset.cfg.immHi = .refuse

/-- 40_vrangess.md R92: bits of SRC1 above 127, of a register SRC2 above 31 and of DEST above 31 are never read, nor any other vector
register. -/
def Obligations.OnlyReadVectorBitsMatter : Prop :=
  ∀ (i : Instr) (s t : State) (z : Vector Zmm 32), exec i s = .next t →
    ({ s with zmm := z } : State).xmm i.common.src1 = s.xmm i.common.src1 →
    low (({ s with zmm := z } : State).xmm i.common.dest) = low (s.xmm i.common.dest) →
    (∀ r, sourceOf i = .reg r → low (({ s with zmm := z } : State).xmm r) = low (s.xmm r)) →
    ∃ t', exec i { s with zmm := z } = .next t' ∧ t'.zmmAt i.common.dest = t.zmmAt i.common.dest ∧ t'.mxcsr = t.mxcsr

/-- 10_state.md R22: only bit 0 of the selected opmask register matters, and aaa = 000b is no writemask, never k0. -/
def Obligations.OnlyMaskBitZeroMatters : Prop :=
  ∀ (i : Instr) (s t : State) (k : Vector Qword 8), exec i s = .next t →
    (i.common.mask = 0#3 ∨
      (({ s with k := k } : State).kAt i.common.mask).getLsbD 0 = (s.kAt i.common.mask).getLsbD 0) →
    exec i { s with k := k } = .next { t with k := k }

/-- 40_vrangess.md R109(c): merging into the first source with the mask bit 0 leaves its XMM as it was and clears the bits above 127. -/
def Obligations.MergingIntoFirstSource : Prop :=
  ∀ (i : Instr) (s t : State), i.common.dest = i.common.src1 → i.common.z = false → s.maskBit i.common.mask = false →
    exec i s = .next t → t.zmmAt i.common.dest = (s.xmm i.common.dest).setWidth 512

/-! ## The step -/

/-- A step runs the decoded instruction: nothing is added around `exec` (the meaning itself moves `rip`). -/
def Obligations.StepRunsDecodedInstruction : Prop :=
  ∀ (s : State) (i : Instr) (rest : List Byte), s.runComplete = false → s.onProgram = true →
    decode s.bytesAtRip = .ok i rest → step s = exec i s

/-- What a step does with bytes that are no instruction to execute (60_exceptions.md R147), with a `rip` that is not at an instruction
(70_reset_and_hazards.md R165), and at the end of the run (it stays there: the model's choice, log entry 6); an instruction at or across the
end of the canonical range is refused (10_state.md R25, D22), and one that is too long is refused for its imm8 before its length counts (30_encoding.md
R85 steps (7), (8)). -/
def Obligations.StepWithoutInstruction : Prop :=
  (∀ s : State, s.mode = .mode64 → s.runComplete = false → s.onProgram = true →
    (∀ why, decode s.bytesAtRip = .ud why → step s = .fault (.ud (.encoding why) s)) ∧
    (decode s.bytesAtRip = .refuse .notVrangess → step s = .refused .notVrangess) ∧
    (decode s.bytesAtRip = .refuse .truncated → step s = .refused .truncated) ∧
    (decode s.bytesAtRip = .refuse .vectorLength11 → step s = .refused .vectorLength11)) ∧
  (∀ s : State, s.mode = .mode64 → s.runComplete = false → s.onProgram = false → step s = .refused .notInstructionStart) ∧
  (∀ s : State, s.runComplete = true → step s = .next s) ∧
  (∀ (s : State) (i : Instr), s.mode = .mode64 → s.ripInRange i.length = false → exec i s = .refused .ripLeavesCanonical) ∧
  (∀ (s : State) (n : Nat), s.ripInRange n = true ↔
    s.rip.toNat + n < 2 ^ 64 ∧ ∀ b, (match s.cfg.paging with | .level4 => 47 | .level5 => 56) ≤ b → b < 64 →
      s.rip.getLsbD b = s.rip.getLsbD 63 ∧
      (s.rip + BitVec.ofNat 64 n).getLsbD b = (s.rip + BitVec.ofNat 64 n).getLsbD 63) ∧
  (∀ (s : State) (i : Instr), s.mode = .mode64 → s.runComplete = false → s.onProgram = true →
    decode s.bytesAtRip = .overlong i → s.ripInRange i.length = true → s.cfg.immHi = .refuse →
    i.common.imm8.extractLsb' 4 4 ≠ 0#4 → step s = .refused (.immHigh i.common.imm8))

/-- The invariant holds of the state a run starts from. -/
def Obligations.ResetSatisfiesInvariant : Prop := State.reset.Inv

/-- Every step keeps the invariant: canonical memory, vector registers within MAXVL, the reserved bits of MXCSR zero, and `rip` at an
instruction of the program or at its end: "impossible with VRANGESS alone" to be elsewhere (70_reset_and_hazards.md R165). -/
def Obligations.InvariantKept : Prop :=
  ∀ s t : State, s.Inv → step s = .next t → t.Inv

/-- Every run comes to its end: from any state of the invariant, a run of as many steps as the program has bytes has faulted, has been
refused, or has completed with `rip` one past the last instruction (70_reset_and_hazards.md R165). A run that has ended earlier is still at its end
after that many steps because a completed run stays where it is: the model's choice, log entry 6. -/
def Obligations.RunsComeToTheirEnd : Prop :=
  ∀ s t : State, s.Inv → Sys2Proof.core.run s.text.length s = .next t →
    t.runComplete = true ∧ t.rip = s.codeBase + BitVec.ofNat 64 s.text.length

/-- Whatever a program of VRANGESS does, it changes vector registers, the two flags and `rip`, and nothing else: memory, opmask and general
registers, the control state and the program are as before (20_memory.md R51, R54; 70_reset_and_hazards.md R166). -/
def Obligations.RunsKeepEverythingElse : Prop :=
  ∀ (n : Nat) (s t : State), Sys2Proof.core.run n s = .next t →
    t = { s with zmm := t.zmm, mxcsr := t.mxcsr, rip := t.rip } ∧
    (∀ b, 2 ≤ b → t.mxcsr.getLsbD b = s.mxcsr.getLsbD b) ∧ (s.ieFlag = true → t.ieFlag = true) ∧
    (s.deFlag = true → t.deFlag = true)

/-- Every program of register-form instructions placed at the state a run starts from runs to its end: nothing in it can stop (the exceptions
are masked there, 10_state.md R32). That a run starts from the registers' RESET values and in the launched state is the model's choice (log entries 1
and 2). -/
def Obligations.RegisterProgramsComplete : Prop :=
  ∀ (is : List Instr),
    (∀ i ∈ is, i.wellFormed = true ∧ i.common.imm8.extractLsb' 4 4 = 0#4 ∧ ∃ r, sourceOf i = .reg r) →
    (is.map encode).flatten.length < 2 ^ 32 →
    ∃ t, Sys2Proof.core.run is.length { State.reset with text := (is.map encode).flatten } = .next t ∧ t.runComplete = true

/-! ## The start -/

/-- 10_state.md R32: after power-up or RESET, and after INIT, the registers have the values of the table, and in neither state does any form
execute ("straight out of reset the instruction cannot execute at all"); CR4 and XCR0 alone would make it #UD. That NW and CD are bits 29 and 30 of CR0 is presumed (log entry 3), and so is INIT as this function of the
state (log entry 23). -/
def Obligations.PowerUpCannotExecute : Prop :=
  (State.powerUp.mxcsr = 0x1F80#32 ∧ State.powerUp.rip = 0xFFF0#64 ∧ State.powerUp.csBase = 0xFFFF0000#64 ∧
    State.powerUp.cr0 = 0x60000010#64 ∧ State.powerUp.cr4 = 0#64 ∧ State.powerUp.xcr0 = 1#64 ∧ State.powerUp.rflags = 2#64 ∧
    State.powerUp.cpl = 0#2 ∧ State.powerUp.mode = .real ∧ (∀ r, State.powerUp.zmmAt r = 0#512) ∧
    (∀ j, State.powerUp.kAt j = 0#64) ∧ (∀ r, r ≠ 2#4 → State.powerUp.gprAt r = 0#64) ∧
    State.powerUp.gprAt 2#4 = State.powerUp.cfg.processorSignature.setWidth 64) ∧
  (∀ (i : Instr) (t : State), exec i State.powerUp ≠ .next t) ∧
  State.powerUp.enableUd = some .osxsave ∧ State.powerUp.xcr0Enabled = false ∧
  (∀ s : State, s.afterInit.zmm = s.zmm ∧ s.afterInit.k = s.k ∧ s.afterInit.mxcsr = s.mxcsr ∧ s.afterInit.xcr0 = s.xcr0 ∧
    s.afterInit.rip = 0xFFF0#64 ∧ s.afterInit.csBase = 0xFFFF0000#64 ∧ s.afterInit.mode = .real ∧ s.afterInit.cr4 = 0#64 ∧
    s.afterInit.rflags = 2#64 ∧ s.afterInit.cpl = 0#2 ∧
    (∀ b, b < 64 → s.afterInit.cr0.getLsbD b = if b = 29 ∨ b = 30 then s.cr0.getLsbD b else (0x60000010#64).getLsbD b) ∧
    (∀ r, r ≠ 2#4 → s.afterInit.gprAt r = 0#64) ∧ s.afterInit.gprAt 2#4 = s.cfg.processorSignature.setWidth 64 ∧
    ∀ (i : Instr) (t : State), exec i s.afterInit ≠ .next t)

/-- 70_reset_and_hazards.md R161: the boot steps, from any state, give 64-bit mode and the enabling state, with #XM delivered as itself. They
are the model's launch premises (00_scope.md R5); that a run starts from the state they give is the model's choice (log entry 2). -/
def Obligations.LaunchEnables : Prop :=
  (∀ s : State, s.launch.mode = .mode64 ∧ s.launch.osxsave = true ∧ s.launch.xcr0Enabled = true ∧ s.launch.ts = false ∧
    s.launch.osxmmexcpt = true ∧ s.launch.zmm = s.zmm ∧ s.launch.k = s.k ∧ s.launch.mxcsr = s.mxcsr ∧ s.launch.gpr = s.gpr ∧
    s.launch.mem = s.mem ∧ s.launch.cfg = s.cfg) ∧
  State.reset = State.powerUp.launch

/-- 60_exceptions.md R138, R135, R136, R147: vectors, error codes and their values, what a fault stands for, what an exception records, and
#SS for a base of RSP or RBP without an FS or GS override. A #PF puts the lowest faulting byte address in CR2 and the bits of R136 in its error code;
what the translation would say (P, RSVD, PK) is whatever it is. -/
def Obligations.ArchitecturalExceptions : Prop :=
  ([ArchException.ud, .nm, .ss, .gp, .pf, .ac, .xm].map ArchException.vector = [6, 7, 12, 13, 14, 17, 19]) ∧
  (∀ (s : State) (p rsvd pk : Bool),
    s.errorCode p rsvd pk .ud = none ∧ s.errorCode p rsvd pk .nm = none ∧ s.errorCode p rsvd pk .xm = none ∧
    s.errorCode p rsvd pk .ss = some 0#32 ∧ s.errorCode p rsvd pk .gp = some 0#32 ∧ s.errorCode p rsvd pk .ac = some 0#32 ∧
    ∃ c, s.errorCode p rsvd pk .pf = some c ∧ c.getLsbD 0 = p ∧ c.getLsbD 1 = false ∧ (c.getLsbD 2 = true ↔ s.cpl = 3#2) ∧
      c.getLsbD 3 = rsvd ∧ c.getLsbD 4 = false ∧ c.getLsbD 5 = pk) ∧
  (∀ (s : State) (why : UdCause) (la : Qword) (ie de : Bool), (Fault.ud why s).standsFor = [.ud] ∧ (Fault.nm s).standsFor = [.nm] ∧
    (Fault.gp s).standsFor = [.gp] ∧ (Fault.memoryFault la s).standsFor = [.gp, .ss, .pf] ∧ (Fault.ac la s).standsFor = [.ac] ∧
    (Fault.xm ie de s).standsFor = [.xm]) ∧
  (∀ (s : State) (la : Qword), (∀ e, e ≠ .pf → s.recorded la e = s) ∧
    ∃ a, s.recorded la .pf = { s with cr2 := a } ∧
      (s.canonical4 la = true → s.memRead4 la = none → ∃ k, k < 4 ∧ a = la + BitVec.ofNat 64 k ∧
        Memory.read s.mem (la.toNat + k) = none ∧ ∀ j, j < k → Memory.read s.mem (la.toNat + j) ≠ none)) ∧
  (∀ (s : State) (m : MemOperand) (pre : List Prefix) (len : Nat),
    (s.canonical4 (s.linearAddress m pre len) = true → s.addressExceptions m pre len = [.pf]) ∧
    (s.canonical4 (s.linearAddress m pre len) = false →
      ((m.base = some 4#4 ∨ m.base = some 5#4) → Prefix.fs ∉ pre → Prefix.gs ∉ pre → s.addressExceptions m pre len = [.ss]) ∧
      ((m.base ≠ some 4#4 ∧ m.base ≠ some 5#4) → Prefix.ss ∉ pre → s.addressExceptions m pre len = [.gp]) ∧
      ((Prefix.fs ∈ pre ∨ Prefix.gs ∈ pre) → s.addressExceptions m pre len = [.gp])))
end

