-- ==== Sys2Proof/Laws/Decode.lean ====
section
/-! SUPPORT. The bytes: fields of an encoded byte, prefixes, displacements, and the stages of the decoder. -/

namespace Sys2Proof

/-! ### Fields of the bytes the encoder writes -/

@[simp] theorem extB_encodeP0 : ∀ (d : VReg) (x b : Bool), extB (encodeP0 d x b) = b := by decide
@[simp] theorem extX_encodeP0 : ∀ (d : VReg) (x b : Bool), extX (encodeP0 d x b) = x := by decide
@[simp] theorem p0Map_encodeP0 : ∀ (d : VReg) (x b : Bool), p0Map (encodeP0 d x b) = 0b11#2 := by decide
@[simp] theorem p0Reserved_encodeP0 : ∀ (d : VReg) (x b : Bool), p0Reserved (encodeP0 d x b) = 0b00#2 := by decide
@[simp] theorem p1Pp_encodeP1 : ∀ r : VReg, p1Pp (encodeP1 r) = 0b01#2 := by decide
@[simp] theorem p1W_encodeP1 : ∀ r : VReg, p1W (encodeP1 r) = false := by decide
@[simp] theorem p1Fixed_encodeP1 : ∀ r : VReg, p1Fixed (encodeP1 r) = true := by decide

theorem field76_packFields : ∀ (a : BitVec 2) (b c : BitVec 3), field76 (packFields a b c) = a := by decide
theorem field53_packFields : ∀ (a : BitVec 2) (b c : BitVec 3), field53 (packFields a b c) = b := by decide
theorem field20_packFields : ∀ (a : BitVec 2) (b c : BitVec 3), field20 (packFields a b c) = c := by decide

theorem extend_highBit_lowBits : ∀ r : Gpr, extend (highBit r) (lowBits r) = r := by decide
theorem lowBits_extend : ∀ (e : Bool) (l : BitVec 3), lowBits (extend e l) = l := by decide
theorem src2Of_regCode : ∀ r : VReg, src2Of (r.getLsbD 4) (r.getLsbD 3) (r.extractLsb' 0 3) = r := by decide

/-- P2 from its five fields. -/
def p2Byte (z b v : Bool) (mask : BitVec 3) : Byte :=
  BitVec.ofBool z ++ 0b00#2 ++ BitVec.ofBool b ++ BitVec.ofBool (!v) ++ mask

theorem encodeP2_eq (c : Common) (b : Bool) : encodeP2 c b = p2Byte c.z b (c.src1.getLsbD 4) c.mask := rfl
theorem p2Z_p2Byte : ∀ z b v k, p2Z (p2Byte z b v k) = z := by decide
theorem p2B_p2Byte : ∀ z b v k, p2B (p2Byte z b v k) = b := by decide
theorem p2LL_p2Byte : ∀ z b v k, p2LL (p2Byte z b v k) = 0b00#2 := by decide
theorem p2Mask_p2Byte : ∀ z b v k, p2Mask (p2Byte z b v k) = k := by decide
theorem src1Of_encode : ∀ (r : VReg) z b k, src1Of (encodeP1 r) (p2Byte z b (r.getLsbD 4) k) = r := by decide

theorem destOf_encode (d : VReg) (x b : Bool) (hi : BitVec 2) (lo : BitVec 3) :
    destOf (encodeP0 d x b) (packFields hi (d.extractLsb' 0 3) lo) = d := by
  have h : ∀ (d : VReg) (x b : Bool), BitVec.ofBool (!(encodeP0 d x b).getLsbD 4) ++
      BitVec.ofBool (!(encodeP0 d x b).getLsbD 7) ++ d.extractLsb' 0 3 = d := by decide
  unfold destOf
  rw [field53_packFields]
  exact h d x b

/-! ### Prefixes -/

@[simp] theorem prefixOf_prefixByte (p : Prefix) : prefixOf (prefixByte p) = some p := by cases p <;> decide

theorem prefixOf_eq_some {b : Byte} {p : Prefix} (h : prefixOf b = some p) : b = prefixByte p := by
  unfold prefixOf at h
  repeat' split at h
  all_goals first
    | cases h; done
    | (simp only [Option.some.injEq] at h; subst h; assumption)

theorem decodeFrom_prefixes (bad : Bool) (acc pre : List Prefix) (bs : List Byte) :
    decodeFrom bad acc (pre.map prefixByte ++ bs) = decodeFrom bad (acc ++ pre) bs := by
  induction pre generalizing acc with
  | nil => simp
  | cons p pre ih => simp [decodeFrom, ih]

/-- After permitted prefixes and the escape byte the payload is decoded. -/
theorem decode_prefixes_evex (pre : List Prefix) (bs : List Byte) :
    decode (pre.map prefixByte ++ 0x62#8 :: bs) = decodeEvex pre bs := by
  unfold decode
  rw [decodeFrom_prefixes]
  rfl

theorem decode_evex (bs : List Byte) : decode (0x62#8 :: bs) = decodeEvex [] bs := rfl

/-- A payload that is VRANGESS's, up to ModRM. -/
theorem decodeEvex_modrm {pre : List Prefix} {p0 p1 p2 m : Byte} {bs : List Byte} (h0 : p0Map p0 = 0b11#2)
    (h1 : p1Pp p1 = 0b01#2) (hw : p1W p1 = false) (hr : p0Reserved p0 = 0b00#2) (hf : p1Fixed p1 = true) :
    decodeEvex pre (p0 :: p1 :: p2 :: 0x51#8 :: m :: bs) = decodeModrm pre p0 p1 p2 m bs := by
  simp [decodeEvex, h0, h1, hw, hr, hf, opcodeByte]

/-! ### Displacements and third operands -/

theorem dwordOfBytes_dispBytes (d : Dword) :
    dwordOfBytes (d.extractLsb' 0 8) (d.extractLsb' 8 8) (d.extractLsb' 16 8) (d.extractLsb' 24 8) = d := by
  apply BitVec.eq_of_getLsbD_eq
  intro i hi
  simp only [dwordOfBytes, BitVec.getLsbD_append, BitVec.getLsbD_extractLsb']
  by_cases h1 : i < 8
  · simp [h1]
  · by_cases h2 : i < 16
    · simp [h1, show i - 8 < 8 by omega, show 8 + (i - 8) = i by omega]
    · by_cases h3 : i < 24
      · simp [h1, show ¬ i - 8 < 8 by omega, show i - 8 - 8 < 8 by omega, show 16 + (i - 8 - 8) = i by omega]
      · simp [h1, show ¬ i - 8 < 8 by omega, show ¬ i - 8 - 8 < 8 by omega, show i - 8 - 8 - 8 < 8 by omega,
          show 24 + (i - 8 - 8 - 8) = i by omega]

@[simp] theorem readDisp32_dispBytes (d : Dword) (rest : List Byte) : readDisp32 (dispBytes d ++ rest) = some (d, rest) := by
  simp only [dispBytes, List.cons_append, List.nil_append, readDisp32, dwordOfBytes_dispBytes]

theorem readBase_code (b : Base) (mod : BitVec 2) (disp rest : List Byte) (h : b.wellFormed = true) :
    readBase (b.code mod disp).x (b.code mod disp).b (b.code mod disp).rm ((b.code mod disp).tail ++ rest) =
      some (b, disp ++ rest) := by
  cases b with
  | reg r =>
    have h' : lowBits r ≠ 4#3 := by simpa [Base.wellFormed] using h
    simp [Base.code, readBase, h', extend_highBit_lowBits]
  | sib base index scale =>
    simp [Base.code, readBase, field20_packFields, field53_packFields, field76_packFields, extend_highBit_lowBits]

theorem readMem00_code (m : Mem00) (rest : List Byte) (h : m.wellFormed = true) :
    readMem00 m.code.x m.code.b m.code.rm (m.code.tail ++ rest) = some (m, rest) := by
  cases m with
  | reg r =>
    have h' : lowBits r ≠ 4#3 ∧ lowBits r ≠ 5#3 := by simpa [Mem00.wellFormed] using h
    simp [Mem00.code, readMem00, h'.1, h'.2, extend_highBit_lowBits]
  | ripRel d => simp [Mem00.code, readMem00]
  | sib base index scale =>
    have h' : lowBits base ≠ 5#3 := by simpa [Mem00.wellFormed] using h
    simp [Mem00.code, readMem00, field20_packFields, field53_packFields, field76_packFields, extend_highBit_lowBits, h']
  | noBase index scale d =>
    simp [Mem00.code, readMem00, field20_packFields, field53_packFields, field76_packFields, extend_highBit_lowBits]

theorem Base.code_mod (mod : BitVec 2) (disp : List Byte) (b : Base) : (b.code mod disp).mod = mod := by cases b <;> rfl
theorem Mem00.code_mod (m : Mem00) : m.code.mod = 0b00#2 := by cases m <;> rfl

/-- The decoder on what `encodeWith` writes, the third operand given by its code. -/
theorem decode_encodeWith (c : Common) (sae : Bool) (o : OperandCode) (form : Form) (rest : List Byte)
    (hc : c.wellFormed = true) (hs : sae = true → o.mod = 0b11#2)
    (ho : readForm o.x o.b o.mod o.rm (o.tail ++ c.imm8 :: rest) = some (form, c.imm8 :: rest)) :
    decode (encodeWith c sae o ++ rest) = checkLength (instrOf c sae form) rest := by
  have hz : ¬ (c.z = true ∧ c.mask = 0#3) := by
    simp only [Common.wellFormed, Bool.not_eq_true', Bool.and_eq_false_imp, beq_eq_false_iff_ne] at hc
    exact fun h => hc h.1 h.2
  have hb : ¬ (o.mod ≠ 0b11#2 ∧ sae = true) := fun h => h.1 (hs h.2)
  unfold encodeWith
  simp only [List.append_assoc, List.cons_append, List.nil_append]
  show decode (c.pre.map prefixByte ++ 0x62#8 :: _) = _
  rw [decode_prefixes_evex]
  show decodeEvex c.pre (_ :: _ :: _ :: 0x51#8 :: _ :: _) = _
  rw [decodeEvex_modrm (by simp) (by simp) (by simp) (by simp) (by simp)]
  unfold decodeModrm
  rw [if_neg (by simpa [field76_packFields, encodeP2_eq, p2B_p2Byte] using hb),
    if_neg (by simpa [encodeP2_eq, p2Z_p2Byte, p2Mask_p2Byte] using hz),
    if_neg (by simp [encodeP2_eq, p2LL_p2Byte])]
  unfold decodeTail
  simp only [extX_encodeP0, extB_encodeP0, field76_packFields, field20_packFields, ho]
  unfold commonOf
  simp only [destOf_encode, encodeP2_eq, src1Of_encode, p2Mask_p2Byte, p2Z_p2Byte, p2B_p2Byte]

/-! ### Instructions that are too long -/

/-- The stages below give `overlong` only through the length check. -/
theorem decodeModrm_overlong {pre : List Prefix} {p0 p1 p2 m : Byte} {bs : List Byte} {i : Instr}
    (h : decodeModrm pre p0 p1 p2 m bs = .overlong i) : maxLength < i.length := by
  unfold decodeModrm decodeTail checkLength at h
  repeat' split at h
  all_goals first
    | cases h; done
    | (cases h; omega)

theorem decodeEvex_overlong {pre : List Prefix} {bs : List Byte} {i : Instr} (h : decodeEvex pre bs = .overlong i) :
    maxLength < i.length := by
  unfold decodeEvex at h
  repeat' split at h
  all_goals first
    | cases h
    | exact decodeModrm_overlong h

theorem decodeFrom_overlong {bad : Bool} {pre : List Prefix} {bs : List Byte} {i : Instr}
    (h : decodeFrom bad pre bs = .overlong i) : maxLength < i.length := by
  induction bs generalizing bad pre with
  | nil => cases h
  | cons b bs ih =>
    unfold decodeFrom at h
    repeat' split at h
    all_goals first
      | cases h
      | exact ih h
      | exact decodeEvex_overlong h

/-- What the decoder calls too long is. -/
theorem decode_overlong {bs : List Byte} {i : Instr} (h : decode bs = .overlong i) : maxLength < i.length :=
  decodeFrom_overlong h

end Sys2Proof
end

