-- ==== Sys2Proof/Laws/State.lean ====
section
/-! SUPPORT. One lemma per field per update of the state, and what the accessors read after an update. -/

namespace Sys2Proof.Machine

variable (s : State)

/-! ### `setZmm` -/

@[simp] theorem State.setZmm_zmm (r : VReg) (v : Zmm) : (s.setZmm r v).zmm = s.zmm.set r.toNat v r.isLt := rfl
@[simp] theorem State.setZmm_k (r : VReg) (v : Zmm) : (s.setZmm r v).k = s.k := rfl
@[simp] theorem State.setZmm_mxcsr (r : VReg) (v : Zmm) : (s.setZmm r v).mxcsr = s.mxcsr := rfl
@[simp] theorem State.setZmm_rip (r : VReg) (v : Zmm) : (s.setZmm r v).rip = s.rip := rfl
@[simp] theorem State.setZmm_gpr (r : VReg) (v : Zmm) : (s.setZmm r v).gpr = s.gpr := rfl
@[simp] theorem State.setZmm_fsBase (r : VReg) (v : Zmm) : (s.setZmm r v).fsBase = s.fsBase := rfl
@[simp] theorem State.setZmm_gsBase (r : VReg) (v : Zmm) : (s.setZmm r v).gsBase = s.gsBase := rfl
@[simp] theorem State.setZmm_csBase (r : VReg) (v : Zmm) : (s.setZmm r v).csBase = s.csBase := rfl
@[simp] theorem State.setZmm_dsBase (r : VReg) (v : Zmm) : (s.setZmm r v).dsBase = s.dsBase := rfl
@[simp] theorem State.setZmm_esBase (r : VReg) (v : Zmm) : (s.setZmm r v).esBase = s.esBase := rfl
@[simp] theorem State.setZmm_ssBase (r : VReg) (v : Zmm) : (s.setZmm r v).ssBase = s.ssBase := rfl
@[simp] theorem State.setZmm_rflags (r : VReg) (v : Zmm) : (s.setZmm r v).rflags = s.rflags := rfl
@[simp] theorem State.setZmm_cr0 (r : VReg) (v : Zmm) : (s.setZmm r v).cr0 = s.cr0 := rfl
@[simp] theorem State.setZmm_cr2 (r : VReg) (v : Zmm) : (s.setZmm r v).cr2 = s.cr2 := rfl
@[simp] theorem State.setZmm_cr4 (r : VReg) (v : Zmm) : (s.setZmm r v).cr4 = s.cr4 := rfl
@[simp] theorem State.setZmm_xcr0 (r : VReg) (v : Zmm) : (s.setZmm r v).xcr0 = s.xcr0 := rfl
@[simp] theorem State.setZmm_efer (r : VReg) (v : Zmm) : (s.setZmm r v).efer = s.efer := rfl
@[simp] theorem State.setZmm_csL (r : VReg) (v : Zmm) : (s.setZmm r v).csL = s.csL := rfl
@[simp] theorem State.setZmm_cpl (r : VReg) (v : Zmm) : (s.setZmm r v).cpl = s.cpl := rfl
@[simp] theorem State.setZmm_mem (r : VReg) (v : Zmm) : (s.setZmm r v).mem = s.mem := rfl
@[simp] theorem State.setZmm_codeBase (r : VReg) (v : Zmm) : (s.setZmm r v).codeBase = s.codeBase := rfl
@[simp] theorem State.setZmm_text (r : VReg) (v : Zmm) : (s.setZmm r v).text = s.text := rfl
@[simp] theorem State.setZmm_cfg (r : VReg) (v : Zmm) : (s.setZmm r v).cfg = s.cfg := rfl

/-! ### `setRip` -/

@[simp] theorem State.setRip_zmm (v : Qword) : (s.setRip v).zmm = s.zmm := rfl
@[simp] theorem State.setRip_k (v : Qword) : (s.setRip v).k = s.k := rfl
@[simp] theorem State.setRip_mxcsr (v : Qword) : (s.setRip v).mxcsr = s.mxcsr := rfl
@[simp] theorem State.setRip_rip (v : Qword) : (s.setRip v).rip = v := rfl
@[simp] theorem State.setRip_gpr (v : Qword) : (s.setRip v).gpr = s.gpr := rfl
@[simp] theorem State.setRip_fsBase (v : Qword) : (s.setRip v).fsBase = s.fsBase := rfl
@[simp] theorem State.setRip_gsBase (v : Qword) : (s.setRip v).gsBase = s.gsBase := rfl
@[simp] theorem State.setRip_csBase (v : Qword) : (s.setRip v).csBase = s.csBase := rfl
@[simp] theorem State.setRip_dsBase (v : Qword) : (s.setRip v).dsBase = s.dsBase := rfl
@[simp] theorem State.setRip_esBase (v : Qword) : (s.setRip v).esBase = s.esBase := rfl
@[simp] theorem State.setRip_ssBase (v : Qword) : (s.setRip v).ssBase = s.ssBase := rfl
@[simp] theorem State.setRip_rflags (v : Qword) : (s.setRip v).rflags = s.rflags := rfl
@[simp] theorem State.setRip_cr0 (v : Qword) : (s.setRip v).cr0 = s.cr0 := rfl
@[simp] theorem State.setRip_cr2 (v : Qword) : (s.setRip v).cr2 = s.cr2 := rfl
@[simp] theorem State.setRip_cr4 (v : Qword) : (s.setRip v).cr4 = s.cr4 := rfl
@[simp] theorem State.setRip_xcr0 (v : Qword) : (s.setRip v).xcr0 = s.xcr0 := rfl
@[simp] theorem State.setRip_efer (v : Qword) : (s.setRip v).efer = s.efer := rfl
@[simp] theorem State.setRip_csL (v : Qword) : (s.setRip v).csL = s.csL := rfl
@[simp] theorem State.setRip_cpl (v : Qword) : (s.setRip v).cpl = s.cpl := rfl
@[simp] theorem State.setRip_mem (v : Qword) : (s.setRip v).mem = s.mem := rfl
@[simp] theorem State.setRip_codeBase (v : Qword) : (s.setRip v).codeBase = s.codeBase := rfl
@[simp] theorem State.setRip_text (v : Qword) : (s.setRip v).text = s.text := rfl
@[simp] theorem State.setRip_cfg (v : Qword) : (s.setRip v).cfg = s.cfg := rfl

/-! ### `setMxcsr` -/

@[simp] theorem State.setMxcsr_zmm (v : Dword) : (s.setMxcsr v).zmm = s.zmm := rfl
@[simp] theorem State.setMxcsr_k (v : Dword) : (s.setMxcsr v).k = s.k := rfl
@[simp] theorem State.setMxcsr_mxcsr (v : Dword) : (s.setMxcsr v).mxcsr = v := rfl
@[simp] theorem State.setMxcsr_rip (v : Dword) : (s.setMxcsr v).rip = s.rip := rfl
@[simp] theorem State.setMxcsr_gpr (v : Dword) : (s.setMxcsr v).gpr = s.gpr := rfl
@[simp] theorem State.setMxcsr_fsBase (v : Dword) : (s.setMxcsr v).fsBase = s.fsBase := rfl
@[simp] theorem State.setMxcsr_gsBase (v : Dword) : (s.setMxcsr v).gsBase = s.gsBase := rfl
@[simp] theorem State.setMxcsr_csBase (v : Dword) : (s.setMxcsr v).csBase = s.csBase := rfl
@[simp] theorem State.setMxcsr_dsBase (v : Dword) : (s.setMxcsr v).dsBase = s.dsBase := rfl
@[simp] theorem State.setMxcsr_esBase (v : Dword) : (s.setMxcsr v).esBase = s.esBase := rfl
@[simp] theorem State.setMxcsr_ssBase (v : Dword) : (s.setMxcsr v).ssBase = s.ssBase := rfl
@[simp] theorem State.setMxcsr_rflags (v : Dword) : (s.setMxcsr v).rflags = s.rflags := rfl
@[simp] theorem State.setMxcsr_cr0 (v : Dword) : (s.setMxcsr v).cr0 = s.cr0 := rfl
@[simp] theorem State.setMxcsr_cr2 (v : Dword) : (s.setMxcsr v).cr2 = s.cr2 := rfl
@[simp] theorem State.setMxcsr_cr4 (v : Dword) : (s.setMxcsr v).cr4 = s.cr4 := rfl
@[simp] theorem State.setMxcsr_xcr0 (v : Dword) : (s.setMxcsr v).xcr0 = s.xcr0 := rfl
@[simp] theorem State.setMxcsr_efer (v : Dword) : (s.setMxcsr v).efer = s.efer := rfl
@[simp] theorem State.setMxcsr_csL (v : Dword) : (s.setMxcsr v).csL = s.csL := rfl
@[simp] theorem State.setMxcsr_cpl (v : Dword) : (s.setMxcsr v).cpl = s.cpl := rfl
@[simp] theorem State.setMxcsr_mem (v : Dword) : (s.setMxcsr v).mem = s.mem := rfl
@[simp] theorem State.setMxcsr_codeBase (v : Dword) : (s.setMxcsr v).codeBase = s.codeBase := rfl
@[simp] theorem State.setMxcsr_text (v : Dword) : (s.setMxcsr v).text = s.text := rfl
@[simp] theorem State.setMxcsr_cfg (v : Dword) : (s.setMxcsr v).cfg = s.cfg := rfl

/-! ### `setFlags` -/

@[simp] theorem State.setFlags_zmm (ie de : Bool) : (s.setFlags ie de).zmm = s.zmm := rfl
@[simp] theorem State.setFlags_k (ie de : Bool) : (s.setFlags ie de).k = s.k := rfl
@[simp] theorem State.setFlags_mxcsr (ie de : Bool) : (s.setFlags ie de).mxcsr = s.mxcsr ||| flagBits ie de := rfl
@[simp] theorem State.setFlags_rip (ie de : Bool) : (s.setFlags ie de).rip = s.rip := rfl
@[simp] theorem State.setFlags_gpr (ie de : Bool) : (s.setFlags ie de).gpr = s.gpr := rfl
@[simp] theorem State.setFlags_fsBase (ie de : Bool) : (s.setFlags ie de).fsBase = s.fsBase := rfl
@[simp] theorem State.setFlags_gsBase (ie de : Bool) : (s.setFlags ie de).gsBase = s.gsBase := rfl
@[simp] theorem State.setFlags_csBase (ie de : Bool) : (s.setFlags ie de).csBase = s.csBase := rfl
@[simp] theorem State.setFlags_dsBase (ie de : Bool) : (s.setFlags ie de).dsBase = s.dsBase := rfl
@[simp] theorem State.setFlags_esBase (ie de : Bool) : (s.setFlags ie de).esBase = s.esBase := rfl
@[simp] theorem State.setFlags_ssBase (ie de : Bool) : (s.setFlags ie de).ssBase = s.ssBase := rfl
@[simp] theorem State.setFlags_rflags (ie de : Bool) : (s.setFlags ie de).rflags = s.rflags := rfl
@[simp] theorem State.setFlags_cr0 (ie de : Bool) : (s.setFlags ie de).cr0 = s.cr0 := rfl
@[simp] theorem State.setFlags_cr2 (ie de : Bool) : (s.setFlags ie de).cr2 = s.cr2 := rfl
@[simp] theorem State.setFlags_cr4 (ie de : Bool) : (s.setFlags ie de).cr4 = s.cr4 := rfl
@[simp] theorem State.setFlags_xcr0 (ie de : Bool) : (s.setFlags ie de).xcr0 = s.xcr0 := rfl
@[simp] theorem State.setFlags_efer (ie de : Bool) : (s.setFlags ie de).efer = s.efer := rfl
@[simp] theorem State.setFlags_csL (ie de : Bool) : (s.setFlags ie de).csL = s.csL := rfl
@[simp] theorem State.setFlags_cpl (ie de : Bool) : (s.setFlags ie de).cpl = s.cpl := rfl
@[simp] theorem State.setFlags_mem (ie de : Bool) : (s.setFlags ie de).mem = s.mem := rfl
@[simp] theorem State.setFlags_codeBase (ie de : Bool) : (s.setFlags ie de).codeBase = s.codeBase := rfl
@[simp] theorem State.setFlags_text (ie de : Bool) : (s.setFlags ie de).text = s.text := rfl
@[simp] theorem State.setFlags_cfg (ie de : Bool) : (s.setFlags ie de).cfg = s.cfg := rfl

/-! ### `complete` -/

@[simp] theorem State.complete_zmm (d : VReg) (v : Xmm) (n : Nat) : (s.complete d v n).zmm = s.zmm.set d.toNat (v.setWidth 512) d.isLt := rfl
@[simp] theorem State.complete_k (d : VReg) (v : Xmm) (n : Nat) : (s.complete d v n).k = s.k := rfl
@[simp] theorem State.complete_mxcsr (d : VReg) (v : Xmm) (n : Nat) : (s.complete d v n).mxcsr = s.mxcsr := rfl
@[simp] theorem State.complete_rip (d : VReg) (v : Xmm) (n : Nat) : (s.complete d v n).rip = s.rip + BitVec.ofNat 64 n := rfl
@[simp] theorem State.complete_gpr (d : VReg) (v : Xmm) (n : Nat) : (s.complete d v n).gpr = s.gpr := rfl
@[simp] theorem State.complete_fsBase (d : VReg) (v : Xmm) (n : Nat) : (s.complete d v n).fsBase = s.fsBase := rfl
@[simp] theorem State.complete_gsBase (d : VReg) (v : Xmm) (n : Nat) : (s.complete d v n).gsBase = s.gsBase := rfl
@[simp] theorem State.complete_csBase (d : VReg) (v : Xmm) (n : Nat) : (s.complete d v n).csBase = s.csBase := rfl
@[simp] theorem State.complete_dsBase (d : VReg) (v : Xmm) (n : Nat) : (s.complete d v n).dsBase = s.dsBase := rfl
@[simp] theorem State.complete_esBase (d : VReg) (v : Xmm) (n : Nat) : (s.complete d v n).esBase = s.esBase := rfl
@[simp] theorem State.complete_ssBase (d : VReg) (v : Xmm) (n : Nat) : (s.complete d v n).ssBase = s.ssBase := rfl
@[simp] theorem State.complete_rflags (d : VReg) (v : Xmm) (n : Nat) : (s.complete d v n).rflags = s.rflags := rfl
@[simp] theorem State.complete_cr0 (d : VReg) (v : Xmm) (n : Nat) : (s.complete d v n).cr0 = s.cr0 := rfl
@[simp] theorem State.complete_cr2 (d : VReg) (v : Xmm) (n : Nat) : (s.complete d v n).cr2 = s.cr2 := rfl
@[simp] theorem State.complete_cr4 (d : VReg) (v : Xmm) (n : Nat) : (s.complete d v n).cr4 = s.cr4 := rfl
@[simp] theorem State.complete_xcr0 (d : VReg) (v : Xmm) (n : Nat) : (s.complete d v n).xcr0 = s.xcr0 := rfl
@[simp] theorem State.complete_efer (d : VReg) (v : Xmm) (n : Nat) : (s.complete d v n).efer = s.efer := rfl
@[simp] theorem State.complete_csL (d : VReg) (v : Xmm) (n : Nat) : (s.complete d v n).csL = s.csL := rfl
@[simp] theorem State.complete_cpl (d : VReg) (v : Xmm) (n : Nat) : (s.complete d v n).cpl = s.cpl := rfl
@[simp] theorem State.complete_mem (d : VReg) (v : Xmm) (n : Nat) : (s.complete d v n).mem = s.mem := rfl
@[simp] theorem State.complete_codeBase (d : VReg) (v : Xmm) (n : Nat) : (s.complete d v n).codeBase = s.codeBase := rfl
@[simp] theorem State.complete_text (d : VReg) (v : Xmm) (n : Nat) : (s.complete d v n).text = s.text := rfl
@[simp] theorem State.complete_cfg (d : VReg) (v : Xmm) (n : Nat) : (s.complete d v n).cfg = s.cfg := rfl

/-! ### Accessors after an update -/

theorem State.zmmAt_setZmm (r r' : VReg) (v : Zmm) :
    (s.setZmm r v).zmmAt r' = if r' = r then v else s.zmmAt r' := by
  unfold State.zmmAt State.setZmm
  by_cases h : r' = r
  · subst h; simp
  · have hn : r.toNat ≠ r'.toNat := fun e => h (BitVec.eq_of_toNat_eq e.symm)
    simp [h, hn]

@[simp] theorem State.zmmAt_setRip (v : Qword) (r : VReg) : (s.setRip v).zmmAt r = s.zmmAt r := rfl
@[simp] theorem State.zmmAt_setMxcsr (v : Dword) (r : VReg) : (s.setMxcsr v).zmmAt r = s.zmmAt r := rfl
@[simp] theorem State.zmmAt_setFlags (ie de : Bool) (r : VReg) : (s.setFlags ie de).zmmAt r = s.zmmAt r := rfl

theorem State.zmmAt_complete (d r : VReg) (v : Xmm) (n : Nat) :
    (s.complete d v n).zmmAt r = if r = d then v.setWidth 512 else s.zmmAt r := by
  simp [State.complete, State.zmmAt_setZmm]

theorem State.xmm_complete_self (d : VReg) (v : Xmm) (n : Nat) : (s.complete d v n).xmm d = v := by
  simp [State.xmm, State.zmmAt_complete]

@[simp] theorem State.xmm_setFlags (ie de : Bool) (r : VReg) : (s.setFlags ie de).xmm r = s.xmm r := rfl
@[simp] theorem State.kAt_complete (d : VReg) (v : Xmm) (n : Nat) (j : BitVec 3) : (s.complete d v n).kAt j = s.kAt j := rfl
@[simp] theorem State.gprAt_complete (d : VReg) (v : Xmm) (n : Nat) (r : Gpr) : (s.complete d v n).gprAt r = s.gprAt r := rfl
@[simp] theorem State.kAt_setFlags (ie de : Bool) (j : BitVec 3) : (s.setFlags ie de).kAt j = s.kAt j := rfl
@[simp] theorem State.gprAt_setFlags (ie de : Bool) (r : Gpr) : (s.setFlags ie de).gprAt r = s.gprAt r := rfl

theorem State.setFlags_false_false : s.setFlags false false = s := by
  simp [State.setFlags, State.setMxcsr, flagBits]

theorem flagBits_lt (ie de : Bool) : (flagBits ie de).toNat < 4 := by cases ie <;> cases de <;> decide

end Sys2Proof.Machine
end

