-- ==== Sys2Proof/Laws/Ops.lean ====
section
/-! SUPPORT. What each shared operation can do, said once. -/

namespace Sys2Proof.Machine

/-! ### Sequencing -/

@[simp] theorem andThen_next {α β : Type} (a : α) (f : α → Result β) : andThen (.next a) f = f a := rfl
@[simp] theorem andThen_fault {α β : Type} (r : Fault) (f : α → Result β) : andThen (.fault r) f = .fault r := rfl
@[simp] theorem andThen_refused {α β : Type} (r : Refusal) (f : α → Result β) : andThen (.refused r) f = .refused r := rfl

/-- A sequence gives a value only through a value of its first part. -/
theorem andThen_eq_next {α β : Type} {o : Result α} {f : α → Result β} {b : β} :
    andThen o f = .next b ↔ ∃ a, o = .next a ∧ f a = .next b := by
  cases o <;> simp

/-- A sequence faults in its first part or in its second. -/
theorem andThen_eq_fault {α β : Type} {o : Result α} {f : α → Result β} {r : Fault} :
    andThen o f = .fault r ↔ o = .fault r ∨ ∃ a, o = .next a ∧ f a = .fault r := by
  cases o <;> simp

/-- A sequence refuses in its first part or in its second. -/
theorem andThen_eq_refused {α β : Type} {o : Result α} {f : α → Result β} {r : Refusal} :
    andThen o f = .refused r ↔ o = .refused r ∨ ∃ a, o = .next a ∧ f a = .refused r := by
  cases o <;> simp

/-! ### Exceptions -/

@[simp] theorem raise_ne_next {α : Type} (e : Exc) (s : State) (a : α) : raise e s ≠ .next a := by cases e <;> simp [raise]
@[simp] theorem raise_ne_refused {α : Type} (e : Exc) (s : State) (r : Refusal) : (raise e s : Result α) ≠ .refused r := by
  cases e <;> simp [raise]

/-- An exception leaves the state as it was given (R141). -/
theorem raise_state {α : Type} {e : Exc} {s : State} {f : Fault} (h : (raise e s : Result α) = .fault f) : f.state = s := by
  cases e <;> simp only [raise, Host.Outcome.fault.injEq] at h <;> subst h <;> rfl

/-! ### The gate -/

theorem enableUd_eq_none {s : State} :
    s.enableUd = none ↔ featurePresent s.cfg = true ∧ s.osxsave = true ∧ s.xcr0Enabled = true := by
  unfold State.enableUd
  cases featurePresent s.cfg <;> cases s.osxsave <;> cases s.xcr0Enabled <;> simp

/-- The gate lets through exactly what is `Ready`. -/
theorem gate_eq_next_iff {c : Common} {n : Nat} {s : State} {u : Unit} : gate c n s = .next u ↔ s.Ready c n := by
  unfold gate
  constructor
  · intro h
    split at h
    · cases h
    · split at h
      · cases h
      · split at h
        · cases h
        · split at h
          · exact absurd h (by simp)
          · split at h
            · exact absurd h (by simp)
            · split at h
              · exact absurd h (by simp)
              · rename_i hm hr hi hl hw _ hu
                split at h
                · exact absurd h (by simp)
                · rename_i ht
                  obtain ⟨hf, ho, hx⟩ := enableUd_eq_none.mp hu
                  exact ⟨by simpa using hm, hf, ho, hx, by simpa using ht, by simpa using hr, by simpa using hi, by omega,
                    by simpa using hw⟩
  · intro h
    have hl : ¬ maxLength < n := Nat.not_lt.mpr h.length
    simp [h.mode, h.rip, h.imm, h.masking, hl, enableUd_eq_none.mpr ⟨h.feature, h.osxsave, h.xcr0⟩, h.ts]

/-- A fault of the gate is raised at the state as it was. -/
theorem gate_eq_fault {c : Common} {n : Nat} {s : State} {f : Fault} (h : gate c n s = .fault f) : f.state = s := by
  unfold gate at h
  repeat' split at h
  all_goals first
    | cases h; done
    | simp only [raise, Host.Outcome.fault.injEq] at h; subst h; rfl

/-! ### The report -/

/-- The report gives a next state only when nothing is unmasked, or under `{sae}`. -/
theorem report_eq_next {ie de sae : Bool} {s t : State} :
    report ie de sae s = .next t ↔
      (sae = true ∧ t = s) ∨ (sae = false ∧ s.unmasked ie de = false ∧ t = s.setFlags ie de) := by
  rw [eq_comm (a := t), eq_comm (a := t)]
  unfold report
  cases sae <;> cases s.unmasked ie de <;> cases s.osxmmexcpt <;> simp

theorem report_ne_refused {ie de sae : Bool} {s : State} {r : Refusal} : report ie de sae s ≠ .refused r := by
  unfold report
  cases sae <;> cases s.unmasked ie de <;> cases s.osxmmexcpt <;> simp

/-- A fault of the report: the flags are set, and nothing else has changed (R105, R131). -/
theorem report_eq_fault {ie de sae : Bool} {s : State} {f : Fault} :
    report ie de sae s = .fault f ↔ sae = false ∧ s.unmasked ie de = true ∧
      f = if s.osxmmexcpt then .xm ie de (s.setFlags ie de) else .ud .osxmmexcpt (s.setFlags ie de) := by
  unfold report
  cases sae <;> cases s.unmasked ie de <;> cases s.osxmmexcpt <;> simp [raise, eq_comm]

/-! ### Segments -/

theorem segOverride_cons (p : Prefix) (rest : List Prefix) :
    segOverride (p :: rest) = (segOverride rest).or (prefixSegment p) := by
  show (match segOverride rest with | some o => some o | none => prefixSegment p) = _
  cases segOverride rest <;> rfl

/-- A later prefix wins. -/
theorem segOverride_append (a b : List Prefix) : segOverride (a ++ b) = (segOverride b).or (segOverride a) := by
  induction a with
  | nil => cases h : segOverride b <;> simp [segOverride, h]
  | cons p a ih => rw [List.cons_append, segOverride_cons, ih, segOverride_cons, Option.or_assoc]

/-- The override is one of the prefixes. -/
theorem segOverride_mem {pre : List Prefix} {o : SegOverride} (h : segOverride pre = some o) :
    (o = .fs ∧ Prefix.fs ∈ pre) ∨ (o = .gs ∧ Prefix.gs ∈ pre) := by
  induction pre with
  | nil => cases h
  | cons p a ih =>
    rw [segOverride_cons] at h
    cases ha : segOverride a with
    | some o' =>
      rw [ha] at h
      have := ih (ha.trans h)
      simp only [List.mem_cons]
      tauto
    | none =>
      rw [ha] at h
      cases p <;> cases o <;> simp_all [prefixSegment]

theorem segOverride_eq_none {pre : List Prefix} : segOverride pre = none ↔ Prefix.fs ∉ pre ∧ Prefix.gs ∉ pre := by
  induction pre with
  | nil => simp [segOverride]
  | cons p a ih =>
    rw [segOverride_cons]
    cases p <;> simp [prefixSegment, ih]

theorem misaligned_iff (la : Qword) : misaligned la = true ↔ la.toNat % 4 ≠ 0 := by
  simp only [misaligned, bne_iff_ne, ne_eq, ← BitVec.toNat_inj]
  simp

/-! ### Canonical addresses (10_state.md R30) -/

theorem extract_high_eq_zero (a : Qword) (n w : Nat) (h : n + w = 64) : a.extractLsb' n w = 0#w ↔ a.toNat < 2 ^ n := by
  rw [← BitVec.toNat_inj, BitVec.extractLsb'_toNat, Nat.shiftRight_eq_div_pow, BitVec.toNat_zero]
  have ha : a.toNat < 2 ^ n * 2 ^ w := by rw [← Nat.pow_add, h]; exact a.isLt
  rw [Nat.mod_eq_of_lt (Nat.div_lt_of_lt_mul ha), Nat.div_eq_zero_iff]
  have := Nat.two_pow_pos n
  omega

theorem extract_high_eq_ones (a : Qword) (n w : Nat) (h : n + w = 64) :
    a.extractLsb' n w = BitVec.allOnes w ↔ 2 ^ 64 - 2 ^ n ≤ a.toNat := by
  rw [← BitVec.toNat_inj, BitVec.extractLsb'_toNat, Nat.shiftRight_eq_div_pow, BitVec.toNat_allOnes]
  have e : 2 ^ 64 = 2 ^ n * 2 ^ w := by rw [← Nat.pow_add, h]
  have ha : a.toNat < 2 ^ n * 2 ^ w := e ▸ a.isLt
  have hd := Nat.div_lt_of_lt_mul ha
  rw [Nat.mod_eq_of_lt hd, e, ← Nat.mul_sub_one]
  have hw := Nat.two_pow_pos w
  constructor
  · intro h
    rw [← h]
    exact Nat.mul_div_le _ _
  · intro h
    have := (Nat.le_div_iff_mul_le (Nat.two_pow_pos n)).mpr (Nat.mul_comm .. ▸ h)
    omega

/-- The low bits of an address its paging width leaves free. -/
def pagingWidth : Paging → Nat
  | .level4 => 47
  | .level5 => 56

/-- An address is canonical when it lies in the lowest or in the highest part of the address space. -/
theorem canonical_iff {p : Paging} {a : Qword} :
    canonical p a = true ↔ a.toNat < 2 ^ pagingWidth p ∨ 2 ^ 64 - 2 ^ pagingWidth p ≤ a.toNat := by
  cases p
  · rw [show pagingWidth .level4 = 47 from rfl, ← extract_high_eq_zero a 47 17 rfl, ← extract_high_eq_ones a 47 17 rfl]
    simp [canonical]
  · rw [show pagingWidth .level5 = 56 from rfl, ← extract_high_eq_zero a 56 8 rfl, ← extract_high_eq_ones a 56 8 rfl]
    simp [canonical]

/-! ### The third operand -/

/-- The load gives a value exactly when the address is canonical, alignment checking lets it, and the four bytes are there. -/
theorem load_eq_next {s : State} {la : Qword} {v : Dword} :
    s.load la = .next v ↔ (s.alignCheck && misaligned la) = false ∧ s.memRead4 la = some v := by
  unfold State.load State.memRead4
  cases s.canonical4 la <;> cases (s.alignCheck && misaligned la) <;> simp
  cases Memory.read4 s.mem la.toNat <;> simp

theorem load_ne_refused {s : State} {la : Qword} {r : Refusal} : s.load la ≠ .refused r := by
  unfold State.load State.memRead4
  cases s.canonical4 la <;> cases (s.alignCheck && misaligned la) <;> simp
  cases Memory.read4 s.mem la.toNat <;> simp

/-- A fault of the load leaves the state as it was. -/
theorem load_eq_fault {s : State} {la : Qword} {f : Fault} (h : s.load la = .fault f) : f.state = s := by
  unfold State.load at h
  split at h
  · exact raise_state h
  · split at h
    · exact raise_state h
    · split at h
      · cases h
      · exact raise_state h

theorem readSource_reg (r : VReg) (pre : List Prefix) (n : Nat) (s : State) :
    readSource (.reg r) pre n s = .next (low (s.xmm r)) := rfl

theorem readSource_mem (m : MemOperand) (pre : List Prefix) (n : Nat) (s : State) :
    readSource (.mem m) pre n s = s.load (s.linearAddress m pre n) := rfl

theorem readSource_eq_fault {src : Source} {pre : List Prefix} {n : Nat} {s : State} {f : Fault}
    (h : readSource src pre n s = .fault f) : f.state = s := by
  cases src with
  | reg r => cases h
  | mem m => exact load_eq_fault h

theorem skipSource_ne_fault {src : Source} {pre : List Prefix} {n : Nat} {s : State} {f : Fault} :
    skipSource src pre n s ≠ .fault f := by
  unfold skipSource
  cases src with
  | reg r => simp
  | mem m =>
    cases s.cfg.faultSuppression <;> simp
    split <;> simp

/-! ### The instruction -/

/-- Everything an execution that goes on can do: it was let through, and it wrote the destination and the instruction pointer, the
flags of RangeSP only with the mask bit 1 and no `{sae}`. -/
theorem vrangess_eq_next {c : Common} {src : Source} {sae : Bool} {n : Nat} {s t : State}
    (h : vrangess c src sae n s = .next t) :
    s.Ready c n ∧
    ((s.maskBit c.mask = true ∧ ∃ s2, readSource src c.pre n s = .next s2 ∧ ∃ s',
        report (rangeSP s.cfg (low (s.xmm c.src1)) s2 (cmpOp c.imm8) (signSel c.imm8) s.daz).ie
          (rangeSP s.cfg (low (s.xmm c.src1)) s2 (cmpOp c.imm8) (signSel c.imm8) s.daz).de sae s = .next s' ∧
        t = s'.complete c.dest
          (upper (s.xmm c.src1) ++ (rangeSP s.cfg (low (s.xmm c.src1)) s2 (cmpOp c.imm8) (signSel c.imm8) s.daz).res) n) ∨
     (s.maskBit c.mask = false ∧ skipSource src c.pre n s = .next () ∧
        t = s.complete c.dest (upper (s.xmm c.src1) ++ maskedLow c s) n)) := by
  unfold vrangess at h
  obtain ⟨u, hg, h⟩ := andThen_eq_next.mp h
  refine ⟨gate_eq_next_iff.mp hg, ?_⟩
  split at h
  · rename_i hk
    obtain ⟨s2, h2, h⟩ := andThen_eq_next.mp h
    obtain ⟨s', h3, h⟩ := andThen_eq_next.mp h
    refine .inl ⟨hk, s2, h2, s', h3, ?_⟩
    simpa [eq_comm] using h
  · rename_i hk
    obtain ⟨u', h2, h⟩ := andThen_eq_next.mp h
    refine .inr ⟨by simpa using hk, h2, ?_⟩
    simpa [eq_comm] using h

/-- An execution with the mask bit 1 that the gate and the operand let through is its report. -/
theorem vrangess_of_ready {c : Common} {src : Source} {sae : Bool} {n : Nat} {s : State} {s2 : Dword}
    (hr : s.Ready c n) (hk : s.maskBit c.mask = true) (h2 : readSource src c.pre n s = .next s2) :
    vrangess c src sae n s =
      andThen (report (rangeSP s.cfg (low (s.xmm c.src1)) s2 (cmpOp c.imm8) (signSel c.imm8) s.daz).ie
        (rangeSP s.cfg (low (s.xmm c.src1)) s2 (cmpOp c.imm8) (signSel c.imm8) s.daz).de sae s) fun s' =>
        .next (s'.complete c.dest
          (upper (s.xmm c.src1) ++ (rangeSP s.cfg (low (s.xmm c.src1)) s2 (cmpOp c.imm8) (signSel c.imm8) s.daz).res) n) := by
  unfold vrangess compute
  rw [gate_eq_next_iff (u := ()) |>.mpr hr]
  simp [hk, h2]

/-- An execution with the mask bit 0 that the gate and the operand let through writes the masked low element. -/
theorem vrangess_of_masked {c : Common} {src : Source} {sae : Bool} {n : Nat} {s : State}
    (hr : s.Ready c n) (hk : s.maskBit c.mask = false) (h2 : skipSource src c.pre n s = .next ()) :
    vrangess c src sae n s = .next (s.complete c.dest (upper (s.xmm c.src1) ++ maskedLow c s) n) := by
  unfold vrangess skip
  rw [gate_eq_next_iff (u := ()) |>.mpr hr]
  simp [hk, h2]

/-- A fault leaves the state as it was, but for the MXCSR flags of an unmasked exception (R141). -/
theorem vrangess_eq_fault {c : Common} {src : Source} {sae : Bool} {n : Nat} {s : State} {f : Fault}
    (h : vrangess c src sae n s = .fault f) :
    f.state = s ∨ (sae = false ∧ ∃ ie de, s.unmasked ie de = true ∧ f.state = s.setFlags ie de) := by
  unfold vrangess at h
  rcases andThen_eq_fault.mp h with hg | ⟨u, -, h⟩
  · exact .inl (gate_eq_fault hg)
  · split at h
    · rcases andThen_eq_fault.mp h with h2 | ⟨s2, -, h⟩
      · exact .inl (readSource_eq_fault h2)
      · rcases andThen_eq_fault.mp h with h3 | ⟨s', -, h⟩
        · obtain ⟨hs, hu, rfl⟩ := report_eq_fault.mp h3
          refine .inr ⟨hs, _, _, hu, ?_⟩
          split <;> rfl
        · cases h
    · rcases andThen_eq_fault.mp h with h2 | ⟨u, -, h⟩
      · exact absurd h2 skipSource_ne_fault
      · cases h

end Sys2Proof.Machine
end

