-- ==== Sys2Proof/Laws/Exec.lean ====
section
/-! SUPPORT. `exec` is one operation over the row's operands, and what a next state of it is. -/

namespace Sys2Proof.Machine

/-- Every arm of the dispatch is the one meaning, with the row's operand, `{sae}` and length. -/
theorem exec_eq (i : Instr) (s : State) : exec i s = vrangess i.common (sourceOf i) (saeOf i) i.length s := by
  cases i <;> rfl

theorem mxcsrWith_eq (v : Dword) (ie de : Bool) : mxcsrWith v ie de = v ||| flagBits ie de := by
  unfold mxcsrWith flagBits
  rw [BitVec.or_assoc]
  congr 1
  cases ie <;> cases de <;> decide

@[simp] theorem mxcsrWith_false (v : Dword) : mxcsrWith v false false = v := by simp [mxcsrWith]

/-- The completed state, in the words of the statements. -/
theorem wrote_eq (s : State) (c : Common) (v : Dword) (ie de : Bool) (n : Nat) :
    s.wrote c v ie de n = (s.setFlags ie de).complete c.dest (upper (s.xmm c.src1) ++ v) n := by
  simp only [State.wrote, mxcsrWith_eq]
  rfl

theorem wrote_eq_complete (s : State) (c : Common) (v : Dword) (n : Nat) :
    s.wrote c v false false n = s.complete c.dest (upper (s.xmm c.src1) ++ v) n := by
  rw [wrote_eq, State.setFlags_false_false]

/-- Every next state is a `wrote`: some low element, and flags only without `{sae}` and with the mask bit 1. -/
theorem exec_eq_next {i : Instr} {s t : State} (h : exec i s = .next t) :
    s.Ready i.common i.length ∧ ∃ v ie de, t = s.wrote i.common v ie de i.length ∧
      ((saeOf i = true ∨ s.maskBit i.common.mask = false) → ie = false ∧ de = false) := by
  rw [exec_eq] at h
  obtain ⟨hr, ⟨hk, s2, -, s', h3, rfl⟩ | ⟨hk, -, rfl⟩⟩ := vrangess_eq_next h
  · refine ⟨hr, ?_⟩
    rcases report_eq_next.mp h3 with ⟨hs, rfl⟩ | ⟨hs, -, rfl⟩
    · exact ⟨_, false, false, (wrote_eq_complete ..).symm, fun _ => ⟨rfl, rfl⟩⟩
    · refine ⟨_, _, _, (wrote_eq ..).symm, fun h => ?_⟩
      rcases h with h | h <;> simp_all
  · exact ⟨hr, _, false, false, (wrote_eq_complete ..).symm, fun _ => ⟨rfl, rfl⟩⟩

/-- Completion with the mask bit 1 and no `{sae}`. -/
theorem exec_of_unmasked_false {i : Instr} {s : State} {s2 : Dword} (hs : saeOf i = false) (hr : s.Ready i.common i.length)
    (hk : s.maskBit i.common.mask = true) (h2 : readSource (sourceOf i) i.common.pre i.length s = .next s2)
    (hu : s.unmasked (s.rangeOf i.common s2).ie (s.rangeOf i.common s2).de = false) :
    exec i s = .next (s.wrote i.common (s.rangeOf i.common s2).res (s.rangeOf i.common s2).ie (s.rangeOf i.common s2).de
      i.length) := by
  rw [exec_eq, vrangess_of_ready hr hk h2]
  change andThen (report (s.rangeOf i.common s2).ie (s.rangeOf i.common s2).de (saeOf i) s) _ = _
  rw [report_eq_next.mpr (.inr ⟨hs, hu, rfl⟩), andThen_next, wrote_eq]
  rfl

/-- Completion with the mask bit 1 and `{sae}`. -/
theorem exec_of_sae {i : Instr} {s : State} {s2 : Dword} (hs : saeOf i = true) (hr : s.Ready i.common i.length)
    (hk : s.maskBit i.common.mask = true) (h2 : readSource (sourceOf i) i.common.pre i.length s = .next s2) :
    exec i s = .next (s.wrote i.common (s.rangeOf i.common s2).res false false i.length) := by
  rw [exec_eq, vrangess_of_ready hr hk h2]
  change andThen (report (s.rangeOf i.common s2).ie (s.rangeOf i.common s2).de (saeOf i) s) _ = _
  rw [report_eq_next.mpr (.inl ⟨hs, rfl⟩), andThen_next, wrote_eq_complete]
  rfl

/-- Completion with the mask bit 0. -/
theorem exec_of_masked {i : Instr} {s : State} (hr : s.Ready i.common i.length) (hk : s.maskBit i.common.mask = false)
    (h2 : skipSource (sourceOf i) i.common.pre i.length s = .next ()) :
    exec i s = .next (s.wrote i.common (maskedLow i.common s) false false i.length) := by
  rw [exec_eq, vrangess_of_masked hr hk h2, wrote_eq_complete]

/-- Exactly when an execution goes on, and to which state. -/
theorem exec_eq_next_iff {i : Instr} {s t : State} :
    exec i s = .next t ↔ s.Ready i.common i.length ∧
      ((s.maskBit i.common.mask = true ∧ ∃ s2, readSource (sourceOf i) i.common.pre i.length s = .next s2 ∧
          ((saeOf i = true ∧ t = s.wrote i.common (s.rangeOf i.common s2).res false false i.length) ∨
           (saeOf i = false ∧ s.unmasked (s.rangeOf i.common s2).ie (s.rangeOf i.common s2).de = false ∧
             t = s.wrote i.common (s.rangeOf i.common s2).res (s.rangeOf i.common s2).ie (s.rangeOf i.common s2).de
               i.length))) ∨
       (s.maskBit i.common.mask = false ∧ skipSource (sourceOf i) i.common.pre i.length s = .next () ∧
          t = s.wrote i.common (maskedLow i.common s) false false i.length)) := by
  constructor
  · intro h
    have h' := h
    rw [exec_eq] at h'
    obtain ⟨hr, ⟨hk, s2, h2, s', h3, -⟩ | ⟨hk, h2, -⟩⟩ := vrangess_eq_next h'
    · refine ⟨hr, .inl ⟨hk, s2, h2, ?_⟩⟩
      rcases report_eq_next.mp h3 with ⟨hs, -⟩ | ⟨hs, hu, -⟩
      · rw [exec_of_sae hs hr hk h2] at h
        exact .inl ⟨hs, (Host.Outcome.next.inj h).symm⟩
      · rw [exec_of_unmasked_false hs hr hk h2 hu] at h
        exact .inr ⟨hs, hu, (Host.Outcome.next.inj h).symm⟩
    · rw [exec_of_masked hr hk h2] at h
      exact ⟨hr, .inr ⟨hk, h2, (Host.Outcome.next.inj h).symm⟩⟩
  · rintro ⟨hr, ⟨hk, s2, h2, ⟨hs, rfl⟩ | ⟨hs, hu, rfl⟩⟩ | ⟨hk, h2, rfl⟩⟩
    · exact exec_of_sae hs hr hk h2
    · exact exec_of_unmasked_false hs hr hk h2 hu
    · exact exec_of_masked hr hk h2

/-- The register form of the third operand reads a vector register and can always be skipped. -/
theorem skipSource_reg (r : VReg) (pre : List Prefix) (n : Nat) (s : State) : skipSource (.reg r) pre n s = .next () := rfl

/-- When a memory operand with the mask bit 0 lets the execution go on (R49). -/
theorem skipSource_mem {m : MemOperand} {pre : List Prefix} {n : Nat} {s : State} :
    skipSource (.mem m) pre n s = .next () ↔
      s.cfg.faultSuppression = .suppress ∨ (s.memRead4 (s.linearAddress m pre n)).isSome = true := by
  unfold skipSource
  cases s.cfg.faultSuppression <;> simp [Option.isSome_iff_ne_none]

end Sys2Proof.Machine
end

