-- ==== Sys2Proof/Laws/Fetch.lean ====
section
/-! SUPPORT. The step, the fetch and runs, each said once. -/

namespace Sys2Proof.Machine

@[simp] theorem run_zero (s : State) : Sys2Proof.core.run 0 s = .next s := rfl

/-- The host's run, one step unfolded. -/
theorem coreRun_succ (M : Host.Core) (n : Nat) (s : M.State) :
    M.run (n + 1) s = (match M.step s with
      | .next s' => M.run n s'
      | .fault r => .fault r
      | .refused r => .refused r) := rfl

/-- A run is a step and the rest of the run. -/
theorem run_succ (n : Nat) (s : State) : Sys2Proof.core.run (n + 1) s = andThen (step s) (fun t => Sys2Proof.core.run n t) := by
  have h := coreRun_succ Sys2Proof.core n s
  rw [h]
  have e : Sys2Proof.core.step s = step s := rfl
  generalize Sys2Proof.core.step s = o at e
  subst e
  cases step s <;> rfl

/-- At the end of the run a step stays. -/
theorem step_of_complete {s : State} (h : s.runComplete = true) : step s = .next s := by
  unfold step
  rw [if_pos h]

/-- Before the end a step that goes on stands at an instruction of the program and executes it. -/
theorem step_eq_next {s t : State} (hr : s.runComplete = false) (h : step s = .next t) :
    s.onProgram = true ∧ ∃ i rest, decode s.bytesAtRip = .ok i rest ∧ exec i s = .next t := by
  unfold step at h
  rw [if_neg (by simp [hr])] at h
  obtain ⟨i, hf, he⟩ := andThen_eq_next.mp h
  unfold fetch at hf
  split at hf
  · cases hf
  · split at hf
    · cases hf
    · rename_i ho
      refine ⟨by simpa using ho, ?_⟩
      cases hd : decode s.bytesAtRip with
      | ok j rest =>
        rw [hd] at hf
        obtain rfl := Host.Outcome.next.inj hf
        exact ⟨_, _, rfl, he⟩
      | ud w => rw [hd] at hf; simp [verdictResult] at hf
      | overlong j =>
        rw [hd] at hf
        obtain rfl := Host.Outcome.next.inj hf
        exact absurd (exec_eq_next he).1.length (Nat.not_le.mpr (decode_overlong hd))
      | refuse w => rw [hd] at hf; cases w <;> cases hf

/-- An instruction that is too long is executed too: its gate refuses it or raises #GP. -/
theorem step_of_overlong {s : State} {i : Instr} (hm : s.mode = .mode64) (ho : s.onProgram = true) (hr : s.runComplete = false)
    (h : decode s.bytesAtRip = .overlong i) : step s = exec i s := by
  simp [step, fetch, hr, hm, ho, h, verdictResult]

/-- The start of the program is a boundary. -/
theorem onBoundary_zero (fuel : Nat) (bs : List Byte) : onBoundary fuel bs 0 = true := by cases fuel <;> rfl

theorem Instr.seven_le_length (i : Instr) : 7 ≤ i.length := by
  cases i <;> simp only [Instr.length] <;> omega

/-- How far `rip` is into the program after it has moved by `n` bytes. -/
theorem offset_add (s : State) (n : Nat) (h : s.offset + n < 2 ^ 64) :
    (s.rip + BitVec.ofNat 64 n - s.codeBase).toNat = s.offset + n := by
  have hc : s.rip + BitVec.ofNat 64 n - s.codeBase = (s.rip - s.codeBase) + BitVec.ofNat 64 n := by
    rw [BitVec.sub_eq_add_neg, BitVec.sub_eq_add_neg, BitVec.add_assoc, BitVec.add_comm (BitVec.ofNat 64 n), BitVec.add_assoc]
  rw [hc, BitVec.toNat_add]
  unfold State.offset at *
  rw [BitVec.toNat_ofNat, Nat.mod_eq_of_lt (show n < 2 ^ 64 by omega), Nat.mod_eq_of_lt h]

end Sys2Proof.Machine
end

