-- ==== Sys2Proof/Laws/Memory.lean ====
section
/-! SUPPORT. Memory: read after write, and the canonical form. -/

namespace Sys2Proof.Machine

theorem Memory.read_write (m : Memory) (a a' : Nat) (b : Byte) (h : m.Pairwise (fun c d => c.1 < d.1)) :
    Memory.read (Memory.write m a b) a' = if a = a' then some b else Memory.read m a' := by
  induction m with
  | nil => simp [Memory.write, Memory.read]
  | cons c rest ih =>
    have hr := ih (List.Pairwise.of_cons h)
    unfold Memory.write
    split
    · simp [Memory.read]
    · split
      · rename_i h1 h2
        simp only [Memory.read, ← h2]
        split <;> rfl
      · rename_i h1 h2
        simp only [Memory.read, hr]
        by_cases e : c.1 = a'
        · have : a ≠ a' := fun e' => h2 (e'.trans e.symm)
          simp [e, this]
        · simp [e]

theorem Memory.mem_write {m : Memory} {a : Nat} {b : Byte} {c : Host.Cell} (h : c ∈ Memory.write m a b) : c = (a, b) ∨ c ∈ m := by
  induction m with
  | nil => exact .inl (by simpa [Memory.write] using h)
  | cons d rest ih =>
    unfold Memory.write at h
    split at h
    · simp only [List.mem_cons] at h ⊢; tauto
    · split at h
      · simp only [List.mem_cons] at h ⊢; tauto
      · simp only [List.mem_cons] at h ⊢
        rcases h with h | h
        · exact .inr (.inl h)
        · rcases ih h with h | h
          · exact .inl h
          · exact .inr (.inr h)

/-- A write keeps the canonical form. -/
theorem Memory.wf_write {m : Memory} {a : Nat} {b : Byte} (h : Memory.wf m) (ha : a < addressSpace) :
    Memory.wf (Memory.write m a b) := by
  refine ⟨?_, fun c hc => ?_⟩
  · have hp := h.1
    clear h
    induction m with
    | nil => simp [Memory.write]
    | cons d rest ih =>
      have hd := List.pairwise_cons.mp hp
      unfold Memory.write
      split
      · rename_i h1
        refine List.pairwise_cons.mpr ⟨fun c hc => ?_, hp⟩
        rcases List.mem_cons.mp hc with rfl | hc
        · exact h1
        · exact Nat.lt_trans h1 (hd.1 c hc)
      · split
        · rename_i h1 h2
          refine List.pairwise_cons.mpr ⟨fun c hc => ?_, hd.2⟩
          simpa [h2] using hd.1 c hc
        · rename_i h1 h2
          refine List.pairwise_cons.mpr ⟨fun c hc => ?_, ih hd.2⟩
          rcases Memory.mem_write hc with rfl | hc
          · show d.1 < a
            omega
          · exact hd.1 c hc
  · rcases Memory.mem_write hc with rfl | hc
    · exact ha
    · exact h.2 c hc

/-- Writing several bytes keeps the canonical form. -/
theorem Memory.wf_writeBytes {m : Memory} {a : Nat} {bs : List Byte} (h : Memory.wf m) (ha : a + bs.length ≤ addressSpace) :
    Memory.wf (Memory.writeBytes m a bs) := by
  induction bs generalizing m a with
  | nil => exact h
  | cons b bs ih =>
    simp only [List.length_cons] at ha
    exact ih (Memory.wf_write h (by omega)) (by omega)

/-- The memory a run starts with is in its canonical form. -/
theorem reset_mem_wf : Memory.wf State.reset.mem := by
  refine ⟨List.Pairwise.nil, ?_⟩
  intro c hc
  cases hc

end Sys2Proof.Machine
end

