-- ==== Sys2Proof/Laws/PerInstr.lean ====
section
/-! SUPPORT. The family of per-instruction statements: the shape of an instruction's bytes. -/

namespace Sys2Proof.Laws.EncodeShape

open Sys2Proof

/-- The bytes of an instruction: its prefixes, 62h and the payload, with the five bytes under the match `62 03 05 00 51` and mask
`FF 0F 87 00 FF` of 30_encoding.md R78 and L'L = 00b (R86), a ModRM byte, what the operand needs, and imm8 last (R60, R69). -/
def Statement (i : Instr) : Prop :=
  ∃ (p0 p1 p2 m : Byte) (tail : List Byte),
    encode i = i.common.pre.map prefixByte ++ [0x62#8, p0, p1, p2, 0x51#8, m] ++ tail ++ [i.common.imm8] ∧
    p0 &&& 0x0F#8 = 0x03#8 ∧ p1 &&& 0x87#8 = 0x05#8 ∧ p2 &&& 0x60#8 = 0x00#8

theorem p0_fixed : ∀ (d : VReg) (x b : Bool), encodeP0 d x b &&& 0x0F#8 = 0x03#8 := by decide
theorem p1_fixed : ∀ r : VReg, encodeP1 r &&& 0x87#8 = 0x05#8 := by decide
theorem p2_fixed : ∀ z b v k, p2Byte z b v k &&& 0x60#8 = 0x00#8 := by decide

/-- What every row encodes through. -/
theorem of_encodeWith {i : Instr} (c : Common) (sae : Bool) (o : OperandCode) (hc : i.common = c)
    (he : encode i = encodeWith c sae o) : Statement i :=
  ⟨encodeP0 c.dest o.x o.b, encodeP1 c.src1, encodeP2 c sae, packFields o.mod (c.dest.extractLsb' 0 3) o.rm, o.tail,
    by rw [he, hc]; rfl, p0_fixed .., p1_fixed .., p2_fixed ..⟩

theorem vrangessReg (c : Common) (r : VReg) : Statement (.vrangessReg c r) := of_encodeWith c false _ rfl rfl
theorem vrangessRegSae (c : Common) (r : VReg) : Statement (.vrangessRegSae c r) := of_encodeWith c true _ rfl rfl
theorem vrangessMem (c : Common) (m : Mem00) : Statement (.vrangessMem c m) := of_encodeWith c false _ rfl rfl
theorem vrangessMemDisp8 (c : Common) (b : Base) (d : Byte) : Statement (.vrangessMemDisp8 c b d) :=
  of_encodeWith c false _ rfl rfl
theorem vrangessMemDisp32 (c : Common) (b : Base) (d : Dword) : Statement (.vrangessMemDisp32 c b d) :=
  of_encodeWith c false _ rfl rfl

end Sys2Proof.Laws.EncodeShape
end

