-- ==== Sys2Proof/Tests/Slice0.lean ====
section
/-! SUPPORT. Tests of this slice: ill-formed terms, decoding, single steps (expected values from 95_test_vectors.md, its row named in
each comment), and for each statement with hypotheses a witness that meets them. -/

namespace Sys2Proof.Tests

open Sys2Proof Sys2Proof.Machine

-- One theorem after another: evaluated side by side, they take more threads than the check's memory limit allows.
set_option Elab.async false

/-! ### Terms and bytes -/

/-- xmm1, xmm2, no mask. -/
def c0 : Common := ⟨[], 1#5, 2#5, 0#3, false, 5#8⟩

/-- The same with a writemask register, `{z}` and imm8. -/
def cm (mask : BitVec 3) (z : Bool) (imm8 : Byte) : Common := ⟨[], 1#5, 2#5, mask, z, imm8⟩

/-- The same with prefixes. -/
def cp (pre : List Prefix) : Common := ⟨pre, 1#5, 2#5, 0#3, false, 5#8⟩

/-! ### WellFormed: each check refuses an ill-formed term -/

theorem test_zeroing_without_mask_ill_formed : (Instr.vrangessReg (cm 0#3 true 5#8) 3#5).wellFormed = false := by decide
theorem test_base_rsp_needs_sib : (Instr.vrangessMemDisp8 c0 (.reg 4#4) 0#8).wellFormed = false := by decide
theorem test_base_r12_needs_sib : (Instr.vrangessMemDisp32 c0 (.reg 12#4) 0#32).wellFormed = false := by decide
theorem test_mod00_base_rsp_ill_formed : (Instr.vrangessMem c0 (.reg 4#4)).wellFormed = false := by decide
theorem test_mod00_base_rbp_ill_formed : (Instr.vrangessMem c0 (.reg 5#4)).wellFormed = false := by decide
theorem test_mod00_sib_base_r13_ill_formed : (Instr.vrangessMem c0 (.sib 13#4 0#4 0#2)).wellFormed = false := by decide
theorem test_sixteen_bytes_ill_formed :
    (Instr.vrangessReg (cp (List.replicate 9 .es)) 3#5).wellFormed = false := by decide
theorem test_fifteen_bytes_well_formed :
    (Instr.vrangessReg (cp (List.replicate 8 .es)) 3#5).wellFormed = true := by decide

/-! ### Decoding: words of section 2.1, written out from the encoding -/

theorem test_decode_a1 : decode [0x62#8, 0xF3#8, 0x6D#8, 0x08#8, 0x51#8, 0xCB#8, 0x03#8] =
    .ok (.vrangessReg ⟨[], 1#5, 2#5, 0#3, false, 3#8⟩ 3#5) [] := by decide
theorem test_decode_a7 : decode [0x62#8, 0x03#8, 0x0D#8, 0x00#8, 0x51#8, 0xFD#8, 0x0A#8] =
    .ok (.vrangessReg ⟨[], 31#5, 30#5, 0#3, false, 10#8⟩ 29#5) [] := by decide
theorem test_decode_a10 : decode [0x62#8, 0xB3#8, 0x05#8, 0x0A#8, 0x51#8, 0xC0#8, 0x00#8] =
    .ok (.vrangessReg ⟨[], 0#5, 15#5, 2#3, false, 0#8⟩ 16#5) [] := by decide
theorem test_decode_a4 : decode [0x62#8, 0xF3#8, 0x6D#8, 0x18#8, 0x51#8, 0xCB#8, 0x02#8] =
    .ok (.vrangessRegSae ⟨[], 1#5, 2#5, 0#3, false, 2#8⟩ 3#5) [] := by decide
theorem test_decode_a37 : decode [0x62#8, 0xF3#8, 0x6D#8, 0x78#8, 0x51#8, 0xCB#8, 0x05#8] =
    .ok (.vrangessRegSae c0 3#5) [] := by decide
theorem test_decode_a24 : decode [0x62#8, 0xD3#8, 0x6D#8, 0x08#8, 0x51#8, 0x0C#8, 0x24#8, 0x02#8] =
    .ok (.vrangessMem ⟨[], 1#5, 2#5, 0#3, false, 2#8⟩ (.sib 12#4 4#4 0#2)) [] := by decide
theorem test_decode_a29 : decode [0x62#8, 0xF3#8, 0x6D#8, 0x08#8, 0x51#8, 0x0C#8, 0xC5#8, 0x20#8, 0#8, 0#8, 0#8, 0#8] =
    .ok (.vrangessMem ⟨[], 1#5, 2#5, 0#3, false, 0#8⟩ (.noBase 0#4 3#2 0x20#32)) [] := by decide
theorem test_decode_a35_x_ignored : decode [0x62#8, 0xB3#8, 0x6D#8, 0x08#8, 0x51#8, 0x08#8, 0x05#8] =
    .ok (.vrangessMem c0 (.reg 0#4)) [] := by decide
theorem test_decode_a33 : decode [0x62#8, 0xE3#8, 0x55#8, 0x8B#8, 0x51#8, 0x64#8, 0x73#8, 0x40#8, 0x07#8] =
    .ok (.vrangessMemDisp8 ⟨[], 20#5, 5#5, 3#3, true, 7#8⟩ (.sib 3#4 6#4 1#2) 0x40#8) [] := by decide
theorem test_decode_a34 : decode [0x62#8, 0x13#8, 0x3D#8, 0x05#8, 0x51#8, 0x4C#8, 0x9A#8, 0xFE#8, 0x0E#8] =
    .ok (.vrangessMemDisp8 ⟨[], 9#5, 24#5, 5#3, false, 14#8⟩ (.sib 10#4 11#4 2#2) 0xFE#8) [] := by decide
theorem test_decode_a32 : decode [0x65#8, 0x62#8, 0xF3#8, 0x6D#8, 0x08#8, 0x51#8, 0x8A#8, 0xFC#8, 0xFF#8, 0xFF#8, 0x7F#8, 0x0F#8] =
    .ok (.vrangessMemDisp32 ⟨[.gs], 1#5, 2#5, 0#3, false, 15#8⟩ (.reg 2#4) 0x7FFFFFFC#32) [] := by decide
theorem test_decode_a16 : decode [0x62#8, 0xF3#8, 0x6D#8, 0x08#8, 0x51#8, 0x88#8, 0#8, 0x02#8, 0#8, 0#8, 0x02#8, 0x90#8] =
    .ok (.vrangessMemDisp32 ⟨[], 1#5, 2#5, 0#3, false, 2#8⟩ (.reg 0#4) 0x200#32) [0x90#8] := by decide

/-! Rows B1 to B13 of section 2.2. -/

theorem test_reject_b1 : decode [0x62#8, 0xF3#8, 0x6D#8, 0x88#8, 0x51#8, 0xCB#8, 0x05#8] = .ud .zeroingNoMask := by decide
theorem test_reject_b2 : decode [0x62#8, 0xF7#8, 0x6D#8, 0x08#8, 0x51#8, 0xCB#8, 0x05#8] = .ud .reservedP0 := by decide
theorem test_reject_b4 : decode [0x62#8, 0xF3#8, 0x69#8, 0x08#8, 0x51#8, 0xCB#8, 0x05#8] = .ud .fixedP1 := by decide
theorem test_reject_b5 : decode [0x62#8, 0xF3#8, 0x6D#8, 0x18#8, 0x51#8, 0x08#8, 0x05#8] = .ud .broadcast := by decide
theorem test_reject_b7 : decode [0x40#8, 0x62#8, 0xF3#8, 0x6D#8, 0x08#8, 0x51#8, 0xCB#8, 0x05#8] = .ud .legacyPrefix := by decide
theorem test_reject_b8 : decode [0x62#8, 0xF3#8, 0x6D#8, 0x68#8, 0x51#8, 0xCB#8, 0x05#8] = .refuse .vectorLength11 := by decide
theorem test_reject_b10 : decode [0x62#8, 0xF3#8, 0xED#8, 0x08#8, 0x51#8, 0xCB#8, 0x02#8] = .refuse .notVrangess := by decide
theorem test_reject_b11 : decode [0x62#8, 0xF3#8, 0x6C#8, 0x08#8, 0x51#8, 0xCB#8, 0x05#8] = .refuse .notVrangess := by decide
theorem test_reject_b12 : decode [0x62#8, 0xF2#8, 0x6D#8, 0x08#8, 0x51#8, 0xCB#8, 0x05#8] = .refuse .notVrangess := by decide
theorem test_reject_b13 : decode [0x62#8, 0xF3#8, 0x6D#8, 0x08#8, 0x50#8, 0xCB#8, 0x05#8] = .refuse .notVrangess := by decide

/-- The encoder writes the assembler's bytes: A6 and A21. -/
theorem test_encode_a6_a21 : encode (.vrangessReg ⟨[], 17#5, 18#5, 0#3, false, 5#8⟩ 19#5) =
      [0x62#8, 0xA3#8, 0x6D#8, 0x00#8, 0x51#8, 0xCB#8, 0x05#8] ∧
    encode (.vrangessMemDisp8 ⟨[], 1#5, 2#5, 0#3, false, 2#8⟩ (.sib 8#4 9#4 3#2) 0xFF#8) =
      [0x62#8, 0x93#8, 0x6D#8, 0x08#8, 0x51#8, 0x4C#8, 0xC8#8, 0xFF#8, 0x02#8] := by decide

/-- The displacement forms of A14, A15, A18, A22 and A25. -/
theorem test_assemble : assembleMem c0 (.reg 0#4) 6#32 = .vrangessMemDisp32 c0 (.reg 0#4) 6#32 ∧
    assembleMem c0 (.reg 0#4) 0x1FC#32 = .vrangessMemDisp8 c0 (.reg 0#4) 0x7F#8 ∧
    assembleMem c0 (.reg 0#4) 0xFFFFFDFC#32 = .vrangessMemDisp32 c0 (.reg 0#4) 0xFFFFFDFC#32 ∧
    assembleMem c0 (.reg 5#4) 0#32 = .vrangessMemDisp8 c0 (.reg 5#4) 0#8 ∧
    assembleMem c0 (.sib 4#4 4#4 0#2) 0#32 = .vrangessMem c0 (.sib 4#4 4#4 0#2) := by decide

/-- The match words of the five rows of the opcode table, least significant byte first. -/
theorem test_table_words : decodeTableWord 56 0xC05100050362 = some (.vrangessReg ⟨[], 24#5, 31#5, 0#3, false, 0#8⟩ 24#5) ∧
    decodeTableWord 56 0xC05110050362 = some (.vrangessRegSae ⟨[], 24#5, 31#5, 0#3, false, 0#8⟩ 24#5) ∧
    decodeTableWord 48 0x005100050362 = some (.vrangessMem ⟨[], 24#5, 31#5, 0#3, false, 0#8⟩ (.reg 8#4)) ∧
    decodeTableWord 48 0x405100050362 = some (.vrangessMemDisp8 ⟨[], 24#5, 31#5, 0#3, false, 0#8⟩ (.reg 8#4) 0#8) ∧
    decodeTableWord 48 0x805100050362 = some (.vrangessMemDisp32 ⟨[], 24#5, 31#5, 0#3, false, 0#8⟩ (.reg 8#4) 0#32) := by decide

/-! ### States -/

/-- Four dwords, dword 0 first. -/
def dwords (d0 d1 d2 d3 : Dword) : Xmm := d3 ++ d2 ++ d1 ++ d0

/-- The start of sections 2.6 to 2.8: ZMM1 all 0xA5 bytes above D0D00000, XMM2 = [s1, 11111111, 22222222, 33333333], XMM3 low = s2, the upper
bits of both set, RAX = 20000h, the bytes 00 to 07 at 20000h, k1 and MXCSR given. -/
def start (s1 s2 : Dword) (k1 : Qword) (mxcsr : Dword) : State :=
  { State.reset with
    zmm := (((Vector.replicate 32 0#512).set 1 ((0xA5A5A5A5A5A5A5A5#64).setWidth 480 ++ 0xD0D00000#32)).set 2
      ((0x5555555555555555#64).setWidth 384 ++ dwords s1 0x11111111#32 0x22222222#32 0x33333333#32)).set 3
      ((0x6666666666666666#64).setWidth 480 ++ s2)
    k := (Vector.replicate 8 0#64).set 1 k1
    mxcsr := mxcsr
    gpr := (Vector.replicate 16 0#64).set 0 0x20000#64
    mem := [(0x20000, 0x00#8), (0x20001, 0x01#8), (0x20002, 0x02#8), (0x20003, 0x03#8), (0x20004, 0x04#8), (0x20005, 0x05#8),
      (0x20006, 0x06#8), (0x20007, 0x07#8)]
    rip := 0x1000#64
    codeBase := 0x1000#64 }

/-- DEST, MXCSR and how far `rip` moved, of a next state. -/
def after (o : Result State) : Option (Zmm × Dword × Qword) :=
  match o with
  | .next t => some (t.zmmAt 1#5, t.mxcsr, t.rip - 0x1000#64)
  | .fault _ => none
  | .refused _ => none

/-- The same of the state at a fault, with the exceptions it stands for. -/
def atFault (o : Result State) : Option (List ArchException × Zmm × Dword × Qword) :=
  match o with
  | .fault f => some (f.standsFor, f.state.zmmAt 1#5, f.state.mxcsr, f.state.rip - 0x1000#64)
  | .next _ => none
  | .refused _ => none

/-- A refusal's reason. -/
def refusal (o : Result State) : Option Refusal :=
  match o with
  | .refused r => some r
  | .next _ => none
  | .fault _ => none

/-- What DEST holds with a low element: SRC1's upper dwords above it, then zeros. -/
def dest (lo : Dword) : Zmm := (dwords lo 0x11111111#32 0x22222222#32 0x33333333#32).setWidth 512

/-! ### One execution -/

/-- M1. -/
theorem test_m1_merging : after (exec (.vrangessReg (cm 1#3 false 5#8) 3#5) (start 0x3F800000#32 0xC0000000#32 0xFFFE#64 0x1F80#32)) =
    some (dest 0xD0D00000#32, 0x1F80#32, 7#64) := by decide +kernel

/-- M7. -/
theorem test_m7_zeroing_computes : after (exec (.vrangessReg (cm 1#3 true 5#8) 3#5) (start 0x7F800001#32 0xC0000000#32 1#64 0x1F80#32)) =
    some (dest 0x7FC00001#32, 0x1F81#32, 7#64) := by decide +kernel

/-- F9. -/
theorem test_f9_sae : after (exec (.vrangessRegSae c0 3#5) (start 0x7F800001#32 0xC0000000#32 0#64 0x1E00#32)) =
    some (dest 0x7FC00001#32, 0x1E00#32, 7#64) := by decide +kernel

/-- F6: the whole of DEST is unchanged. -/
theorem test_f6_unmasked_invalid : atFault (exec (.vrangessReg c0 3#5) (start 0x7F800001#32 0xC0000000#32 0#64 0x1F00#32)) =
    some ([.xm], (start 0x7F800001#32 0xC0000000#32 0#64 0x1F00#32).zmmAt 1#5, 0x1F01#32, 0#64) := by decide +kernel

/-- F8. -/
theorem test_f8_daz_hides_denormal : after (exec (.vrangessRegSae c0 3#5) (start 0x00000001#32 0xC0000000#32 0#64 0x1EC0#32)) =
    some (dest 0x00000000#32, 0x1EC0#32, 7#64) := by decide +kernel

/-- L1, and L2 (`mod = 00b`). -/
theorem test_l1_memory : after (exec (.vrangessMem (cm 0#3 false 4#8) (.reg 0#4)) (start 0x7F7FFFFF#32 0#32 0#64 0x1F80#32)) =
    some (dest 0x03020100#32, 0x1F80#32, 7#64) := by decide +kernel
theorem test_l2_misaligned : after (exec (.vrangessMem (cm 0#3 false 4#8) (.ripRel 0x1EFF6#32))
      (start 0x7F7FFFFF#32 0#32 0#64 0x1F80#32)) = some (dest 0x04030201#32, 0x1F80#32, 11#64) := by decide +kernel

/-- L3. -/
theorem test_l3_disp8 : after (exec (.vrangessMemDisp8 (cm 0#3 false 4#8) (.reg 0#4) 1#8) (start 0x7F7FFFFF#32 0#32 0#64 0x1F80#32)) =
    some (dest 0x07060504#32, 0x1F80#32, 8#64) := by decide +kernel

/-- L3's address by disp32, and L4. -/
theorem test_disp32 : after (exec (.vrangessMemDisp32 (cm 0#3 false 4#8) (.reg 0#4) 4#32) (start 0x7F7FFFFF#32 0#32 0#64 0x1F80#32)) =
    some (dest 0x07060504#32, 0x1F80#32, 11#64) := by decide +kernel

/-- L7 under `conservative`. -/
theorem test_l7_masked_off : refusal (exec (.vrangessMemDisp32 (cm 1#3 false 4#8) (.reg 1#4) 0x10#32)
    (start 0x7F7FFFFF#32 0#32 0#64 0x1F80#32)) = some (.maskedOffUnreadable 0x10#64) := by decide +kernel

/-! ### One step -/

/-- P1's instruction, loaded as a table word, runs from the state a run starts from. -/
theorem test_step_runs_the_table_word :
    (match step (State.reset.withFetchWord 56 0x02CB51086DF362) with
      | .next t => t.rip - State.reset.rip == 7#64
      | _ => false) = true := by decide +kernel

/-- B10 in the program text: not VRANGESS. -/
theorem test_step_refuses_vrangesd : refusal (step (State.reset.withFetchWord 56 0x02CB5108EDF362)) = some .notVrangess := by
  decide +kernel

/-! ### Witnesses: for each statement with hypotheses, what meets them -/

/-- An outcome that goes on. -/
def goesOn (o : Result State) : Bool :=
  match o with
  | .next _ => true
  | .fault _ => false
  | .refused _ => false

theorem exists_next {o : Result State} (h : goesOn o = true) : ∃ t, o = .next t := by
  cases o with
  | next t => exact ⟨t, rfl⟩
  | fault f => cases h
  | refused r => cases h

/-- What a fault stands for, and the constructor's own data. -/
def faultOf (o : Result State) : Option (List ArchException × Bool × Bool) :=
  match o with
  | .fault (.xm ie de _) => some ([.xm], ie, de)
  | .fault f => some (f.standsFor, false, false)
  | .next _ => none
  | .refused _ => none

theorem exists_fault {o : Result State} (h : (faultOf o).isSome = true) : ∃ f, o = .fault f := by
  cases o with
  | next t => cases h
  | fault f => exact ⟨f, rfl⟩
  | refused r => cases h

theorem exists_ac {o : Result State} (h : faultOf o = some ([.ac], false, false)) : ∃ la t, o = .fault (.ac la t) := by
  rcases o with t | f | r
  · cases h
  · cases f <;> first | exact ⟨_, _, rfl⟩ | cases h
  · cases h

theorem exists_gp {o : Result State} (h : faultOf o = some ([.gp], false, false)) : ∃ t, o = .fault (.gp t) := by
  rcases o with t | f | r
  · cases h
  · cases f <;> first | exact ⟨_, rfl⟩ | cases h
  · cases h

theorem exists_xm {o : Result State} {ie de : Bool} (h : faultOf o = some ([.xm], ie, de)) : ∃ ie de t, o = .fault (.xm ie de t) := by
  rcases o with t | f | r
  · cases h
  · cases f <;> first | exact ⟨_, _, _, rfl⟩ | cases h
  · cases h

/-- `Ready`, from one decidable conjunction. -/
theorem ready {s : State} {c : Common} {n : Nat}
    (h : s.mode = .mode64 ∧ featurePresent s.cfg = true ∧ s.osxsave = true ∧ s.xcr0Enabled = true ∧ s.ts = false ∧
      s.ripInRange n = true ∧ immAllowed s.cfg c.imm8 = true ∧ n ≤ maxLength ∧ c.wellFormed = true) : s.Ready c n := by
  obtain ⟨a, b, c, d, e, f, g, h, i⟩ := h
  exact ⟨a, b, c, d, e, f, g, h, i⟩

/-- 1.0 and -2.0, k1 = 1, all exceptions masked. -/
def s0 : State := start 0x3F800000#32 0xC0000000#32 1#64 0x1F80#32

/-- The same with k1 = 0. -/
def sk : State := { s0 with k := Vector.replicate 8 0#64 }

/-- The register form, plain and with k1. -/
def iReg : Instr := .vrangessReg c0 3#5
def iRegK : Instr := .vrangessReg (cm 1#3 false 5#8) 3#5

/-- Memory forms at RAX, the second with k1. -/
def iMem : Instr := .vrangessMem c0 (.reg 0#4)
def iMemK : Instr := .vrangessMem (cm 1#3 false 5#8) (.reg 0#4)

/-- Sixteen bytes with imm8 = F5h: the imm8 policy comes before the length (30_encoding.md R85 steps (7), (8)). -/
theorem test_step_overlong_imm_high :
    refusal (step { s0 with text := encode (.vrangessReg ⟨List.replicate 9 .ds, 1#5, 2#5, 0#3, false, 0xF5#8⟩ 3#5) }) =
      some (.immHigh 0xF5#8) := by decide +kernel

/-- The base form of the operand at `[reg]`. -/
def atReg (r : Gpr) : MemOperand := mem00Operand (.reg r)

/-- Every row at the length limit, or at its longest. -/
theorem witness_DecodeInvertsEncode :
    (Instr.vrangessReg (cp (List.replicate 8 .gs)) 31#5).wellFormed = true ∧
    (Instr.vrangessRegSae ⟨[], 31#5, 31#5, 7#3, true, 0xFF#8⟩ 31#5).wellFormed = true ∧
    (Instr.vrangessMem (cp [.fs, .addr32, .ss]) (.noBase 15#4 3#2 0xFFFFFFFF#32)).wellFormed = true ∧
    (Instr.vrangessMemDisp8 (cp (List.replicate 6 .ds)) (.sib 15#4 4#4 3#2) 0x80#8).wellFormed = true ∧
    (Instr.vrangessMemDisp32 (cp [.es, .cs, .addr32]) (.sib 13#4 15#4 3#2) 0x80000000#32).wellFormed = true := by decide

theorem witness_DecodedTermsAreWellFormed : ∃ i rest,
    decode [0x62#8, 0x93#8, 0x6D#8, 0x08#8, 0x51#8, 0x4C#8, 0xC8#8, 0xFF#8, 0x02#8, 0x62#8] = .ok i rest :=
  ⟨.vrangessMemDisp8 ⟨[], 1#5, 2#5, 0#3, false, 2#8⟩ (.sib 8#4 9#4 3#2) 0xFF#8, [0x62#8], by decide⟩

/-- b = 0 with `{k1}{z}` and L'L = 10b; b = 1 with L'L = 11b. -/
theorem witness_RegisterFieldsDecode : ∀ p2 : Byte, p2 = 0xC1#8 ∨ p2 = 0x78#8 →
    (0x03#8).extractLsb' 0 4 = 0b0011#4 ∧ (0x05#8).getLsbD 7 = false ∧ (0x05#8).extractLsb' 0 3 = 0b101#3 ∧
    (0xC0#8).extractLsb' 6 2 = 0b11#2 ∧ ¬ (p2.getLsbD 7 = true ∧ p2.extractLsb' 0 3 = 0#3) ∧
    ¬ (p2.getLsbD 4 = false ∧ p2.extractLsb' 5 2 = 0b11#2) := by decide

/-- The common hypotheses, and a ModRM (and SIB) byte for each of the eight clauses. -/
theorem witness_MemoryFieldsDecode :
    ((0x93#8).extractLsb' 0 4 = 0b0011#4 ∧ (0x6D#8).getLsbD 7 = false ∧ (0x6D#8).extractLsb' 0 3 = 0b101#3 ∧
      ¬ ((0x89#8).getLsbD 7 = true ∧ (0x89#8).extractLsb' 0 3 = 0#3) ∧ (0x89#8).getLsbD 4 = false ∧
      (0x89#8).extractLsb' 5 2 ≠ 0b11#2) ∧
    ((0x0E#8).extractLsb' 6 2 = 0b00#2 ∧ (0x0E#8).extractLsb' 0 3 ≠ 0b100#3 ∧ (0x0E#8).extractLsb' 0 3 ≠ 0b101#3) ∧
    ((0x0D#8).extractLsb' 6 2 = 0b00#2 ∧ (0x0D#8).extractLsb' 0 3 = 0b101#3) ∧
    ((0x0C#8).extractLsb' 6 2 = 0b00#2 ∧ (0x0C#8).extractLsb' 0 3 = 0b100#3 ∧ (0x24#8).extractLsb' 0 3 ≠ 0b101#3 ∧
      (0x25#8).extractLsb' 0 3 = 0b101#3) ∧
    ((0x4D#8).extractLsb' 6 2 = 0b01#2 ∧ (0x4D#8).extractLsb' 0 3 ≠ 0b100#3) ∧
    ((0x4C#8).extractLsb' 6 2 = 0b01#2 ∧ (0x4C#8).extractLsb' 0 3 = 0b100#3) ∧
    ((0x88#8).extractLsb' 6 2 = 0b10#2 ∧ (0x88#8).extractLsb' 0 3 ≠ 0b100#3) ∧
    ((0x8C#8).extractLsb' 6 2 = 0b10#2 ∧ (0x8C#8).extractLsb' 0 3 = 0b100#3) := by decide

/-- Clause by clause: P2 = 08h and 48h; 78h and 18h; 68h; a ModRM with mod = 10b and rm = 111b; the two with no base. -/
theorem witness_IgnoredEncodingBits :
    (0x08#8 &&& 0x9F#8 = 0x48#8 &&& 0x9F#8 ∧ (0x08#8).extractLsb' 5 2 ≠ 0b11#2 ∧ (0x48#8).extractLsb' 5 2 ≠ 0b11#2) ∧
    (0x78#8 &&& 0x9F#8 = 0x18#8 &&& 0x9F#8 ∧ (0x78#8).getLsbD 4 = true ∧ (0x18#8).getLsbD 4 = true) ∧
    ((0xF3#8).extractLsb' 0 4 = 0b0011#4 ∧ (0x6D#8).getLsbD 7 = false ∧ (0x6D#8).extractLsb' 0 3 = 0b101#3 ∧
      ¬ ((0x68#8).getLsbD 7 = true ∧ (0x68#8).extractLsb' 0 3 = 0#3) ∧ (0x68#8).getLsbD 4 = false ∧
      (0x68#8).extractLsb' 5 2 = 0b11#2) ∧
    ((0x87#8).extractLsb' 6 2 ≠ 0b11#2 ∧ (0x87#8).extractLsb' 0 3 ≠ 0b100#3) ∧
    ((0x0D#8).extractLsb' 6 2 = 0b00#2 ∧ (0x0D#8).extractLsb' 0 3 = 0b101#3) ∧
    ((0x0C#8).extractLsb' 6 2 = 0b00#2 ∧ (0x0C#8).extractLsb' 0 3 = 0b100#3 ∧ (0x25#8).extractLsb' 0 3 = 0b101#3) := by decide

/-- B2, B4, B5, B1 and B6. -/
theorem witness_InvalidEncodingsAreUd :
    ((0xF7#8).extractLsb' 0 2 = 0b11#2 ∧ (0x6D#8).extractLsb' 0 2 = 0b01#2 ∧ (0x6D#8).getLsbD 7 = false ∧
      (0xF7#8).extractLsb' 2 2 ≠ 0b00#2) ∧
    ((0xF3#8).extractLsb' 0 2 = 0b11#2 ∧ (0x69#8).extractLsb' 0 2 = 0b01#2 ∧ (0x69#8).getLsbD 7 = false ∧
      (0xF3#8).extractLsb' 2 2 = 0b00#2 ∧ (0x69#8).getLsbD 2 = false) ∧
    ((0x6D#8).getLsbD 2 = true ∧ (0x08#8).extractLsb' 6 2 ≠ 0b11#2 ∧ (0x18#8).getLsbD 4 = true) ∧
    ((0xCB#8).extractLsb' 6 2 = 0b11#2 ∧ (0x88#8).getLsbD 7 = true ∧ (0x88#8).extractLsb' 0 3 = 0#3) ∧
    (0x4F#8).extractLsb' 4 4 = 0x4#4 := by decide

/-- B12, B11, B10, B13 and a byte that starts another instruction. -/
theorem witness_OtherInstructionsAreNotDecoded :
    (0xF2#8).extractLsb' 0 2 ≠ 0b11#2 ∧ (0x6C#8).extractLsb' 0 2 ≠ 0b01#2 ∧ (0xED#8).getLsbD 7 = true ∧
    ((0xF3#8).extractLsb' 0 4 = 0b0011#4 ∧ (0x6D#8).getLsbD 7 = false ∧ (0x6D#8).extractLsb' 0 3 = 0b101#3 ∧ 0x50#8 ≠ 0x51#8) ∧
    (prefixOf 0xC4#8 = none ∧ forbiddenPrefix 0xC4#8 = false ∧ 0xC4#8 ≠ 0x62#8) := by decide

/-- Nine redundant prefixes: the term, and the same bytes as a program. -/
theorem witness_InstructionLengths :
    ((Instr.vrangessReg (cp (List.replicate 9 .ds)) 3#5).common.wellFormed = true ∧
      (Instr.vrangessReg (cp (List.replicate 9 .ds)) 3#5).operandWellFormed = true ∧
      15 < (Instr.vrangessReg (cp (List.replicate 9 .ds)) 3#5).length) ∧
    (∃ s : State, s.mode = .mode64 ∧ s.onProgram = true ∧ s.runComplete = false ∧
      decode s.bytesAtRip = .overlong (.vrangessReg (cp (List.replicate 9 .ds)) 3#5) ∧ s.ripInRange 16 = true ∧
      immAllowed s.cfg 5#8 = true) :=
  ⟨by decide, { s0 with text := encode (.vrangessReg (cp (List.replicate 9 .ds)) 3#5) }, by decide +kernel⟩

theorem witness_CompressedDisplacement :
    disp8Fits 6#32 = false ∧ disp8Fits 0x200#32 = false ∧ disp8Fits 0xFFFFFDFC#32 = false ∧
    disp8Fits 0x1FC#32 = true ∧ disp8Fits 0xFFFFFE00#32 = true := by decide

/-- Index 0100b and another. -/
theorem witness_EffectiveAddressRows :
    (Prefix.addr32 ∉ [Prefix.fs] ∧ 0#64 = (if (4#4 : Gpr) = 0b0100#4 then 0#64 else s0.gprAt 4#4 <<< (3#2).toNat)) ∧
    (Prefix.addr32 ∉ [Prefix.fs] ∧ s0.gprAt 12#4 <<< (3#2).toNat =
      (if (12#4 : Gpr) = 0b0100#4 then 0#64 else s0.gprAt 12#4 <<< (3#2).toNat)) := by decide +kernel

theorem witness_RipRelativeAddress : ({ s0 with rip := 0x72#64 } : State).rip = 0x72#64 ∧ c0.pre = [] := by decide +kernel

/-- The clauses, in their order. -/
theorem witness_LinearAddressSegments :
    (Prefix.fs ∉ [Prefix.ss] ∧ Prefix.gs ∉ [Prefix.ss]) ∧ (Prefix.fs ∈ [Prefix.ds, .fs] ∧ Prefix.gs ∉ [Prefix.ds, .fs]) ∧
    (Prefix.gs ∈ [Prefix.gs, .cs] ∧ Prefix.fs ∉ [Prefix.gs, .cs]) ∧ Prefix.addr32 ∈ [Prefix.addr32] := by decide

theorem witness_OtherSegmentBasesIgnored : ∃ t, exec iMem s0 = .next t := exists_next (by decide +kernel)

theorem witness_LittleEndianBytes :
    (s0.canonical4 0x20001#64 = true ∧ Memory.read s0.mem (0x20001#64).toNat = some 1#8 ∧
      Memory.read s0.mem ((0x20001#64).toNat + 1) = some 2#8 ∧ Memory.read s0.mem ((0x20001#64).toNat + 2) = some 3#8 ∧
      Memory.read s0.mem ((0x20001#64).toNat + 3) = some 4#8) ∧
    (Memory.wf s0.mem ∧ 0xFFFFFFFFFFFFFFFC + 3 < addressSpace) := by decide +kernel

/-- `ALIGN_CHECK` on, at CPL 3. -/
def sac (rax : Qword) : State :=
  { s0 with cr0 := s0.cr0 ||| 0x40000#64, rflags := 0x40002#64, cpl := 3#2, gpr := (Vector.replicate 16 0#64).set 0 rax }

theorem witness_AlignmentCheckFault :
    ((sac 0x20001#64).Ready iMem.common iMem.length ∧ sourceOf iMem = .mem (atReg 0#4) ∧
      (sac 0x20001#64).maskBit iMem.common.mask = true ∧
      (sac 0x20001#64).canonical4 ((sac 0x20001#64).operandAddress iMem (atReg 0#4)) = true ∧
      (sac 0x20001#64).am = true ∧ (sac 0x20001#64).acFlag = true ∧ (sac 0x20001#64).cpl = 3#2 ∧
      ((sac 0x20001#64).operandAddress iMem (atReg 0#4)).toNat % 4 ≠ 0) ∧
    ∃ la t, exec iMem (sac 0x20001#64) = .fault (.ac la t) :=
  ⟨⟨ready (by decide +kernel), by decide +kernel⟩, exists_ac (by decide +kernel)⟩

/-- Four present bytes but one (L4); an address that is not canonical; alignment checking on, aligned, absent. -/
theorem witness_UnreadableOperandFaults :
    (∀ rax, rax = 0x20005#64 ∨ rax = 0x8000000000000000#64 →
      ({ s0 with gpr := (Vector.replicate 16 0#64).set 0 rax } : State).mode = .mode64 ∧
      ({ s0 with gpr := (Vector.replicate 16 0#64).set 0 rax } : State).alignCheck = false) ∧
    (sac 0x20008#64).Ready iMem.common iMem.length ∧ sourceOf iMem = .mem (atReg 0#4) ∧
    (sac 0x20008#64).maskBit iMem.common.mask = true ∧
    ((sac 0x20008#64).operandAddress iMem (atReg 0#4)).toNat % 4 = 0 ∧
    Memory.read (sac 0x20008#64).mem (((sac 0x20008#64).operandAddress iMem (atReg 0#4)).toNat + 0) = none ∧
    (sac 0x8000000000000001#64).canonical4 ((sac 0x8000000000000001#64).operandAddress iMem (atReg 0#4)) = false ∧
    Memory.read (sac 0x20005#64).mem (((sac 0x20005#64).operandAddress iMem (atReg 0#4)).toNat + 3) = none := by
  refine ⟨?_, ready (by decide +kernel), by decide +kernel⟩
  rintro rax (rfl | rfl) <;> decide +kernel

/-- The operand readable; unreadable under `suppress`; unreadable under `conservative`. -/
theorem witness_MaskedOffMemoryOperand :
    (sk.Ready iMemK.common iMemK.length ∧ sourceOf iMemK = .mem (atReg 0#4) ∧ sk.maskBit iMemK.common.mask = false ∧
      sk.memRead4 (sk.operandAddress iMemK (atReg 0#4)) ≠ none) ∧
    ({ sk with cfg := { sk.cfg with faultSuppression := .suppress } } : State).cfg.faultSuppression = .suppress ∧
    ({ sk with mem := [] } : State).cfg.faultSuppression = .conservative ∧
    ({ sk with mem := [] } : State).memRead4 (sk.operandAddress iMemK (atReg 0#4)) = none :=
  ⟨⟨ready (by decide +kernel), by decide +kernel⟩, by decide +kernel⟩

theorem witness_SignallingNanReturns :
    isSNaN 0x7F800001#32 = true ∧ (isSNaN 0x7FC00000#32 = false ∧ isSNaN 0xFFBFFFFF#32 = true) ∧
    (isSNaN 0x7FC00000#32 = false ∧ isSNaN 0x00000001#32 = false) := by decide

theorem witness_DenormalInputsHandled :
    Config.default.daz = .replace ∧ isSNaN 0x807FFFFF#32 = false ∧ isSNaN 0x00000001#32 = false ∧
    isDenormal 0x807FFFFF#32 = true ∧ isDenormal 0x00000001#32 = true ∧ isDenormal 0x00800000#32 = false := by decide

theorem witness_LiteralDazReading : ({ Config.default with daz := .literal } : Config).daz = .literal := by decide

theorem witness_OppositeZerosTable :
    ((0x00000000#32 : Dword) = 0x00000000#32 ∧ (0x80000000#32 : Dword) = 0x80000000#32) := by decide

/-- 2.0 and -2.0, the two infinities, the smallest denormals. -/
theorem witness_EqualMagnitudeTable : ∀ a : Dword, a = 0x40000000#32 ∨ a = 0x7F800000#32 ∨ a = 0x00000001#32 →
    isNaN a = false ∧ magnitude a ≠ 0#31 ∧ magnitude a = magnitude (a ||| 0x80000000#32) ∧ a.getLsbD 31 = false ∧
    (a ||| 0x80000000#32).getLsbD 31 = true := by
  rintro a (rfl | rfl | rfl) <;> decide

theorem witness_ComparisonIsNumerical : isNaN 0xFF800000#32 = false ∧ isNaN 0x80000001#32 = false := by decide

/-- -0 with the smallest normal; 2.0 with -2.0 under MIN and MAX. -/
theorem witness_OrdinaryComparison :
    (isNaN 0x80000000#32 = false ∧ isNaN 0x00800000#32 = false ∧
      ¬ (magnitude 0x80000000#32 = 0#31 ∧ magnitude 0x00800000#32 = 0#31 ∧ sign 0x80000000#32 ≠ sign 0x00800000#32) ∧
      ¬ (magnitude 0x80000000#32 = magnitude 0x00800000#32 ∧ sign 0x80000000#32 ≠ sign 0x00800000#32)) ∧
    (isNaN 0x40000000#32 = false ∧ isNaN 0xC0000000#32 = false ∧
      ¬ (magnitude 0x40000000#32 = 0#31 ∧ magnitude 0xC0000000#32 = 0#31 ∧ sign 0x40000000#32 ≠ sign 0xC0000000#32)) := by decide

theorem witness_SignSelection :
    isSNaN 0x80000001#32 = false ∧ isSNaN 0xC0000000#32 = false ∧
    (0x80000000#32 : Dword) = selectTmp Config.default .max (dazInput Config.default true 0x80000001#32)
      (dazInput Config.default true 0xC0000000#32) := by decide

/-- Each row of the table. -/
theorem witness_NanInputTable :
    isSNaN 0x7FA00000#32 = true ∧ (isQNaN 0x7FC00000#32 = true ∧ isSNaN 0x7F800001#32 = true) ∧
    (isQNaN 0xFFC00000#32 = true ∧ isQNaN 0x7FC00005#32 = true) ∧ (isQNaN 0x7FC00000#32 = true ∧ isNaN 0x00000001#32 = false) ∧
    (isNaN 0x7F800000#32 = false ∧ isSNaN 0xFF800001#32 = true) ∧ (isNaN 0xC0000000#32 = false ∧ isQNaN 0xFFC00001#32 = true) := by
  decide

theorem witness_RangeProperties :
    (isSNaN 0x7FC00000#32 = false ∧ isSNaN 0x00000001#32 = false) ∧ (isNaN 0x7F800000#32 = false ∧ isNaN 0x00000001#32 = false) ∧
    ({ s0 with cfg := { s0.cfg with immHi := .ignore } } : State).cfg.immHi = .ignore ∧
    (0xF5#8).extractLsb' 0 4 = iReg.common.imm8.extractLsb' 0 4 ∧
    ((0xFFBF#32).getLsbD 6 = s0.mxcsr.getLsbD 6 ∧ (∃ t, exec iReg s0 = .next t) ∧
      ∃ t, exec iReg (s0.setMxcsr 0xFFBF#32) = .next t) :=
  ⟨by decide, by decide, by decide, by decide, by decide, exists_next (by decide +kernel), exists_next (by decide +kernel)⟩

/-- 100.0, 150.0 and -150.0. -/
theorem witness_ClampToReference :
    (isNaN 0x42C80000#32 = false ∧ isDenormal 0x42C80000#32 = false ∧
      (scaledValue 0x42C80000#32).natAbs < (scaledValue 0x43160000#32).natAbs) ∧
    (isNaN 0x43160000#32 = false ∧ scaledValue 0x43160000#32 ≤ scaledValue 0x43160000#32) ∧
    (isNaN 0xC3160000#32 = false ∧ scaledValue 0xC3160000#32 ≤ scaledValue 0xC3160000#32) := by decide +kernel

theorem witness_SameSourceTwice : Config.default.daz = .replace ∧ isSNaN 0x80000001#32 = false ∧ isSNaN 0xFF800001#32 = true := by decide

theorem witness_RegisterFormResult :
    (s0.Ready c0 (c0.pre.length + 7) ∧ s0.maskBit c0.mask = true ∧
      s0.unmasked (s0.rangeOf c0 (low (s0.xmm 3#5))).ie (s0.rangeOf c0 (low (s0.xmm 3#5))).de = false) ∧
    (sk.Ready iRegK.common (iRegK.common.pre.length + 7) ∧ sk.maskBit iRegK.common.mask = false) :=
  ⟨⟨ready (by decide +kernel), by decide +kernel⟩, ready (by decide +kernel), by decide +kernel⟩

theorem witness_RegisterSaeFormResult :
    (s0.Ready c0 (c0.pre.length + 7) ∧ s0.maskBit c0.mask = true ∧ ∃ t, exec (.vrangessReg c0 3#5) s0 = .next t) ∧
    (sk.Ready iRegK.common (iRegK.common.pre.length + 7) ∧ sk.maskBit iRegK.common.mask = false) :=
  ⟨⟨ready (by decide +kernel), by decide +kernel, exists_next (by decide +kernel)⟩, ready (by decide +kernel), by decide +kernel⟩

/-- A misaligned operand with alignment checking off, and an aligned one with it on. -/
theorem witness_MemoryFormResult :
    (s0.Ready c0 (Instr.vrangessMem c0 (.ripRel 0x1EFF6#32)).length ∧ s0.maskBit c0.mask = true ∧
      s0.memRead4 (s0.linearAddress (mem00Operand (.ripRel 0x1EFF6#32)) c0.pre
        (Instr.vrangessMem c0 (.ripRel 0x1EFF6#32)).length) = some 0x04030201#32 ∧ s0.alignCheck = false ∧
      s0.unmasked (s0.rangeOf c0 0x04030201#32).ie (s0.rangeOf c0 0x04030201#32).de = false) ∧
    ((sac 0x20004#64).Ready c0 iMem.length ∧ (sac 0x20004#64).memRead4 ((sac 0x20004#64).linearAddress (atReg 0#4) c0.pre iMem.length) =
        some 0x07060504#32 ∧
      ((sac 0x20004#64).linearAddress (atReg 0#4) c0.pre iMem.length).toNat % 4 = 0 ∧
      (sac 0x20004#64).unmasked ((sac 0x20004#64).rangeOf c0 0x07060504#32).ie ((sac 0x20004#64).rangeOf c0 0x07060504#32).de = false) :=
  ⟨⟨ready (by decide +kernel), by decide +kernel⟩, ready (by decide +kernel), by decide +kernel⟩

theorem witness_MemoryDisp8FormResult :
    s0.Ready c0 (Instr.vrangessMemDisp8 c0 (.reg 0#4) 1#8).length ∧ s0.maskBit c0.mask = true ∧
    s0.memRead4 (s0.linearAddress (baseOperand (.reg 0#4) ((1#8).signExtend 64 * 4#64)) c0.pre
      (Instr.vrangessMemDisp8 c0 (.reg 0#4) 1#8).length) = some 0x07060504#32 ∧ s0.alignCheck = false ∧
    s0.unmasked (s0.rangeOf c0 0x07060504#32).ie (s0.rangeOf c0 0x07060504#32).de = false :=
  ⟨ready (by decide +kernel), by decide +kernel⟩

theorem witness_MemoryDisp32FormResult :
    s0.Ready c0 (Instr.vrangessMemDisp32 c0 (.sib 1#4 0#4 0#2) 4#32).length ∧ s0.maskBit c0.mask = true ∧
    s0.memRead4 (s0.linearAddress (baseOperand (.sib 1#4 0#4 0#2) ((4#32).signExtend 64)) c0.pre
      (Instr.vrangessMemDisp32 c0 (.sib 1#4 0#4 0#2) 4#32).length) = some 0x07060504#32 ∧ s0.alignCheck = false ∧
    s0.unmasked (s0.rangeOf c0 0x07060504#32).ie (s0.rangeOf c0 0x07060504#32).de = false :=
  ⟨ready (by decide +kernel), by decide +kernel⟩

/-- F2 and F3. -/
theorem witness_MaskedResponse : ∀ s1 : Dword, s1 = 0x7F800001#32 ∨ s1 = 0x00000001#32 → ∀ s, s = start s1 0xC0000000#32 1#64 0x1F80#32 →
    saeOf iReg = false ∧ s.Ready iReg.common iReg.length ∧ s.maskBit iReg.common.mask = true ∧
    readSource (sourceOf iReg) iReg.common.pre iReg.length s = .next 0xC0000000#32 ∧ s.im = true ∧ s.dm = true := by
  rintro s1 (rfl | rfl) s rfl <;>
    exact ⟨rfl, ready (by decide +kernel), by decide +kernel, congrArg Host.Outcome.next (by decide +kernel), by decide +kernel⟩

/-- F6 and F7, with and without CR4.OSXMMEXCPT. -/
theorem witness_UnmaskedResponse : ∀ s1 mx : Dword, (s1 = 0x7F800001#32 ∧ mx = 0x1F00#32) ∨ (s1 = 0x00000001#32 ∧ mx = 0x1E80#32) →
    ∀ s, s = start s1 0xC0000000#32 1#64 mx →
    saeOf iReg = false ∧ s.Ready iReg.common iReg.length ∧ s.maskBit iReg.common.mask = true ∧
    readSource (sourceOf iReg) iReg.common.pre iReg.length s = .next 0xC0000000#32 ∧
    (((s.rangeOf iReg.common 0xC0000000#32).ie = true ∧ s.im = false) ∨
      ((s.rangeOf iReg.common 0xC0000000#32).de = true ∧ s.dm = false)) ∧
    s.osxmmexcpt = true ∧ ({ s with cr4 := 0x40220#64 } : State).osxmmexcpt = false := by
  rintro s1 mx (⟨rfl, rfl⟩ | ⟨rfl, rfl⟩) s rfl <;>
    exact ⟨rfl, ready (by decide +kernel), by decide +kernel, congrArg Host.Outcome.next (by decide +kernel), by decide +kernel⟩

/-- Every form goes on somewhere: the hypothesis of `UpperBitsWritten`, `NextStateFrame`, `MxcsrUse` and `ProgramCounterRule`. -/
theorem witness_everyFormGoesOn :
    (∃ t, exec iReg s0 = .next t) ∧ (∃ t, exec iRegK sk = .next t) ∧ (∃ t, exec (.vrangessRegSae c0 3#5) s0 = .next t) ∧
    (∃ t, exec iMem s0 = .next t) ∧ (∃ t, exec iMemK sk = .next t) ∧
    (∃ t, exec (.vrangessMemDisp8 c0 (.reg 0#4) 1#8) s0 = .next t) ∧ ∃ t, exec (.vrangessMemDisp32 c0 (.reg 0#4) 4#32) s0 = .next t :=
  ⟨exists_next (by decide +kernel), exists_next (by decide +kernel), exists_next (by decide +kernel), exists_next (by decide +kernel),
    exists_next (by decide +kernel), exists_next (by decide +kernel), exists_next (by decide +kernel)⟩

/-- The remaining hypotheses of `MxcsrUse`. -/
theorem witness_MxcsrUse :
    s0.setMxcsr 0x1F83#32 = start 0x3F800000#32 0xC0000000#32 1#64 0x1F83#32 ∧
    (start 0x3F800000#32 0xC0000000#32 1#64 0x1F83#32).ieFlag = true ∧ (start 0x3F800000#32 0xC0000000#32 1#64 0x1F83#32).deFlag = true ∧
    (0xFFBF#32).extractLsb' 6 3 = s0.mxcsr.extractLsb' 6 3 ∧ saeOf (.vrangessRegSae c0 3#5) = true ∧
    sk.maskBit iRegK.common.mask = false := by decide +kernel

/-- A fault: the hypothesis of `PreciseFaults`, `FaultsByForm` and the second part of `ProgramCounterRule`, for a memory fault, an #AC, a #NM, an
#XM and the length limit. -/
theorem witness_faults :
    (∃ f, exec iMem { s0 with mem := [] } = .fault f) ∧ (∃ f, exec iMem (sac 0x20001#64) = .fault f) ∧
    (∃ f, exec iReg { s0 with cr0 := s0.cr0 ||| 8#64 } = .fault f) ∧
    (∃ ie de t, exec iReg (start 0x7F800001#32 0xC0000000#32 0#64 0x1F00#32) = .fault (.xm ie de t)) ∧
    (∃ ie de t, exec iReg (start 0x00000001#32 0xC0000000#32 0#64 0x1E80#32) = .fault (.xm ie de t)) ∧
    (∃ t, exec (.vrangessReg (cp (List.replicate 9 .ds)) 3#5) s0 = .fault (.gp t)) :=
  ⟨exists_fault (by decide +kernel), exists_fault (by decide +kernel), exists_fault (by decide +kernel),
    exists_xm (ie := true) (de := false) (by decide +kernel), exists_xm (ie := false) (de := true) (by decide +kernel),
    exists_gp (by decide +kernel)⟩

theorem witness_EnablingFaults :
    (s0.mode = .mode64 ∧ s0.ripInRange iReg.length = true ∧ immAllowed s0.cfg iReg.common.imm8 = true ∧ iReg.wellFormed = true) ∧
    featurePresent { s0.cfg with cpuid7_0_ebx := 0#32 } = false ∧
    featurePresent { s0.cfg with cpuid7_0_ebx := 0#32, cpuid7_1_edx := 0x80000#32, avx10Version := 1#8 } = true ∧
    (featurePresent s0.cfg = true ∧ ({ s0 with cr4 := 0x620#64 } : State).cr4.getLsbD 18 = false) ∧
    (s0.cr4.getLsbD 18 = true ∧ ({ s0 with xcr0 := 0xE3#64 } : State).xcr0.extractLsb' 1 2 ≠ 0b11#2 ∧
      ({ s0 with xcr0 := 0x67#64 } : State).xcr0.extractLsb' 5 3 ≠ 0b111#3) := by decide +kernel

theorem witness_DeviceNotAvailable :
    ({ s0 with cr0 := s0.cr0 ||| 8#64 } : State).mode = .mode64 ∧ ({ s0 with cr0 := s0.cr0 ||| 8#64 } : State).cr0.getLsbD 3 = true ∧
    ({ s0 with cr0 := s0.cr0 ||| 8#64 } : State).ripInRange iReg.length = true ∧ immAllowed s0.cfg iReg.common.imm8 = true ∧
    iReg.wellFormed = true ∧ (featurePresent s0.cfg = true ∧ s0.osxsave = true ∧ s0.xcr0Enabled = true) ∧
    ({ s0 with cr4 := 0x620#64 } : State).osxsave = false := by decide +kernel

/-- Compatibility mode, with a program. -/
theorem witness_OtherModesRefused : ({ s0 with csL := false, text := [0x62#8] } : State).mode ≠ .mode64 ∧
    ({ s0 with csL := false, text := [0x62#8] } : State).runComplete = false := by decide +kernel

theorem witness_ImmediateHighBits :
    (s0.mode = .mode64 ∧ s0.ripInRange 7 = true ∧ (Instr.vrangessReg (cm 0#3 false 0x15#8) 3#5).common.imm8.extractLsb' 4 4 ≠ 0#4 ∧
      s0.cfg.immHi = .refuse) ∧
    ({ s0 with cfg := { s0.cfg with immHi := .ignore } } : State).cfg.immHi = .ignore := by decide +kernel

/-- Other vector registers, whose read bits agree. -/
theorem witness_OnlyReadVectorBitsMatter :
    (∃ t, exec iReg s0 = .next t) ∧
    (∃ z : Vector Zmm 32, z ≠ s0.zmm ∧ ({ s0 with zmm := z } : State).xmm iReg.common.src1 = s0.xmm iReg.common.src1 ∧
      low (({ s0 with zmm := z } : State).xmm iReg.common.dest) = low (s0.xmm iReg.common.dest) ∧
      low (({ s0 with zmm := z } : State).xmm 3#5) = low (s0.xmm 3#5)) :=
  ⟨exists_next (by decide +kernel), s0.zmm.set 3 0xC0000000#512, by decide +kernel⟩

theorem witness_OnlyMaskBitZeroMatters :
    (∃ t, exec iRegK s0 = .next t) ∧
    (({ s0 with k := Vector.replicate 8 0xFFFF#64 } : State).kAt iRegK.common.mask).getLsbD 0 = (s0.kAt iRegK.common.mask).getLsbD 0 ∧
    (∃ t, exec iReg s0 = .next t) ∧ iReg.common.mask = 0#3 :=
  ⟨exists_next (by decide +kernel), by decide +kernel, exists_next (by decide +kernel), by decide⟩

theorem witness_MergingIntoFirstSource :
    (Common.mk [] 2#5 2#5 1#3 false 5#8).dest = (Common.mk [] 2#5 2#5 1#3 false 5#8).src1 ∧ sk.maskBit 1#3 = false ∧
    ∃ t, exec (.vrangessReg ⟨[], 2#5, 2#5, 1#3, false, 5#8⟩ 3#5) sk = .next t :=
  ⟨by decide, by decide +kernel, exists_next (by decide +kernel)⟩

/-- A program of one instruction (A1), `rip` at its start. -/
def sp : State := { s0 with text := [0x62#8, 0xF3#8, 0x6D#8, 0x08#8, 0x51#8, 0xCB#8, 0x03#8] }

theorem witness_StepRunsDecodedInstruction : sp.runComplete = false ∧ sp.onProgram = true ∧
    decode sp.bytesAtRip = .ok (.vrangessReg ⟨[], 1#5, 2#5, 0#3, false, 3#8⟩ 3#5) [] := by decide +kernel

/-- Each verdict of the decoder; a `rip` inside an instruction; a completed run. -/
theorem witness_StepWithoutInstruction :
    (∀ bs, bs = [0x62#8, 0xF7#8, 0x6D#8, 0x08#8] ∨ bs = [0x90#8] ∨ bs = [0x62#8, 0xF3#8] ∨
        bs = [0x62#8, 0xF3#8, 0x6D#8, 0x68#8, 0x51#8, 0xCB#8, 0x05#8] →
      ({ s0 with text := bs } : State).mode = .mode64 ∧ ({ s0 with text := bs } : State).runComplete = false ∧
      ({ s0 with text := bs } : State).onProgram = true ∧ ({ s0 with text := bs } : State).bytesAtRip = bs) ∧
    (decode [0x62#8, 0xF7#8, 0x6D#8, 0x08#8] = .ud .reservedP0 ∧ decode [0x90#8] = .refuse .notVrangess ∧
      decode [0x62#8, 0xF3#8] = .refuse .truncated ∧
      decode [0x62#8, 0xF3#8, 0x6D#8, 0x68#8, 0x51#8, 0xCB#8, 0x05#8] = .refuse .vectorLength11) ∧
    (({ sp with rip := 0x1001#64 } : State).runComplete = false ∧ ({ sp with rip := 0x1001#64 } : State).onProgram = false) ∧
    ({ sp with rip := 0x1007#64 } : State).runComplete = true ∧
    (({ s0 with rip := 0x7FFFFFFFFFF9#64 } : State).mode = .mode64 ∧
      ({ s0 with rip := 0x7FFFFFFFFFF9#64 } : State).ripInRange iReg.length = false ∧
      ({ s0 with rip := 0x7FFFFFFFFFF8#64 } : State).ripInRange iReg.length = true) ∧
    (∀ j, j = Instr.vrangessReg ⟨List.replicate 9 .ds, 1#5, 2#5, 0#3, false, 0xF5#8⟩ 3#5 →
      ({ s0 with text := encode j } : State).runComplete = false ∧ ({ s0 with text := encode j } : State).onProgram = true ∧
      decode ({ s0 with text := encode j } : State).bytesAtRip = .overlong j ∧ s0.ripInRange j.length = true ∧
      s0.cfg.immHi = .refuse ∧ j.common.imm8.extractLsb' 4 4 ≠ 0#4) := by
  refine ⟨?_, by decide, by decide +kernel, by decide +kernel, by decide +kernel, by rintro j rfl; decide +kernel⟩
  rintro bs (rfl | rfl | rfl | rfl) <;> decide +kernel

set_option exponentiation.threshold 512 in
theorem sp_inv : sp.Inv := ⟨by decide +kernel, fun v _ => v.isLt, by decide +kernel, by decide +kernel, by decide +kernel⟩

theorem witness_InvariantKept : sp.Inv ∧ ∃ t, step sp = .next t := ⟨sp_inv, exists_next (by decide +kernel)⟩

/-- The run of the statements below; the host's `run`, at this machine's state. -/
def runOf (n : Nat) (s : State) : Result State := Sys2Proof.core.run n s

theorem witness_RunsComeToTheirEnd : sp.Inv ∧ ∃ t, Sys2Proof.core.run sp.text.length sp = .next t :=
  ⟨sp_inv, exists_next (o := runOf sp.text.length sp) (by decide +kernel)⟩

theorem witness_RunsKeepEverythingElse : ∃ t, Sys2Proof.core.run 1 sp = .next t := exists_next (o := runOf 1 sp) (by decide +kernel)

theorem witness_RegisterProgramsComplete :
    (∀ i ∈ [iReg, iRegK, Instr.vrangessRegSae c0 3#5], i.wellFormed = true ∧ i.common.imm8.extractLsb' 4 4 = 0#4 ∧
      ∃ r, sourceOf i = .reg r) ∧
    ([iReg, iRegK, Instr.vrangessRegSae c0 3#5].map encode).flatten.length < 2 ^ 32 := by
  refine ⟨?_, by decide⟩
  intro i hi
  simp only [List.mem_cons, List.not_mem_nil, or_false] at hi
  rcases hi with rfl | rfl | rfl <;> exact ⟨by decide, by decide, 3#5, rfl⟩

/-- RSP and RBP as a base, R12 (not SS), and an FS override, at an address that is not canonical; a
read whose fourth byte is the first that is not there. -/
theorem witness_ArchitecturalExceptions : ∀ r : Gpr, r = 4#4 ∨ r = 5#4 ∨ r = 12#4 → ∀ s : State,
    s = { s0 with gpr := Vector.replicate 16 0x8000000000000000#64, fsBase := 0#64 } →
    s.canonical4 (s.linearAddress (baseOperand (.sib r 4#4 0#2) 0#64) [] 8) = false ∧
    s.canonical4 (s.linearAddress (baseOperand (.sib r 4#4 0#2) 0#64) [.fs] 9) = false ∧
    s.canonical4 0x20005#64 = true ∧ s.memRead4 0x20005#64 = none ∧ s.faultingAddress 0x20005#64 = 0x20008#64 := by
  rintro r (rfl | rfl | rfl) s rfl <;> decide +kernel

end Sys2Proof.Tests
end

/-! Modes other than 64-bit mode: what the gate and the fetch say first (00_scope.md R4(c), 92_eei_decisions.md D2). -/

namespace Sys2Proof.Machine

/-- The mode is the first thing the gate looks at. -/
theorem gate_of_mode_ne {s : State} (hm : s.mode ≠ .mode64) (c : Common) (n : Nat) : gate c n s = .refused (.mode s.mode) := by
  unfold gate
  rw [if_pos hm]

/-- The mode is the first thing the fetch looks at. -/
theorem fetch_of_mode_ne {s : State} (hm : s.mode ≠ .mode64) : fetch s = .refused (.mode s.mode) := by
  unfold fetch
  rw [if_pos hm]

/-- What the gate refuses, the instruction refuses. -/
theorem exec_of_gate_refused {i : Instr} {s : State} {r : Refusal} (h : gate i.common i.length s = .refused r) :
    exec i s = .refused r := by
  rw [exec_eq, vrangess, h, andThen_refused]

/-- Before the end of the run, a refused fetch is a refused step. -/
theorem step_of_fetch_refused {s : State} {r : Refusal} (hr : s.runComplete = false) (h : fetch s = .refused r) :
    step s = .refused r := by
  rw [step, if_neg (by simp [hr]), h, andThen_refused]

/-- Settles O46: the gate of every instruction, and the fetch of every step, look at the mode before anything else. -/
theorem otherModesRefused : Obligations.OtherModesRefused := by
  intro s hm
  exact ⟨fun i => exec_of_gate_refused (gate_of_mode_ne hm i.common i.length),
    fun hr => step_of_fetch_refused hr (fetch_of_mode_ne hm)⟩

end Sys2Proof.Machine

/-! The order of binary32 values: the value is a strictly increasing function of the magnitude, with the sign put on
(00_scope.md R9, R11). -/

namespace Sys2Proof.Machine

/-! ### A number with a sign -/

/-- The integer of a sign and an absolute value. -/
def signed (neg : Bool) (m : Nat) : Int := if neg then -(m : Int) else (m : Int)

@[simp] theorem signed_false (m : Nat) : signed false m = m := rfl
@[simp] theorem signed_true (m : Nat) : signed true m = -m := rfl

@[simp] theorem natAbs_signed (neg : Bool) (m : Nat) : (signed neg m).natAbs = m := by cases neg <;> simp

theorem neg_le_signed (neg : Bool) (m : Nat) : -(m : Int) ≤ signed neg m := by cases neg <;> simp

theorem signed_le (neg : Bool) (m : Nat) : signed neg m ≤ m := by cases neg <;> simp

/-- Applying a strictly increasing function that keeps 0 to the absolute values keeps the order of the signed numbers. -/
theorem signed_le_signed_iff {f : Nat → Nat} (hf : StrictMono f) (h0 : f 0 = 0) (p q : Bool) (m n : Nat) :
    signed p (f m) ≤ signed q (f n) ↔ signed p m ≤ signed q n := by
  have hle : ∀ {j k}, f j ≤ f k ↔ j ≤ k := hf.le_iff_le
  have hzero : ∀ k, f k = 0 ↔ k = 0 := fun k => by rw [← hf.injective.eq_iff (a := k), h0]
  cases p <;> cases q
  case false.false => simpa using hle
  case true.true => simpa using hle
  case true.false => simp only [signed_true, signed_false]; omega
  case false.true =>
    have hm := hzero m
    have hn := hzero n
    simp only [signed_true, signed_false]
    omega

/-! ### The magnitude of a pattern -/

/-- The magnitude is the exponent above the fraction. -/
theorem toNat_magnitude (v : Dword) : (magnitude v).toNat = 2 ^ 23 * (exponent v).toNat + (fraction v).toNat := by
  simp only [magnitude, exponent, fraction, BitVec.extractLsb'_toNat, Nat.shiftRight_eq_div_pow]
  omega

theorem exponent_eq_magnitude_div (v : Dword) : (exponent v).toNat = (magnitude v).toNat / 2 ^ 23 := by
  have := (fraction v).isLt
  rw [toNat_magnitude]
  omega

theorem fraction_eq_magnitude_mod (v : Dword) : (fraction v).toNat = (magnitude v).toNat % 2 ^ 23 := by
  have := (fraction v).isLt
  rw [toNat_magnitude]
  omega

/-- Only a NaN has a magnitude above that of the infinities. -/
theorem magnitude_le_of_isNaN_false {v : Dword} (h : isNaN v = false) : (magnitude v).toNat ≤ 0x7F800000 := by
  have he := (exponent v).isLt
  have hf := (fraction v).isLt
  have hn : (exponent v).toNat = 255 → (fraction v).toNat = 0 := by
    simpa [isNaN, ← BitVec.toNat_inj] using h
  rw [toNat_magnitude]
  omega

/-! ### The value of a magnitude -/

/-- The scaled value of a magnitude: zero and the denormals stand for themselves; above them the fraction, with its hidden bit, is
multiplied by a power of two. -/
def scaledMagnitude (n : Nat) : Nat :=
  if n / 2 ^ 23 = 0 then n % 2 ^ 23 else (2 ^ 23 + n % 2 ^ 23) * 2 ^ (n / 2 ^ 23 - 1)

theorem scaledMagnitude_zero : scaledMagnitude 0 = 0 := rfl

/-- The scaled value is that of the magnitude, with the sign. -/
theorem scaledValue_eq (v : Dword) : scaledValue v = signed (sign v) (scaledMagnitude (magnitude v).toNat) := by
  have he : exponent v = 0#8 ↔ (magnitude v).toNat / 2 ^ 23 = 0 := by
    rw [← exponent_eq_magnitude_div, ← BitVec.toNat_inj]; rfl
  simp only [scaledValue, signed, scaledMagnitude, he, exponent_eq_magnitude_div, fraction_eq_magnitude_mod]

theorem key_eq (v : Dword) : key v = signed (sign v) (magnitude v).toNat := rfl

/-- The next magnitude has a greater value: within a binade by one unit in the last place, and across its end by that unit too. -/
theorem scaledMagnitude_lt_succ (n : Nat) : scaledMagnitude n < scaledMagnitude (n + 1) := by
  unfold scaledMagnitude
  by_cases hend : n % 2 ^ 23 + 1 < 2 ^ 23
  · have hdiv : (n + 1) / 2 ^ 23 = n / 2 ^ 23 := by omega
    have hmod : (n + 1) % 2 ^ 23 = n % 2 ^ 23 + 1 := by omega
    rw [hdiv, hmod]
    split
    · omega
    · exact Nat.mul_lt_mul_of_pos_right (by omega) (by positivity)
  · have hdiv : (n + 1) / 2 ^ 23 = n / 2 ^ 23 + 1 := by omega
    have hmod : (n + 1) % 2 ^ 23 = 0 := by omega
    rw [hdiv, hmod, if_neg (Nat.succ_ne_zero _), Nat.add_sub_cancel]
    cases hk : n / 2 ^ 23 with
    | zero => simp only [if_pos]; omega
    | succ k =>
      have hpos : 0 < 2 ^ k := by positivity
      rw [if_neg (Nat.succ_ne_zero _), Nat.add_sub_cancel, Nat.pow_succ 2 k, Nat.mul_comm (2 ^ k) 2, ← Nat.mul_assoc]
      exact Nat.mul_lt_mul_of_pos_right (by omega) hpos

theorem scaledMagnitude_strictMono : StrictMono scaledMagnitude := strictMono_nat_of_lt_succ scaledMagnitude_lt_succ

/-! ### The comparisons -/

theorem leValue_iff (a b : Dword) : leValue a b = true ↔ scaledValue a ≤ scaledValue b := by
  rw [scaledValue_eq, scaledValue_eq, signed_le_signed_iff scaledMagnitude_strictMono scaledMagnitude_zero, ← key_eq, ← key_eq]
  exact decide_eq_true_iff

theorem leMagnitude_iff (a b : Dword) : leMagnitude a b = true ↔ (scaledValue a).natAbs ≤ (scaledValue b).natAbs := by
  rw [scaledValue_eq, scaledValue_eq, natAbs_signed, natAbs_signed, scaledMagnitude_strictMono.le_iff_le]
  exact decide_eq_true_iff

/-- -∞ is at most every pattern that is not a NaN. -/
theorem leValue_negInfinity {a : Dword} (h : isNaN a = false) : leValue 0xFF800000#32 a = true := by
  have hkey : key 0xFF800000#32 = -0x7F800000 := by decide
  have hm := magnitude_le_of_isNaN_false h
  have ha := neg_le_signed (sign a) (magnitude a).toNat
  rw [leValue, decide_eq_true_iff, hkey, key_eq]
  omega

/-- Every pattern that is not a NaN is at most +∞. -/
theorem leValue_posInfinity {a : Dword} (h : isNaN a = false) : leValue a 0x7F800000#32 = true := by
  have hkey : key 0x7F800000#32 = 0x7F800000 := by decide
  have hm := magnitude_le_of_isNaN_false h
  have ha := signed_le (sign a) (magnitude a).toNat
  rw [leValue, decide_eq_true_iff, hkey, key_eq]
  omega

/-- Settles O24: the value increases strictly with the magnitude, so key and value order patterns alike. -/
theorem comparisonIsNumerical : Obligations.ComparisonIsNumerical := by
  intro a b ha _
  exact ⟨leValue_iff a b, leMagnitude_iff a b, by decide, by decide, leValue_negInfinity ha, leValue_posInfinity ha⟩

end Sys2Proof.Machine

/-! What an execution that goes on reads of the state (10_state.md R22, R24, R27; 40_vrangess.md R92): of the vector registers SRC1,
the low elements of DEST and of a register SRC2; of the opmask registers the writemask bit; of MXCSR the bits DAZ, IM and DM; of the
bases of CS, DS, ES and SS nothing. -/

namespace Sys2Proof.Machine

/-! ### MXCSR and the writemask -/

theorem getLsbD_flagBits_of_two_le (ie de : Bool) {b : Nat} (hb : 2 ≤ b) : (flagBits ie de).getLsbD b = false :=
  Nat.testBit_lt_two_pow ((flagBits_lt ie de).trans_le (Nat.pow_le_pow_right two_pos hb))

/-- MXCSR[8:6] are DM, IM and DAZ. -/
theorem controls_eq {s s' : State} (h : s'.mxcsr.extractLsb' 6 3 = s.mxcsr.extractLsb' 6 3) :
    s'.daz = s.daz ∧ s'.im = s.im ∧ s'.dm = s.dm := by
  have hbit : ∀ j, j < 3 → s'.mxcsr.getLsbD (6 + j) = s.mxcsr.getLsbD (6 + j) := fun j hj => by
    simpa [BitVec.getLsbD_extractLsb', hj] using congrArg (BitVec.getLsbD · j) h
  exact ⟨hbit 0 (by decide), hbit 1 (by decide), hbit 2 (by decide)⟩

theorem maskBit_eq {s s' : State} {mask : BitVec 3}
    (h : mask = 0#3 ∨ (s'.kAt mask).getLsbD 0 = (s.kAt mask).getLsbD 0) : s'.maskBit mask = s.maskBit mask := by
  unfold State.maskBit
  rcases h with h0 | hk
  · simp [h0]
  · rw [hk]

/-! ### The inputs of an execution -/

/-- `s'` shows the instruction what `s` shows it, and differs from it in the vector and opmask registers, MXCSR and the bases of CS,
DS, ES and SS at most. -/
structure SameInputs (i : Instr) (s s' : State) : Prop where
  frame : s' = { s with
    zmm := s'.zmm, k := s'.k, mxcsr := s'.mxcsr
    csBase := s'.csBase, dsBase := s'.dsBase, esBase := s'.esBase, ssBase := s'.ssBase }
  src1 : s'.xmm i.common.src1 = s.xmm i.common.src1
  dest : low (s'.xmm i.common.dest) = low (s.xmm i.common.dest)
  src2 : ∀ r, sourceOf i = .reg r → low (s'.xmm r) = low (s.xmm r)
  maskBit : s'.maskBit i.common.mask = s.maskBit i.common.mask
  controls : s'.mxcsr.extractLsb' 6 3 = s.mxcsr.extractLsb' 6 3

namespace SameInputs

variable {i : Instr} {s s' : State}

theorem cfg_eq (h : SameInputs i s s') : s'.cfg = s.cfg := by rw [h.frame]

theorem ready (h : SameInputs i s s') {c : Common} {n : Nat} (hr : s.Ready c n) : s'.Ready c n := by
  rw [h.frame]
  exact ⟨hr.mode, hr.feature, hr.osxsave, hr.xcr0, hr.ts, hr.rip, hr.imm, hr.length, hr.masking⟩

theorem linearAddress_eq (h : SameInputs i s s') (m : MemOperand) (pre : List Prefix) (n : Nat) :
    s'.linearAddress m pre n = s.linearAddress m pre n := by
  rw [h.frame]
  rfl

theorem memRead4_eq (h : SameInputs i s s') (la : Qword) : s'.memRead4 la = s.memRead4 la := by
  rw [h.frame]
  rfl

theorem alignCheck_eq (h : SameInputs i s s') : s'.alignCheck = s.alignCheck := by
  rw [h.frame]
  rfl

theorem readSource_next (h : SameInputs i s s') {pre : List Prefix} {n : Nat} {v : Dword}
    (hv : readSource (sourceOf i) pre n s = .next v) : readSource (sourceOf i) pre n s' = .next v := by
  cases hs : sourceOf i with
  | reg r =>
    rw [hs, readSource_reg] at hv
    rw [readSource_reg, h.src2 r hs, hv]
  | mem m =>
    rw [hs, readSource_mem, load_eq_next] at hv
    rwa [readSource_mem, load_eq_next, h.linearAddress_eq, h.alignCheck_eq, h.memRead4_eq]

theorem skipSource_next (h : SameInputs i s s') {pre : List Prefix} {n : Nat}
    (hv : skipSource (sourceOf i) pre n s = .next ()) : skipSource (sourceOf i) pre n s' = .next () := by
  cases hs : sourceOf i with
  | reg r => exact skipSource_reg r pre n s'
  | mem m =>
    rw [hs, skipSource_mem] at hv
    rwa [skipSource_mem, h.cfg_eq, h.linearAddress_eq, h.memRead4_eq]

theorem rangeOf_eq (h : SameInputs i s s') (v : Dword) : s'.rangeOf i.common v = s.rangeOf i.common v := by
  rw [State.rangeOf, h.cfg_eq, h.src1, (controls_eq h.controls).1]
  rfl

theorem unmasked_eq (h : SameInputs i s s') (ie de : Bool) : s'.unmasked ie de = s.unmasked ie de := by
  obtain ⟨-, him, hdm⟩ := controls_eq h.controls
  rw [State.unmasked, him, hdm]
  rfl

theorem maskedLow_eq (h : SameInputs i s s') : maskedLow i.common s' = maskedLow i.common s := by
  rw [maskedLow, h.dest]
  rfl

/-- With the same inputs an execution goes on alike: it writes the same low element and the same flags. -/
theorem exec_next (h : SameInputs i s s') {t : State} (ht : exec i s = .next t) :
    ∃ v ie de, t = s.wrote i.common v ie de i.length ∧ exec i s' = .next (s'.wrote i.common v ie de i.length) := by
  obtain ⟨hr, ⟨hk, s2, h2, ⟨hs, rfl⟩ | ⟨hs, hu, rfl⟩⟩ | ⟨hk, h2, rfl⟩⟩ := exec_eq_next_iff.mp ht
  · refine ⟨_, _, _, rfl, ?_⟩
    rw [exec_of_sae hs (h.ready hr) (h.maskBit.trans hk) (h.readSource_next h2), h.rangeOf_eq]
  · refine ⟨_, _, _, rfl, ?_⟩
    rw [← h.rangeOf_eq, ← h.unmasked_eq] at hu
    rw [exec_of_unmasked_false hs (h.ready hr) (h.maskBit.trans hk) (h.readSource_next h2) hu, h.rangeOf_eq]
  · refine ⟨_, _, _, rfl, ?_⟩
    rw [exec_of_masked (h.ready hr) (h.maskBit.trans hk) (h.skipSource_next h2), h.maskedLow_eq]

end SameInputs

theorem sameInputs_bases (i : Instr) (s : State) (cs ds es ss : Qword) :
    SameInputs i s { s with csBase := cs, dsBase := ds, esBase := es, ssBase := ss } :=
  ⟨rfl, rfl, rfl, fun _ _ => rfl, rfl, rfl⟩

theorem sameInputs_k {i : Instr} {s : State} {k : Vector Qword 8}
    (h : ({ s with k := k } : State).maskBit i.common.mask = s.maskBit i.common.mask) : SameInputs i s { s with k := k } :=
  ⟨rfl, rfl, rfl, fun _ _ => rfl, h, rfl⟩

theorem sameInputs_setMxcsr {i : Instr} {s : State} {v : Dword} (h : v.extractLsb' 6 3 = s.mxcsr.extractLsb' 6 3) :
    SameInputs i s (s.setMxcsr v) :=
  ⟨rfl, rfl, rfl, fun _ _ => rfl, rfl, h⟩

/-- Settles O14: those bases are no input of any execution, and no execution writes them. -/
theorem otherSegmentBasesIgnored : Obligations.OtherSegmentBasesIgnored := by
  intro i s t cs ds es ss ht
  obtain ⟨v, ie, de, rfl, hexec⟩ := (sameInputs_bases i s cs ds es ss).exec_next ht
  exact hexec

/-- Settles O49: of the opmask registers only the writemask bit is an input, and no execution writes them. -/
theorem onlyMaskBitZeroMatters : Obligations.OnlyMaskBitZeroMatters := by
  intro i s t k ht hk
  obtain ⟨v, ie, de, rfl, hexec⟩ := (sameInputs_k (maskBit_eq hk)).exec_next ht
  exact hexec

/-- Settles O40: MXCSR after an execution is MXCSR before it with flag bits or-ed in, and of MXCSR only the three control bits are
inputs. -/
theorem mxcsrUse : Obligations.MxcsrUse := by
  intro i s t ht
  obtain ⟨-, v, ie, de, rfl, hnone⟩ := exec_eq_next ht
  have hmxcsr : (s.wrote i.common v ie de i.length).mxcsr = s.mxcsr ||| flagBits ie de := mxcsrWith_eq _ _ _
  have hsticky : ∀ b, s.mxcsr.getLsbD b = true → (s.wrote i.common v ie de i.length).mxcsr.getLsbD b = true := fun b hb => by
    rw [hmxcsr, BitVec.getLsbD_or, hb, Bool.true_or]
  have hwhole : (saeOf i = true ∨ s.maskBit i.common.mask = false) →
      (s.wrote i.common v ie de i.length).mxcsr = s.mxcsr := fun h => by
    obtain ⟨rfl, rfl⟩ := hnone h
    exact mxcsrWith_false _
  refine ⟨hsticky 0, hsticky 1, fun b hb => ?_, fun h => hwhole (.inl h), fun h => hwhole (.inr h), fun w hw => ?_⟩
  · rw [hmxcsr, BitVec.getLsbD_or, getLsbD_flagBits_of_two_le ie de hb, Bool.or_false]
  · obtain ⟨v', ie', de', heq, hexec⟩ := (sameInputs_setMxcsr hw).exec_next ht
    rw [heq]
    exact ⟨_, hexec, rfl, rfl⟩

/-! ### Power-up and INIT (10_state.md R32) -/

theorem exec_ne_next_of_mode_ne {s : State} (hm : s.mode ≠ .mode64) (i : Instr) (t : State) : exec i s ≠ .next t := by
  rw [exec_of_gate_refused (gate_of_mode_ne hm i.common i.length)]
  nofun

theorem mode_of_pe_eq_false {s : State} (h : s.pe = false) : s.mode = .real := if_pos h

/-- The general registers after power-up and after INIT: 0, but for RDX (number 2). -/
theorem gprAt_of_onlyRdx {s : State} {v : Qword} (h : s.gpr = (Vector.replicate 16 0#64).set 2 v) :
    (∀ r, r ≠ 2#4 → s.gprAt r = 0#64) ∧ s.gprAt 2#4 = v := by
  refine ⟨fun r hr => ?_, ?_⟩
  · have hne : 2 ≠ r.toNat := fun e => hr (BitVec.eq_of_toNat_eq e.symm)
    simp [State.gprAt, h, hne]
  · simp [State.gprAt, h]

theorem powerUp_mode : State.powerUp.mode = .real := mode_of_pe_eq_false (by decide)

theorem powerUp_zmmAt (r : VReg) : State.powerUp.zmmAt r = 0#512 := Vector.getElem_replicate _

theorem powerUp_kAt (j : BitVec 3) : State.powerUp.kAt j = 0#64 := Vector.getElem_replicate _

/-- INIT keeps the bits 29 and 30 of CR0; the others are those after power-up. -/
theorem afterInit_cr0_getLsbD (s : State) {b : Nat} (hb : b < 64) :
    s.afterInit.cr0.getLsbD b = if b = 29 ∨ b = 30 then s.cr0.getLsbD b else (0x60000010#64).getLsbD b := by
  have hkept : ∀ b < 64, (0x60000000#64).getLsbD b = decide (b = 29 ∨ b = 30) := by decide
  have hset : ∀ b < 64, (0x10#64).getLsbD b = (!decide (b = 29 ∨ b = 30) && (0x60000010#64).getLsbD b) := by decide
  change ((s.cr0 &&& 0x60000000#64) ||| 0x10#64).getLsbD b = _
  rw [BitVec.getLsbD_or, BitVec.getLsbD_and, hkept b hb, hset b hb]
  by_cases h : b = 29 ∨ b = 30 <;> simp [h]

theorem afterInit_mode (s : State) : s.afterInit.mode = .real :=
  mode_of_pe_eq_false (afterInit_cr0_getLsbD s (by decide))

/-- Settles O58: both states are in real mode, which the gate of every instruction refuses. -/
theorem powerUpCannotExecute : Obligations.PowerUpCannotExecute := by
  obtain ⟨hgpr, hrdx⟩ := gprAt_of_onlyRdx (s := State.powerUp) rfl
  have hexec := exec_ne_next_of_mode_ne (s := State.powerUp) (by rw [powerUp_mode]; decide)
  refine ⟨⟨rfl, rfl, rfl, rfl, rfl, rfl, rfl, rfl, powerUp_mode, powerUp_zmmAt, powerUp_kAt, hgpr, hrdx⟩, hexec, by decide, by decide,
    fun s => ?_⟩
  obtain ⟨hgpr, hrdx⟩ := gprAt_of_onlyRdx (s := s.afterInit) rfl
  have hexec := exec_ne_next_of_mode_ne (s := s.afterInit) (by rw [afterInit_mode]; decide)
  exact ⟨rfl, rfl, rfl, rfl, rfl, rfl, afterInit_mode s, rfl, rfl, rfl, fun b hb => afterInit_cr0_getLsbD s hb, hgpr, hrdx, hexec⟩

end Sys2Proof.Machine

/-! Addresses and memory (20_memory.md): the length of an encoding, the address computation and its parts, the displacement forms,
reads of several bytes, and the masked-off operand. -/

namespace Sys2Proof

/-! ### The length of an encoding (30_encoding.md R76) -/

theorem length_encodeWith (c : Common) (sae : Bool) (o : OperandCode) :
    (encodeWith c sae o).length = c.pre.length + 7 + o.tail.length := by
  simp only [encodeWith, List.length_append, List.length_map, List.length_cons, List.length_nil]
  omega

theorem Mem00.length_code_tail (m : Mem00) : m.code.tail.length = m.extraBytes := by cases m <;> rfl

theorem Base.length_code_tail (mod : BitVec 2) (disp : List Byte) (b : Base) :
    (b.code mod disp).tail.length = disp.length + b.extraBytes := by cases b <;> rfl

/-- `ilen` counts every byte of the encoding. -/
theorem length_encode (i : Instr) : (encode i).length = i.length := by
  cases i with
  | vrangessReg c r => exact length_encodeWith ..
  | vrangessRegSae c r => exact length_encodeWith ..
  | vrangessMem c m => rw [encode, length_encodeWith, m.length_code_tail, Instr.length]
  | vrangessMemDisp8 c b d =>
    rw [encode, length_encodeWith, b.length_code_tail, Instr.length, List.length_singleton]
    omega
  | vrangessMemDisp32 c b d =>
    have hdisp : (dispBytes d).length = 4 := rfl
    rw [encode, length_encodeWith, b.length_code_tail, Instr.length, hdisp]
    omega

end Sys2Proof

namespace Sys2Proof.Machine

/-! ### The parts of an effective address (20_memory.md R44) -/

theorem hasAddr32_iff {pre : List Prefix} : hasAddr32 pre = true ↔ Prefix.addr32 ∈ pre := List.contains_iff_mem

/-- Without 67h the effective address is the 64-bit sum of its parts. -/
theorem State.effectiveAddress_of_notMem {pre : List Prefix} (h : Prefix.addr32 ∉ pre) (s : State) (m : MemOperand) (n : Nat) :
    s.effectiveAddress m pre n = s.basePart m n + s.indexPart m + m.disp :=
  if_neg (mt hasAddr32_iff.mp h)

/-- With 67h it is the low half of that sum, zero-extended. -/
theorem State.effectiveAddress_of_mem {pre : List Prefix} (h : Prefix.addr32 ∈ pre) (s : State) (m : MemOperand) (n : Nat) :
    s.effectiveAddress m pre n = ((s.basePart m n + s.indexPart m + m.disp).setWidth 32).setWidth 64 :=
  if_pos (hasAddr32_iff.mpr h)

theorem State.indexPart_of_index_none {m : MemOperand} (h : m.index = none) (s : State) : s.indexPart m = 0#64 := by
  rw [State.indexPart, h]

theorem State.indexPart_of_index_some {m : MemOperand} {r : Gpr} (h : m.index = some r) (s : State) :
    s.indexPart m = s.gprAt r <<< m.scale.toNat := by
  rw [State.indexPart, h]

/-- Index 0100b adds nothing. -/
theorem State.indexPart_of_indexOf {m : MemOperand} {x : Gpr} (h : m.index = indexOf x) (s : State) :
    s.indexPart m = if x = 0b0100#4 then 0#64 else s.gprAt x <<< m.scale.toNat := by
  by_cases hx : x = 0b0100#4
  · rw [if_pos hx, s.indexPart_of_index_none (h.trans (if_pos hx))]
  · rw [if_neg hx, s.indexPart_of_index_some (h.trans (if_neg hx))]

section Rows

variable {pre : List Prefix} (hpre : Prefix.addr32 ∉ pre) (s : State) (len : Nat)
include hpre

/-- `[r + disp]`. -/
theorem State.effectiveAddress_baseOperand_reg (r : Gpr) (disp : Qword) :
    s.effectiveAddress (baseOperand (.reg r) disp) pre len = s.gprAt r + disp := by
  rw [s.effectiveAddress_of_notMem hpre, s.indexPart_of_index_none rfl, BitVec.add_zero]
  rfl

/-- `[r + x << scale + disp]`. -/
theorem State.effectiveAddress_baseOperand_sib (r x : Gpr) (sc : BitVec 2) (disp : Qword) :
    s.effectiveAddress (baseOperand (.sib r x sc) disp) pre len =
      s.gprAt r + (if x = 0b0100#4 then 0#64 else s.gprAt x <<< sc.toNat) + disp := by
  rw [s.effectiveAddress_of_notMem hpre, s.indexPart_of_indexOf (x := x) rfl]
  rfl

/-- `[x << scale + disp32]`. -/
theorem State.effectiveAddress_noBase (x : Gpr) (sc : BitVec 2) (d : Dword) :
    s.effectiveAddress (mem00Operand (.noBase x sc d)) pre len =
      d.signExtend 64 + (if x = 0b0100#4 then 0#64 else s.gprAt x <<< sc.toNat) := by
  have hbase : s.basePart (mem00Operand (.noBase x sc d)) len = 0#64 := rfl
  rw [s.effectiveAddress_of_notMem hpre, s.indexPart_of_indexOf (x := x) rfl, hbase, BitVec.zero_add, BitVec.add_comm]
  rfl

/-- `[rip + ilen + disp32]` (R46). -/
theorem State.effectiveAddress_ripRel (d : Dword) :
    s.effectiveAddress (mem00Operand (.ripRel d)) pre len = s.rip + BitVec.ofNat 64 len + d.signExtend 64 := by
  rw [s.effectiveAddress_of_notMem hpre, s.indexPart_of_index_none rfl, BitVec.add_zero]
  rfl

/-- The displacement is what a base operand adds to its address without one. -/
theorem State.effectiveAddress_baseOperand (b : Base) (disp : Qword) :
    s.effectiveAddress (baseOperand b disp) pre len = s.effectiveAddress (baseOperand b 0#64) pre len + disp := by
  cases b with
  | reg r => simp only [State.effectiveAddress_baseOperand_reg hpre, BitVec.add_zero]
  | sib r x sc => simp only [State.effectiveAddress_baseOperand_sib hpre, BitVec.add_zero]

end Rows

/-- A mod = 00b operand of a base is that base without a displacement. -/
theorem mem00Operand_toMem00 (b : Base) : mem00Operand b.toMem00 = baseOperand b 0#64 := by cases b <;> rfl

/-- Settles O11, a row of the table at a time. -/
theorem effectiveAddressRows : Obligations.EffectiveAddressRows := by
  rintro s pre len r x sc d8 d32 ix hpre rfl
  have hreg := s.effectiveAddress_baseOperand_reg hpre len r
  have hsib := s.effectiveAddress_baseOperand_sib hpre len r x sc
  refine ⟨?_, s.effectiveAddress_ripRel hpre len d32, ?_, s.effectiveAddress_noBase hpre len x sc d32, hreg _, hsib _, hreg _, hsib _⟩
  · exact (hreg 0#64).trans (BitVec.add_zero _)
  · exact (hsib 0#64).trans (BitVec.add_zero _)

/-- Settles O12: the length in the sum is that of the encoder's bytes. -/
theorem ripRelativeAddress : Obligations.RipRelativeAddress := by
  refine ⟨fun s c d => ?_, fun s c hrip hpre => ?_⟩
  · have hlen : (encode (.vrangessMem c (.ripRel d))).length = c.pre.length + 11 := length_encode _
    rw [hlen]
    split_ifs with h
    · rw [s.effectiveAddress_of_mem h, s.indexPart_of_index_none rfl, BitVec.add_zero]
      rfl
    · exact s.effectiveAddress_ripRel h _ d
  · have hlen : (Instr.vrangessMem c (.ripRel 0x10#32)).length = 11 := by simp [Instr.length, Mem00.extraBytes, hpre]
    rw [State.effectiveAddress_ripRel (by simp [hpre]), hlen, hrip]
    decide

/-! ### The displacement forms (20_memory.md R45) -/

/-- disp8 is a signed number of dwords. -/
theorem toInt_disp8Amount (d : Byte) : (disp8Amount d).toInt = 4 * d.toInt := by
  have hlo := d.le_toInt
  have hhi := d.toInt_lt
  have hfour : (4#64).toInt = 4 := rfl
  rw [disp8Amount, BitVec.toInt_mul, BitVec.toInt_signExtend_of_le (by decide), hfour, Int.mul_comm]
  apply Int.bmod_eq_of_le <;> omega

/-- disp32 is a signed number of bytes. -/
theorem toInt_disp32Amount (d : Dword) : (disp32Amount d).toInt = d.toInt := BitVec.toInt_signExtend_of_le (by decide)

/-- The disp8 an assembler tries for a displacement: a quarter of it, in 8 bits. -/
def quarter (d : Dword) : Byte := (d.sshiftRight 2).setWidth 8

theorem toInt_quarter (d : Dword) : (quarter d).toInt = (d.toInt / 4).bmod 256 := by
  rw [quarter, ← BitVec.signExtend_eq_setWidth_of_le _ (by decide), BitVec.toInt_signExtend_eq_toInt_bmod_of_le _ (by decide),
    BitVec.toInt_sshiftRight, Int.shiftRight_eq_div_pow]
  rfl

/-- `disp8Fits` tries the quarter: it fits when it gives the displacement back. -/
theorem disp8Fits_iff_quarter {d : Dword} : disp8Fits d = true ↔ 4 * (quarter d).toInt = d.toInt := by
  have hlo := (quarter d).le_toInt
  have hhi := (quarter d).toInt_lt
  have hback : ((quarter d).signExtend 32 <<< 2).toInt = 4 * (quarter d).toInt := by
    have hfour : (BitVec.twoPow 32 2).toInt = 4 := rfl
    rw [BitVec.shiftLeft_eq_mul_twoPow, BitVec.toInt_mul, BitVec.toInt_signExtend_of_le (by decide), hfour, Int.mul_comm]
    apply Int.bmod_eq_of_le <;> omega
  rw [← hback, BitVec.toInt_inj]
  exact beq_iff_eq

/-- disp8 holds the multiples of 4 from -512 to 508. -/
theorem disp8Fits_iff {d : Dword} : disp8Fits d = true ↔ ∃ k : Int, -128 ≤ k ∧ k ≤ 127 ∧ d.toInt = 4 * k := by
  rw [disp8Fits_iff_quarter]
  constructor
  · intro h
    have hlo := (quarter d).le_toInt
    have hhi := (quarter d).toInt_lt
    exact ⟨_, by omega, by omega, h.symm⟩
  · rintro ⟨k, hlo, hhi, hd⟩
    have hquarter : (quarter d).toInt = k := by
      rw [toInt_quarter, hd, Int.mul_ediv_cancel_left k (by decide)]
      apply Int.bmod_eq_of_le <;> omega
    rw [hquarter, hd]

/-- Where disp8 fits it stands for the same amount as disp32. -/
theorem disp8Amount_quarter {d : Dword} (h : disp8Fits d = true) : disp8Amount (quarter d) = disp32Amount d := by
  rw [← BitVec.toInt_inj, toInt_disp8Amount, toInt_disp32Amount, disp8Fits_iff_quarter.mp h]

/-- What does not fit disp8 takes disp32. -/
theorem assembleMem_of_not_fits {d : Dword} (h : disp8Fits d = false) (c : Common) (b : Base) :
    assembleMem c b d = .vrangessMemDisp32 c b d := by
  have hd : d ≠ 0#32 := by
    rintro rfl
    exact absurd h (by decide)
  rw [assembleMem, if_neg (fun h0 => hd h0.1), if_neg (by simp [h])]

/-- The row an assembler picks does not change the operand. -/
theorem sourceOf_assembleMem (c : Common) (b : Base) (d : Dword) :
    sourceOf (assembleMem c b d) = .mem (baseOperand b (disp32Amount d)) := by
  cases hfit : disp8Fits d with
  | false => rw [assembleMem_of_not_fits hfit, sourceOf]
  | true =>
    by_cases hzero : d = 0#32 ∧ b.needsDisp = false
    · rw [assembleMem, if_pos hzero, sourceOf, mem00Operand_toMem00, hzero.1]
      rfl
    · rw [assembleMem, if_neg hzero, if_pos hfit, ← disp8Amount_quarter hfit]
      rfl

/-- Settles O10. -/
theorem compressedDisplacement : Obligations.CompressedDisplacement :=
  ⟨fun s b _ len => s.effectiveAddress_baseOperand List.not_mem_nil len b _,
    fun s b _ len => s.effectiveAddress_baseOperand List.not_mem_nil len b _,
    toInt_disp8Amount _, toInt_disp8Amount _, toInt_disp8Amount _, toInt_disp8Amount _,
    fun _ => disp8Fits_iff, fun c b _ h => assembleMem_of_not_fits h c b, sourceOf_assembleMem⟩

/-! ### Segments and the address size (20_memory.md R47) -/

theorem State.segBase_eq_zero {pre : List Prefix} (hfs : Prefix.fs ∉ pre) (hgs : Prefix.gs ∉ pre) (s : State) :
    s.segBase pre = 0#64 := by
  rw [State.segBase, segOverride_eq_none.mpr ⟨hfs, hgs⟩]

theorem State.segBase_of_fs {pre : List Prefix} (h : segOverride pre = some .fs) (s : State) : s.segBase pre = s.fsBase := by
  rw [State.segBase, h]

theorem State.segBase_of_gs {pre : List Prefix} (h : segOverride pre = some .gs) (s : State) : s.segBase pre = s.gsBase := by
  rw [State.segBase, h]

/-- FS without GS, or GS without FS, among the prefixes is the override. -/
theorem segOverride_of_fs {pre : List Prefix} (hfs : Prefix.fs ∈ pre) (hgs : Prefix.gs ∉ pre) : segOverride pre = some .fs := by
  cases h : segOverride pre with
  | none => exact absurd hfs (segOverride_eq_none.mp h).1
  | some o =>
    obtain ⟨rfl, -⟩ | ⟨-, hmem⟩ := segOverride_mem h
    · rfl
    · exact absurd hmem hgs

theorem segOverride_of_gs {pre : List Prefix} (hgs : Prefix.gs ∈ pre) (hfs : Prefix.fs ∉ pre) : segOverride pre = some .gs := by
  cases h : segOverride pre with
  | none => exact absurd hgs (segOverride_eq_none.mp h).2
  | some o =>
    obtain ⟨-, hmem⟩ | ⟨rfl, -⟩ := segOverride_mem h
    · exact absurd hmem hfs
    · rfl

/-- FS or GS with neither of them after it is the override. -/
theorem segOverride_last {p : Prefix} {o : SegOverride} (hp : prefixSegment p = some o) {post : List Prefix}
    (hfs : Prefix.fs ∉ post) (hgs : Prefix.gs ∉ post) (pre : List Prefix) : segOverride (pre ++ p :: post) = some o := by
  rw [segOverride_append, segOverride_cons, segOverride_eq_none.mpr ⟨hfs, hgs⟩, hp]
  rfl

/-- What selects no segment and is not 67h changes no address, wherever it stands among the prefixes. -/
theorem State.linearAddress_insert {p : Prefix} (hseg : prefixSegment p = none) (hsize : p ≠ .addr32) (s : State) (m : MemOperand)
    (pre post : List Prefix) (len : Nat) : s.linearAddress m (pre ++ p :: post) len = s.linearAddress m (pre ++ post) len := by
  have hoverride : segOverride (pre ++ p :: post) = segOverride (pre ++ post) := by
    rw [segOverride_append, segOverride_append, segOverride_cons, hseg, Option.or_none]
  have haddr32 : hasAddr32 (pre ++ p :: post) = hasAddr32 (pre ++ post) := by
    rw [Bool.eq_iff_iff, hasAddr32_iff, hasAddr32_iff]
    simp [hsize.symm]
  simp only [State.linearAddress, State.segBase, State.effectiveAddress, hoverride, haddr32]

/-- The low half of the index's part is a 32-bit shift of the low half of the register. -/
theorem State.setWidth_indexPart (s : State) (m : MemOperand) :
    (s.indexPart m).setWidth 32 = m.index.elim 0#32 fun r => (s.gprAt r).setWidth 32 <<< m.scale.toNat := by
  cases h : m.index with
  | none => rw [s.indexPart_of_index_none h]; rfl
  | some r => rw [s.indexPart_of_index_some h, BitVec.setWidth_shiftLeft_of_le (by decide)]; rfl

/-- Settles O13: the override is the last FS or GS among the prefixes, and taking the low half commutes with the sum. -/
theorem linearAddressSegments : Obligations.LinearAddressSegments := by
  intro s m pre len
  refine ⟨rfl, fun hfs hgs => s.segBase_eq_zero hfs hgs, fun hfs hgs => s.segBase_of_fs (segOverride_of_fs hfs hgs),
    fun hgs hfs => s.segBase_of_gs (segOverride_of_gs hgs hfs), fun post hfs hgs => ?_, fun p post hp => ?_, fun h => ?_⟩
  · exact ⟨s.segBase_of_fs (segOverride_last rfl hfs hgs pre), s.segBase_of_gs (segOverride_last rfl hfs hgs pre)⟩
  · rcases hp with rfl | rfl | rfl | rfl <;> exact s.linearAddress_insert rfl (by decide) m pre post len
  · have hlow : 32 ≤ 64 := by decide
    rw [s.effectiveAddress_of_mem h, BitVec.setWidth_add _ _ hlow, BitVec.setWidth_add _ _ hlow, s.setWidth_indexPart]
    cases m.index <;> rfl

/-! ### Reads of several bytes (20_memory.md R41) -/

theorem Memory.read4_of_reads {m : Memory} {a : Nat} {b0 b1 b2 b3 : Byte} (h0 : Memory.read m a = some b0)
    (h1 : Memory.read m (a + 1) = some b1) (h2 : Memory.read m (a + 2) = some b2) (h3 : Memory.read m (a + 3) = some b3) :
    Memory.read4 m a = some (b3 ++ b2 ++ b1 ++ b0) := by
  rw [Memory.read4, h0, h1, h2, h3]
  rfl

/-- Bytes put at rising addresses leave the addresses below as they were. -/
theorem Memory.read_writeBytes_of_lt {m : Memory} {a a' : Nat} {bs : List Byte} (hm : Memory.wf m)
    (ha : a + bs.length ≤ addressSpace) (hlt : a' < a) : Memory.read (Memory.writeBytes m a bs) a' = Memory.read m a' := by
  induction bs generalizing m a with
  | nil => rfl
  | cons b bs ih =>
    rw [List.length_cons] at ha
    rw [Memory.writeBytes, ih (Memory.wf_write hm (by omega)) (by omega) (by omega), Memory.read_write m a a' b hm.1,
      if_neg (by omega)]

/-- Byte `k` of the bytes put at `a` is read at `a + k`. -/
theorem Memory.read_writeBytes {m : Memory} {a : Nat} {bs : List Byte} (hm : Memory.wf m)
    (ha : a + bs.length ≤ addressSpace) (k : Nat) (hk : k < bs.length) :
    Memory.read (Memory.writeBytes m a bs) (a + k) = some bs[k] := by
  induction bs generalizing m a k with
  | nil => exact absurd hk (Nat.not_lt_zero k)
  | cons b bs ih =>
    rw [List.length_cons] at ha hk
    have hwf := Memory.wf_write (b := b) hm (show a < addressSpace by omega)
    rw [Memory.writeBytes]
    cases k with
    | zero =>
      have hbelow : Memory.read (Memory.writeBytes (m.write a b) (a + 1) bs) a = Memory.read (m.write a b) a :=
        Memory.read_writeBytes_of_lt hwf (by omega) (by omega)
      change Memory.read _ a = some b
      rw [hbelow, Memory.read_write m a a b hm.1, if_pos rfl]
    | succ k =>
      rw [show a + (k + 1) = a + 1 + k by omega, ih hwf (by omega) k (by omega), List.getElem_cons_succ]

/-- The 4-byte read sees four single-byte stores. -/
theorem Memory.read4_writeBytes {m : Memory} {a : Nat} (hm : Memory.wf m) (ha : a + 3 < addressSpace) (b0 b1 b2 b3 : Byte) :
    Memory.read4 (Memory.writeBytes m a [b0, b1, b2, b3]) a = some (b3 ++ b2 ++ b1 ++ b0) := by
  have hread := Memory.read_writeBytes (bs := [b0, b1, b2, b3]) hm ha
  exact Memory.read4_of_reads (hread 0 (by simp)) (hread 1 (by simp)) (hread 2 (by simp)) (hread 3 (by simp))

/-- Settles O15. -/
theorem littleEndianBytes : Obligations.LittleEndianBytes := by
  refine ⟨fun s la b0 b1 b2 b3 hc h0 h1 h2 h3 => ?_, fun m a b0 b1 b2 b3 hm ha => Memory.read4_writeBytes hm ha b0 b1 b2 b3,
    fun _ _ _ _ _ => rfl, fun d => readDisp32_dispBytes d [], ?_⟩
  · rw [State.memRead4, if_pos hc]
    exact Memory.read4_of_reads h0 h1 h2 h3
  · exact Memory.read4_writeBytes reset_mem_wf (by decide) _ _ _ _

/-! ### The masked-off operand (20_memory.md R49) -/

/-- When a memory operand with the mask bit 0 is refused. -/
theorem skipSource_mem_refused {m : MemOperand} {pre : List Prefix} {n : Nat} {s : State}
    (hpolicy : s.cfg.faultSuppression = .conservative) (hread : s.memRead4 (s.linearAddress m pre n) = none) :
    skipSource (.mem m) pre n s = .refused (.maskedOffUnreadable (s.linearAddress m pre n)) := by
  rw [skipSource, hpolicy, hread]
  rfl

/-- With the mask bit 0, what the operand refuses the instruction refuses. -/
theorem exec_of_skip_refused {i : Instr} {s : State} {r : Refusal} (hr : s.Ready i.common i.length)
    (hk : s.maskBit i.common.mask = false) (h : skipSource (sourceOf i) i.common.pre i.length s = .refused r) :
    exec i s = .refused r := by
  rw [exec_eq, vrangess, gate_eq_next_iff (u := ()) |>.mpr hr, andThen_next, if_neg (by simp [hk]), skip, h, andThen_refused]

/-- Settles O18. -/
theorem maskedOffMemoryOperand : Obligations.MaskedOffMemoryOperand := by
  intro i s m hr hsrc hk
  refine ⟨fun h => ?_, fun hpolicy hread => ?_⟩
  · refine exec_of_masked hr hk ?_
    rw [hsrc, skipSource_mem]
    exact h.imp_right Option.isSome_iff_ne_none.mpr
  · refine exec_of_skip_refused hr hk ?_
    rw [hsrc]
    exact skipSource_mem_refused hpolicy hread

/-! ### What an execution, a step and a run leave as it was -/

theorem State.zmmAt_wrote_of_ne {r : VReg} {c : Common} (h : r ≠ c.dest) (s : State) (v : Dword) (ie de : Bool) (n : Nat) :
    (s.wrote c v ie de n).zmmAt r = s.zmmAt r := by
  rw [wrote_eq, State.zmmAt_complete, if_neg h, State.zmmAt_setFlags]

/-- Settles O39: the next state is a `wrote`. -/
theorem nextStateFrame : Obligations.NextStateFrame := by
  intro i s t h
  obtain ⟨-, -, hbits, -⟩ := mxcsrUse i s t h
  obtain ⟨-, v, ie, de, rfl, -⟩ := exec_eq_next h
  exact ⟨rfl, fun r hr => s.zmmAt_wrote_of_ne hr v ie de i.length, hbits, fun _ => rfl⟩

/-- `t` differs from `s` in vector registers, set flags IE and DE, and the instruction pointer at most. -/
structure KeepsRest (s t : State) : Prop where
  frame : t = { s with zmm := t.zmm, mxcsr := t.mxcsr, rip := t.rip }
  mxcsr : ∀ b, 2 ≤ b → t.mxcsr.getLsbD b = s.mxcsr.getLsbD b
  ie : s.ieFlag = true → t.ieFlag = true
  de : s.deFlag = true → t.deFlag = true

theorem KeepsRest.refl (s : State) : KeepsRest s s := ⟨rfl, fun _ _ => rfl, id, id⟩

theorem KeepsRest.trans {s t u : State} (h : KeepsRest s t) (h' : KeepsRest t u) : KeepsRest s u where
  frame := by rw [h'.frame, h.frame]
  mxcsr b hb := (h'.mxcsr b hb).trans (h.mxcsr b hb)
  ie := h'.ie ∘ h.ie
  de := h'.de ∘ h.de

theorem exec_keepsRest {i : Instr} {s t : State} (h : exec i s = .next t) : KeepsRest s t := by
  obtain ⟨hie, hde, hbits, -⟩ := mxcsrUse i s t h
  exact ⟨(nextStateFrame i s t h).1, hbits, hie, hde⟩

theorem step_keepsRest {s t : State} (h : step s = .next t) : KeepsRest s t := by
  cases hr : s.runComplete with
  | true =>
    obtain rfl := Host.Outcome.next.inj ((step_of_complete hr).symm.trans h)
    exact .refl s
  | false =>
    obtain ⟨-, i, rest, -, hexec⟩ := step_eq_next hr h
    exact exec_keepsRest hexec

/-- What holds of no step at all, of two stretches of a run if of each, and of every step, holds of every run. -/
theorem run_induction {R : State → State → Prop} (hrefl : ∀ s, R s s) (htrans : ∀ {s t u}, R s t → R t u → R s u)
    (hstep : ∀ {s t}, step s = .next t → R s t) {n : Nat} {s t : State} (h : Sys2Proof.core.run n s = .next t) : R s t := by
  induction n generalizing s with
  | zero =>
    obtain rfl := Host.Outcome.next.inj h
    exact hrefl s
  | succ n ih =>
    rw [run_succ] at h
    obtain ⟨s', hs, hrun⟩ := andThen_eq_next.mp h
    exact htrans (hstep hs) (ih hrun)

/-- Settles O56, by induction on the number of steps. -/
theorem runsKeepEverythingElse : Obligations.RunsKeepEverythingElse := by
  intro n s t h
  obtain ⟨hframe, hbits, hie, hde⟩ := run_induction KeepsRest.refl KeepsRest.trans step_keepsRest h
  exact ⟨hframe, hbits, hie, hde⟩

end Sys2Proof.Machine

/-! The encoding (30_encoding.md): the fixed bits of the payload, the stages of the decoder by equation and by inversion, and the
statements about encodings. -/

namespace Sys2Proof

/-! ### The fixed bits of the payload (R62, R63) -/

/-- P0[3:0] = 0011b is `mm` = 11b under reserved bits 00b. -/
theorem p0_fields {p0 : Byte} (h : p0.extractLsb' 0 4 = 0b0011#4) : p0Map p0 = 0b11#2 ∧ p0Reserved p0 = 0b00#2 := by
  have hmap := BitVec.extractLsb'_extractLsb'_of_le (x := p0) (show 0 + 2 ≤ 4 by decide)
  have hres := BitVec.extractLsb'_extractLsb'_of_le (x := p0) (show 2 + 2 ≤ 4 by decide)
  rw [h] at hmap hres
  exact ⟨hmap.symm, hres.symm⟩

/-- P1[2:0] = 101b is `pp` = 01b under the fixed 1. -/
theorem p1_fields {p1 : Byte} (h : p1.extractLsb' 0 3 = 0b101#3) : p1Pp p1 = 0b01#2 ∧ p1Fixed p1 = true := by
  have hpp := BitVec.extractLsb'_extractLsb'_of_le (x := p1) (show 0 + 2 ≤ 3 by decide)
  have hfixed : (p1.extractLsb' 0 3).getLsbD 2 = p1.getLsbD 2 := BitVec.getLsbD_extractLsb' ..
  rw [h] at hpp hfixed
  exact ⟨hpp.symm, hfixed.symm⟩

/-! ### Prefixes (R61, R85 steps (1), (2)) -/

/-- Permitted prefixes are not forbidden. -/
theorem prefixOf_eq_none_of_forbidden {f : Byte} (h : forbiddenPrefix f = true) : prefixOf f = none := by
  cases hp : prefixOf f with
  | none => rfl
  | some p =>
    rw [prefixOf_eq_some hp] at h
    revert h
    cases p <;> decide

theorem decodeFrom_permitted {b : Byte} {p : Prefix} (h : prefixOf b = some p) (bad : Bool) (pre : List Prefix) (bs : List Byte) :
    decodeFrom bad pre (b :: bs) = decodeFrom bad (pre ++ [p]) bs := by
  rw [decodeFrom, h]

theorem decodeFrom_forbidden {f : Byte} (h : forbiddenPrefix f = true) (bad : Bool) (pre : List Prefix) (bs : List Byte) :
    decodeFrom bad pre (f :: bs) = decodeFrom true pre bs := by
  simp [decodeFrom, prefixOf_eq_none_of_forbidden h, h]

theorem decodeFrom_evex (bad : Bool) (pre : List Prefix) (bs : List Byte) :
    decodeFrom bad pre (0x62#8 :: bs) = if bad then .ud .legacyPrefix else decodeEvex pre bs := rfl

theorem decodeFrom_other {b : Byte} (hp : prefixOf b = none) (hf : forbiddenPrefix b = false) (he : b ≠ 0x62#8) (bad : Bool)
    (pre : List Prefix) (bs : List Byte) : decodeFrom bad pre (b :: bs) = .refuse .notVrangess := by
  simp [decodeFrom, hp, hf, evexByte, he]

/-- The four things a byte can be to step (1): among the permitted prefixes, among the forbidden ones, the escape byte, or none of
these. -/
theorem byte_cases (b : Byte) :
    (∃ p, prefixOf b = some p) ∨ forbiddenPrefix b = true ∨ b = 0x62#8 ∨
      (prefixOf b = none ∧ forbiddenPrefix b = false ∧ b ≠ 0x62#8) := by
  cases hp : prefixOf b with
  | some p => exact .inl ⟨p, rfl⟩
  | none =>
    cases hf : forbiddenPrefix b with
    | true => exact .inr (.inl rfl)
    | false => by_cases he : b = 0x62#8 <;> simp [he]

/-! ### The payload (R85 steps (3), (4)) -/

theorem decodeEvex_notVrangess {p0 p1 : Byte} (h : p0Map p0 ≠ 0b11#2 ∨ p1Pp p1 ≠ 0b01#2 ∨ p1W p1 = true)
    (pre : List Prefix) (p2 : Byte) (bs : List Byte) : decodeEvex pre (p0 :: p1 :: p2 :: bs) = .refuse .notVrangess := if_pos h

section Payload

variable {p0 p1 : Byte} (hmap : p0Map p0 = 0b11#2) (hpp : p1Pp p1 = 0b01#2) (hw : p1W p1 = false)
include hmap hpp hw

theorem decodeEvex_reservedP0 (hres : p0Reserved p0 ≠ 0b00#2) (pre : List Prefix) (p2 : Byte) (bs : List Byte) :
    decodeEvex pre (p0 :: p1 :: p2 :: bs) = .ud .reservedP0 := by
  simp [decodeEvex, hmap, hpp, hw, hres]

variable (hres : p0Reserved p0 = 0b00#2)
include hres

theorem decodeEvex_fixedP1 (hfixed : p1Fixed p1 = false) (pre : List Prefix) (p2 : Byte) (bs : List Byte) :
    decodeEvex pre (p0 :: p1 :: p2 :: bs) = .ud .fixedP1 := by
  simp [decodeEvex, hmap, hpp, hw, hres, hfixed]

theorem decodeEvex_opcode (hfixed : p1Fixed p1 = true) {op : Byte} (hop : op ≠ 0x51#8) (pre : List Prefix) (p2 : Byte)
    (bs : List Byte) : decodeEvex pre (p0 :: p1 :: p2 :: op :: bs) = .refuse .notVrangess := by
  simp [decodeEvex, hmap, hpp, hw, hres, hfixed, opcodeByte, hop]

end Payload

/-- Bytes whose payload has VRANGESS's fixed bits are decoded from ModRM on. -/
theorem decode_payload {p0 p1 : Byte} (h0 : p0.extractLsb' 0 4 = 0b0011#4) (hw : p1.getLsbD 7 = false)
    (h1 : p1.extractLsb' 0 3 = 0b101#3) (pre : List Prefix) (p2 m : Byte) (bs : List Byte) :
    decode (pre.map prefixByte ++ 0x62#8 :: p0 :: p1 :: p2 :: 0x51#8 :: m :: bs) = decodeModrm pre p0 p1 p2 m bs := by
  obtain ⟨hmap, hres⟩ := p0_fields h0
  obtain ⟨hpp, hfixed⟩ := p1_fields h1
  rw [decode_prefixes_evex, decodeEvex_modrm hmap hpp hw hres hfixed]

/-- An instruction comes from a payload with an opcode and a ModRM byte. -/
theorem decodeEvex_eq_ok {pre : List Prefix} {bs rest : List Byte} {i : Instr} (h : decodeEvex pre bs = .ok i rest) :
    ∃ p0 p1 p2 op m bs', bs = p0 :: p1 :: p2 :: op :: m :: bs' ∧ decodeModrm pre p0 p1 p2 m bs' = .ok i rest := by
  rcases bs with _ | ⟨p0, _ | ⟨p1, _ | ⟨p2, bs⟩⟩⟩
  case cons.cons.cons =>
    unfold decodeEvex at h
    dsimp only at h
    split at h
    · cases h
    split at h
    · cases h
    split at h
    · cases h
    rcases bs with _ | ⟨op, bs⟩
    · cases h
    dsimp only at h
    split at h
    · cases h
    rcases bs with _ | ⟨m, bs⟩
    · cases h
    exact ⟨p0, p1, p2, op, m, bs, rfl, h⟩
  all_goals cases h

/-- Two payloads with the same first three fields are decoded alike when ModRM and what follows it are. -/
theorem decodeEvex_congr {pre : List Prefix} {p0 q0 p1 p2 q2 : Byte} {bs : List Byte} (hmap : p0Map p0 = p0Map q0)
    (hres : p0Reserved p0 = p0Reserved q0)
    (h : ∀ m bs', bs = 0x51#8 :: m :: bs' → decodeModrm pre p0 p1 p2 m bs' = decodeModrm pre q0 p1 q2 m bs') :
    decodeEvex pre (p0 :: p1 :: p2 :: bs) = decodeEvex pre (q0 :: p1 :: q2 :: bs) := by
  rcases bs with _ | ⟨op, _ | ⟨m, bs'⟩⟩
  · simp only [decodeEvex, hmap, hres]
  · simp only [decodeEvex, hmap, hres]
  · by_cases hop : op = 0x51#8
    · simp only [decodeEvex, hmap, hres, h m bs' (by rw [hop])]
    · simp [decodeEvex, hmap, hres, opcodeByte, hop]

/-! ### ModRM (R85 step (5)) -/

theorem decodeModrm_broadcast {p2 m : Byte} (h : field76 m ≠ 0b11#2 ∧ p2B p2 = true) (pre : List Prefix) (p0 p1 : Byte)
    (bs : List Byte) : decodeModrm pre p0 p1 p2 m bs = .ud .broadcast := by
  rw [decodeModrm, if_pos h]

section Modrm

variable {p2 m : Byte} (hb : ¬ (field76 m ≠ 0b11#2 ∧ p2B p2 = true)) (pre : List Prefix) (p0 p1 : Byte) (bs : List Byte)
include hb

theorem decodeModrm_zeroingNoMask (hz : p2Z p2 = true ∧ p2Mask p2 = 0#3) :
    decodeModrm pre p0 p1 p2 m bs = .ud .zeroingNoMask := by
  rw [decodeModrm, if_neg hb, if_pos hz]

variable (hz : ¬ (p2Z p2 = true ∧ p2Mask p2 = 0#3))
include hz

theorem decodeModrm_vectorLength11 (hll : p2B p2 = false ∧ p2LL p2 = 0b11#2) :
    decodeModrm pre p0 p1 p2 m bs = .refuse .vectorLength11 := by
  rw [decodeModrm, if_neg hb, if_neg hz, if_pos hll]

theorem decodeModrm_tail (hll : ¬ (p2B p2 = false ∧ p2LL p2 = 0b11#2)) :
    decodeModrm pre p0 p1 p2 m bs = decodeTail pre p0 p1 p2 m bs := by
  rw [decodeModrm, if_neg hb, if_neg hz, if_neg hll]

end Modrm

/-- An instruction passed the check of `{z}`, and comes from SIB, displacement and imm8. -/
theorem decodeModrm_eq_ok {pre : List Prefix} {p0 p1 p2 m : Byte} {bs rest : List Byte} {i : Instr}
    (h : decodeModrm pre p0 p1 p2 m bs = .ok i rest) :
    ¬ (p2Z p2 = true ∧ p2Mask p2 = 0#3) ∧ decodeTail pre p0 p1 p2 m bs = .ok i rest := by
  unfold decodeModrm at h
  split at h
  · cases h
  · split at h
    · cases h
    · rename_i hz
      split at h
      · cases h
      · exact ⟨hz, h⟩

theorem Common.wellFormed_iff {c : Common} : c.wellFormed = true ↔ ¬ (c.z = true ∧ c.mask = 0#3) := by
  simp [Common.wellFormed, ← Bool.not_eq_true, imp_iff_not_or]

/-! ### SIB, displacement, imm8 and the length (R85 steps (6) to (9)) -/

theorem decodeTail_of_readForm {p0 m imm8 : Byte} {bs rest : List Byte} {form : Form}
    (h : readForm (extX p0) (extB p0) (field76 m) (field20 m) bs = some (form, imm8 :: rest)) (pre : List Prefix) (p1 p2 : Byte) :
    decodeTail pre p0 p1 p2 m bs = checkLength (instrOf (commonOf pre p0 p1 p2 m imm8) (p2B p2) form) rest := by
  rw [decodeTail, h]

theorem checkLength_of_le {i : Instr} (h : i.length ≤ maxLength) (rest : List Byte) : checkLength i rest = .ok i rest :=
  if_pos h

theorem checkLength_of_lt {i : Instr} (h : maxLength < i.length) (rest : List Byte) : checkLength i rest = .overlong i :=
  if_neg (Nat.not_le.mpr h)

theorem checkLength_eq_ok {i j : Instr} {rest rest' : List Byte} (h : checkLength i rest = .ok j rest') :
    i.length ≤ maxLength ∧ i = j ∧ rest = rest' := by
  unfold checkLength at h
  split at h
  · rename_i hle
    cases h
    exact ⟨hle, rfl, rfl⟩
  · cases h

@[simp] theorem common_instrOf (c : Common) (sae : Bool) (form : Form) : (instrOf c sae form).common = c := by
  cases form <;> cases sae <;> rfl

/-- No operand takes more than five bytes. -/
theorem Instr.length_le (i : Instr) : i.length ≤ i.common.pre.length + 12 := by
  have hbase : ∀ b : Base, b.extraBytes ≤ 1 := fun b => by cases b <;> simp [Base.extraBytes]
  have hmem : ∀ m : Mem00, m.extraBytes ≤ 5 := fun m => by cases m <;> simp [Mem00.extraBytes]
  cases i with
  | vrangessReg c r => simp only [Instr.length, Instr.common]; omega
  | vrangessRegSae c r => simp only [Instr.length, Instr.common]; omega
  | vrangessMem c m => have := hmem m; simp only [Instr.length, Instr.common]; omega
  | vrangessMemDisp8 c b d => have := hbase b; simp only [Instr.length, Instr.common]; omega
  | vrangessMemDisp32 c b d => have := hbase b; simp only [Instr.length, Instr.common]; omega

/-! ### The third operand, a row of the addressing table at a time (20_memory.md R44) -/

section Rows

variable (x b : Bool) {rm : BitVec 3} (bs : List Byte)

theorem readDisp32_cons (d0 d1 d2 d3 : Byte) :
    readDisp32 (d0 :: d1 :: d2 :: d3 :: bs) = some (d3 ++ d2 ++ d1 ++ d0, bs) := rfl

theorem readBase_reg (h : rm ≠ 0b100#3) : readBase x b rm bs = some (.reg (extend b rm), bs) := if_neg h

theorem readBase_sib (h : rm = 0b100#3) (sib : Byte) :
    readBase x b rm (sib :: bs) = some (.sib (extend b (field20 sib)) (extend x (field53 sib)) (field76 sib), bs) := if_pos h

theorem readMem00_reg (h4 : rm ≠ 0b100#3) (h5 : rm ≠ 0b101#3) : readMem00 x b rm bs = some (.reg (extend b rm), bs) :=
  (if_neg h4).trans (if_neg h5)

theorem readMem00_ripRel (h : rm = 0b101#3) :
    readMem00 x b rm bs = (readDisp32 bs).map fun (d, rest) => (.ripRel d, rest) := by
  subst h
  simp only [readMem00, if_neg (show ¬ 0b101#3 = 0b100#3 by decide), if_pos]
  cases readDisp32 bs <;> rfl

theorem readMem00_sib (h : rm = 0b100#3) {sib : Byte} (hs : field20 sib ≠ 0b101#3) :
    readMem00 x b rm (sib :: bs) = some (.sib (extend b (field20 sib)) (extend x (field53 sib)) (field76 sib), bs) := by
  simp only [readMem00, if_pos h, if_neg hs]

theorem readMem00_noBase (h : rm = 0b100#3) {sib : Byte} (hs : field20 sib = 0b101#3) :
    readMem00 x b rm (sib :: bs) =
      (readDisp32 bs).map fun (d, rest) => (.noBase (extend x (field53 sib)) (field76 sib) d, rest) := by
  simp only [readMem00, if_pos h, if_pos hs]
  cases readDisp32 bs <;> rfl

variable (rm)

theorem readForm_reg {mod : BitVec 2} (h : mod = 0b11#2) : readForm x b mod rm bs = some (.reg (src2Of x b rm), bs) := if_pos h

variable {x b rm bs}

theorem readForm_mem_iff {mod : BitVec 2} (h : mod = 0b00#2) {form : Form} {rest : List Byte} :
    readForm x b mod rm bs = some (form, rest) ↔ ∃ m, readMem00 x b rm bs = some (m, rest) ∧ form = .mem m := by
  subst h
  rcases hm : readMem00 x b rm bs with _ | ⟨m, bs'⟩ <;> simp [readForm, hm, eq_comm, and_comm]

theorem readForm_disp8_iff {mod : BitVec 2} (h : mod = 0b01#2) {form : Form} {rest : List Byte} :
    readForm x b mod rm bs = some (form, rest) ↔
      ∃ base d, readBase x b rm bs = some (base, d :: rest) ∧ form = .disp8 base d := by
  subst h
  rcases hb : readBase x b rm bs with _ | ⟨base, _ | ⟨d, bs'⟩⟩ <;> simp [readForm, hb, eq_comm, and_comm]

theorem readForm_disp32_iff {mod : BitVec 2} (h : mod = 0b10#2) {form : Form} {rest : List Byte} :
    readForm x b mod rm bs = some (form, rest) ↔
      ∃ base d bs', readBase x b rm bs = some (base, bs') ∧ readDisp32 bs' = some (d, rest) ∧ form = .disp32 base d := by
  subst h
  rcases hb : readBase x b rm bs with _ | ⟨base, bs'⟩
  · simp [readForm, hb]
  · rcases hd : readDisp32 bs' with _ | ⟨d, rest'⟩ <;> simp [readForm, hb, hd, eq_comm, and_comm]

end Rows

/-! ### Decoding what the encoder writes -/

theorem readForm_regCode (r : VReg) (bs : List Byte) :
    readForm (regCode r).x (regCode r).b (regCode r).mod (regCode r).rm ((regCode r).tail ++ bs) = some (.reg r, bs) := by
  have h := readForm_reg (regCode r).x (regCode r).b (regCode r).rm bs (mod := (regCode r).mod) rfl
  rwa [show src2Of (regCode r).x (regCode r).b (regCode r).rm = r from src2Of_regCode r] at h

/-- The decoder reads back every operand the encoder writes; what it says then is the length check's. -/
theorem decode_encode {i : Instr} (hc : i.common.wellFormed = true) (ho : i.operandWellFormed = true) (rest : List Byte) :
    decode (encode i ++ rest) = checkLength i rest := by
  cases i with
  | vrangessReg c r => exact decode_encodeWith c false (regCode r) (.reg r) rest hc (by simp) (readForm_regCode r _)
  | vrangessRegSae c r => exact decode_encodeWith c true (regCode r) (.reg r) rest hc (fun _ => rfl) (readForm_regCode r _)
  | vrangessMem c m =>
    exact decode_encodeWith c false _ (.mem m) rest hc (by simp)
      ((readForm_mem_iff m.code_mod).mpr ⟨m, readMem00_code m _ ho, rfl⟩)
  | vrangessMemDisp8 c b d =>
    exact decode_encodeWith c false _ (.disp8 b d) rest hc (by simp)
      ((readForm_disp8_iff (b.code_mod _ _)).mpr ⟨b, d, readBase_code b _ [d] _ ho, rfl⟩)
  | vrangessMemDisp32 c b d =>
    exact decode_encodeWith c false _ (.disp32 b d) rest hc (by simp)
      ((readForm_disp32_iff (b.code_mod _ _)).mpr
        ⟨b, d, _, readBase_code b _ (dispBytes d) _ ho, readDisp32_dispBytes d _, rfl⟩)

theorem Instr.wellFormed_iff {i : Instr} :
    i.wellFormed = true ↔ i.common.wellFormed = true ∧ i.operandWellFormed = true ∧ i.length ≤ maxLength := by
  simp only [Instr.wellFormed, Bool.and_eq_true, decide_eq_true_iff, and_assoc]

/-- Settles O1: the operands are read back, and a well-formed instruction passes the length check. -/
theorem decodeInvertsEncode : Obligations.DecodeInvertsEncode := by
  intro i rest h
  obtain ⟨hc, ho, hlen⟩ := Instr.wellFormed_iff.mp h
  rw [decode_encode hc ho, checkLength_of_le hlen]

/-! ### What the decoder accepts -/

/-- `bs` is `n` bytes and then `rest`. -/
def Consumes (n : Nat) (bs rest : List Byte) : Prop := ∃ front, bs = front ++ rest ∧ front.length = n

namespace Consumes

theorem refl (bs : List Byte) : Consumes 0 bs bs := ⟨[], rfl, rfl⟩

theorem cons {n : Nat} {bs rest : List Byte} (b : Byte) (h : Consumes n bs rest) : Consumes (n + 1) (b :: bs) rest := by
  obtain ⟨front, rfl, rfl⟩ := h
  exact ⟨b :: front, rfl, rfl⟩

theorem trans {m n : Nat} {as bs cs : List Byte} (h : Consumes m as bs) (h' : Consumes n bs cs) : Consumes (m + n) as cs := by
  obtain ⟨front, rfl, rfl⟩ := h
  obtain ⟨front', rfl, rfl⟩ := h'
  exact ⟨front ++ front', (List.append_assoc ..).symm, List.length_append⟩

end Consumes

theorem readDisp32_eq_some {bs rest : List Byte} {d : Dword} (h : readDisp32 bs = some (d, rest)) : Consumes 4 bs rest := by
  unfold readDisp32 at h
  split at h
  · cases h
    exact ⟨[_, _, _, _], rfl, rfl⟩
  · cases h

theorem readBase_eq_some {x b : Bool} {rm : BitVec 3} {bs rest : List Byte} {base : Base}
    (h : readBase x b rm bs = some (base, rest)) : base.wellFormed = true ∧ Consumes base.extraBytes bs rest := by
  by_cases h4 : rm = 0b100#3
  · cases bs with
    | nil => simp [readBase, h4] at h
    | cons sib bs =>
      rw [readBase_sib x b bs h4] at h
      cases h
      exact ⟨rfl, (Consumes.refl _).cons sib⟩
  · rw [readBase_reg x b bs h4] at h
    cases h
    refine ⟨?_, .refl _⟩
    rw [Base.wellFormed, lowBits_extend, bne_iff_ne]
    exact h4

theorem readMem00_eq_some {x b : Bool} {rm : BitVec 3} {bs rest : List Byte} {m : Mem00}
    (h : readMem00 x b rm bs = some (m, rest)) : m.wellFormed = true ∧ Consumes m.extraBytes bs rest := by
  by_cases h4 : rm = 0b100#3
  · cases bs with
    | nil => simp [readMem00, h4] at h
    | cons sib bs =>
      by_cases hs : field20 sib = 0b101#3
      · rw [readMem00_noBase x b bs h4 hs, Option.map_eq_some_iff] at h
        obtain ⟨⟨d, rest'⟩, hd, heq⟩ := h
        cases heq
        exact ⟨rfl, (readDisp32_eq_some hd).cons sib⟩
      · rw [readMem00_sib x b bs h4 hs] at h
        cases h
        refine ⟨?_, (Consumes.refl _).cons sib⟩
        rw [Mem00.wellFormed, lowBits_extend, bne_iff_ne]
        exact hs
  · by_cases h5 : rm = 0b101#3
    · rw [readMem00_ripRel x b bs h5, Option.map_eq_some_iff] at h
      obtain ⟨⟨d, rest'⟩, hd, heq⟩ := h
      cases heq
      exact ⟨rfl, readDisp32_eq_some hd⟩
    · rw [readMem00_reg x b bs h4 h5] at h
      cases h
      refine ⟨?_, .refl _⟩
      rw [Mem00.wellFormed, lowBits_extend, Bool.and_eq_true, bne_iff_ne, bne_iff_ne]
      exact ⟨h4, h5⟩

/-- Bytes of SIB and displacement of an operand. -/
def Form.extraBytes : Form → Nat
  | .reg _ => 0
  | .mem m => m.extraBytes
  | .disp8 b _ => b.extraBytes + 1
  | .disp32 b _ => b.extraBytes + 4

theorem length_instrOf (c : Common) (sae : Bool) (form : Form) :
    (instrOf c sae form).length = c.pre.length + 7 + form.extraBytes := by
  cases form with
  | reg r => cases sae <;> rfl
  | mem m => rfl
  | disp8 b d => simp only [instrOf, Instr.length, Form.extraBytes]; omega
  | disp32 b d => simp only [instrOf, Instr.length, Form.extraBytes]; omega

/-- An operand that was read has an encoding, and the bytes read are its SIB and displacement. -/
theorem readForm_eq_some {x b : Bool} {mod : BitVec 2} {rm : BitVec 3} {bs rest : List Byte} {form : Form}
    (h : readForm x b mod rm bs = some (form, rest)) (c : Common) (sae : Bool) :
    (instrOf c sae form).operandWellFormed = true ∧ Consumes form.extraBytes bs rest := by
  have hmod : ∀ k : BitVec 2, k = 0b11#2 ∨ k = 0b00#2 ∨ k = 0b01#2 ∨ k = 0b10#2 := by decide
  rcases hmod mod with h3 | h0 | h1 | h2
  · rw [readForm_reg x b rm bs h3] at h
    cases h
    exact ⟨by cases sae <;> rfl, .refl _⟩
  · obtain ⟨m, hm, rfl⟩ := (readForm_mem_iff h0).mp h
    exact readMem00_eq_some hm
  · obtain ⟨base, d, hbase, rfl⟩ := (readForm_disp8_iff h1).mp h
    obtain ⟨hwf, hbytes⟩ := readBase_eq_some hbase
    exact ⟨hwf, hbytes.trans ((Consumes.refl _).cons d)⟩
  · obtain ⟨base, d, bs', hbase, hd, rfl⟩ := (readForm_disp32_iff h2).mp h
    obtain ⟨hwf, hbytes⟩ := readBase_eq_some hbase
    exact ⟨hwf, hbytes.trans (readDisp32_eq_some hd)⟩

/-- From ModRM on: the instruction is well-formed, and its length counts the prefixes, the six bytes up to ModRM and the bytes
taken after it. -/
theorem decodeModrm_accepts {pre : List Prefix} {p0 p1 p2 m : Byte} {bs rest : List Byte} {i : Instr}
    (h : decodeModrm pre p0 p1 p2 m bs = .ok i rest) :
    i.wellFormed = true ∧ ∃ n, i.length = pre.length + 6 + n ∧ Consumes n bs rest := by
  obtain ⟨hz, h⟩ := decodeModrm_eq_ok h
  cases hread : readForm (extX p0) (extB p0) (field76 m) (field20 m) bs with
  | none => simp [decodeTail, hread] at h
  | some p =>
    obtain ⟨form, _ | ⟨imm8, bs'⟩⟩ := p
    · simp [decodeTail, hread] at h
    · rw [decodeTail_of_readForm hread] at h
      obtain ⟨hlen, rfl, rfl⟩ := checkLength_eq_ok h
      obtain ⟨hoperand, hbytes⟩ := readForm_eq_some hread (commonOf pre p0 p1 p2 m imm8) (p2B p2)
      have hmask : (commonOf pre p0 p1 p2 m imm8).wellFormed = true := Common.wellFormed_iff.mpr hz
      have hpre : (commonOf pre p0 p1 p2 m imm8).pre = pre := rfl
      refine ⟨Instr.wellFormed_iff.mpr ⟨by rwa [common_instrOf], hoperand, hlen⟩, form.extraBytes + 1, ?_,
        hbytes.trans ((Consumes.refl _).cons imm8)⟩
      rw [length_instrOf, hpre]
      omega

theorem decodeEvex_accepts {pre : List Prefix} {bs rest : List Byte} {i : Instr} (h : decodeEvex pre bs = .ok i rest) :
    i.wellFormed = true ∧ ∃ n, i.length = pre.length + 1 + n ∧ Consumes n bs rest := by
  obtain ⟨p0, p1, p2, op, m, bs', rfl, hm⟩ := decodeEvex_eq_ok h
  obtain ⟨hwf, n, hlen, hbytes⟩ := decodeModrm_accepts hm
  exact ⟨hwf, n + 5, by omega, ((((hbytes.cons m).cons op).cons p2).cons p1).cons p0⟩

/-- Once a forbidden byte stands among the prefixes no instruction is accepted. -/
theorem decodeFrom_true_ne_ok (pre : List Prefix) (bs : List Byte) (i : Instr) (rest : List Byte) :
    decodeFrom true pre bs ≠ .ok i rest := by
  induction bs generalizing pre with
  | nil => nofun
  | cons b bs ih =>
    rcases byte_cases b with ⟨p, hp⟩ | hf | rfl | ⟨hp, hf, he⟩
    · rw [decodeFrom_permitted hp]
      exact ih _
    · rw [decodeFrom_forbidden hf]
      exact ih _
    · nofun
    · rw [decodeFrom_other hp hf he]
      nofun

/-- The prefixes read before count towards the length. -/
theorem decodeFrom_accepts {pre : List Prefix} {bs rest : List Byte} {i : Instr} (h : decodeFrom false pre bs = .ok i rest) :
    i.wellFormed = true ∧ ∃ n, i.length = pre.length + n ∧ Consumes n bs rest := by
  induction bs generalizing pre with
  | nil => cases h
  | cons b bs ih =>
    rcases byte_cases b with ⟨p, hp⟩ | hf | rfl | ⟨hp, hf, he⟩
    · rw [decodeFrom_permitted hp] at h
      obtain ⟨hwf, n, hlen, hbytes⟩ := ih h
      rw [List.length_append, List.length_singleton] at hlen
      exact ⟨hwf, n + 1, by omega, hbytes.cons b⟩
    · rw [decodeFrom_forbidden hf] at h
      exact absurd h (decodeFrom_true_ne_ok pre bs i rest)
    · obtain ⟨hwf, n, hlen, hbytes⟩ := decodeEvex_accepts h
      exact ⟨hwf, n + 1, by omega, hbytes.cons _⟩
    · rw [decodeFrom_other hp hf he] at h
      cases h

/-- Settles O2: each stage counts the bytes it takes. -/
theorem decodedTermsAreWellFormed : Obligations.DecodedTermsAreWellFormed := by
  intro bs i rest h
  obtain ⟨hwf, n, hlen, front, hbytes, hfront⟩ := decodeFrom_accepts h
  exact ⟨hwf, front, hbytes, by rw [hfront, hlen, List.length_nil, Nat.zero_add]⟩

/-! ### Fields -/

/-- A valid encoding without legacy prefixes is accepted: it cannot be too long. -/
theorem decode_fields {p0 p1 p2 m imm8 : Byte} {bs rest : List Byte} {form : Form} (h0 : p0.extractLsb' 0 4 = 0b0011#4)
    (hw : p1.getLsbD 7 = false) (h1 : p1.extractLsb' 0 3 = 0b101#3) (hz : ¬ (p2Z p2 = true ∧ p2Mask p2 = 0#3))
    (hb : ¬ (field76 m ≠ 0b11#2 ∧ p2B p2 = true)) (hll : ¬ (p2B p2 = false ∧ p2LL p2 = 0b11#2))
    (hread : readForm (extX p0) (extB p0) (field76 m) (field20 m) bs = some (form, imm8 :: rest)) :
    decode (0x62#8 :: p0 :: p1 :: p2 :: 0x51#8 :: m :: bs) =
      .ok (instrOf (commonOf [] p0 p1 p2 m imm8) (p2B p2) form) rest := by
  have hlen := (instrOf (commonOf [] p0 p1 p2 m imm8) (p2B p2) form).length_le
  rw [common_instrOf] at hlen
  have hpayload := decode_payload h0 hw h1 [] p2 m bs
  rw [List.map_nil, List.nil_append] at hpayload
  rw [hpayload, decodeModrm_tail hb _ _ _ _ hz hll, decodeTail_of_readForm hread,
    checkLength_of_le (hlen.trans (show 0 + 12 ≤ 15 by decide))]

theorem instrOf_reg (c : Common) (sae : Bool) (r : VReg) :
    instrOf c sae (.reg r) = (if sae then Instr.vrangessRegSae else Instr.vrangessReg) c r := by cases sae <;> rfl

/-- Settles O3: the first row of `readForm`, and `b` picks the row of the instruction. -/
theorem registerFieldsDecode : Obligations.RegisterFieldsDecode := by
  intro p0 p1 p2 m imm8 rest h0 hw h1 hm hz hll
  rw [decode_fields h0 hw h1 hz (fun h => h.1 hm) hll (readForm_reg (extX p0) (extB p0) _ _ hm), instrOf_reg]
  rfl

/-- Settles O4: each row of the table is a row of `readForm`. -/
theorem memoryFieldsDecode : Obligations.MemoryFieldsDecode := by
  rintro p0 p1 p2 m imm8 rest c B X h0 hw h1 hz hb hll rfl rfl rfl
  have hdecode : ∀ (form : Form) {bs}, readForm (extX p0) (extB p0) (field76 m) (field20 m) bs = some (form, imm8 :: rest) →
      decode (0x62#8 :: p0 :: p1 :: p2 :: 0x51#8 :: m :: bs) =
        .ok (instrOf (commonOf [] p0 p1 p2 m imm8) false form) rest := fun form _ hread => by
    rw [decode_fields h0 hw h1 hz (fun h => Bool.false_ne_true (hb.symm.trans h.2)) (fun h => hll h.2) hread]
    exact congrArg (fun b => Verdict.ok (instrOf _ b _) rest) hb
  refine ⟨fun hmod h4 h5 => hdecode (.mem (.reg _)) ?_, fun hmod h5 d0 d1 d2 d3 => hdecode (.mem (.ripRel _)) ?_,
    fun hmod h4 sib hs => hdecode (.mem (.sib _ _ _)) ?_, fun hmod h4 sib d0 d1 d2 d3 hs => hdecode (.mem (.noBase _ _ _)) ?_,
    fun hmod h4 d => hdecode (.disp8 (.reg _) d) ?_, fun hmod h4 sib d => hdecode (.disp8 (.sib _ _ _) d) ?_,
    fun hmod h4 d0 d1 d2 d3 => hdecode (.disp32 (.reg _) _) ?_,
    fun hmod h4 sib d0 d1 d2 d3 => hdecode (.disp32 (.sib _ _ _) _) ?_⟩
  · exact (readForm_mem_iff hmod).mpr ⟨_, readMem00_reg _ _ _ h4 h5, rfl⟩
  · exact (readForm_mem_iff hmod).mpr ⟨_, readMem00_ripRel _ _ _ h5, rfl⟩
  · exact (readForm_mem_iff hmod).mpr ⟨_, readMem00_sib _ _ _ h4 hs, rfl⟩
  · exact (readForm_mem_iff hmod).mpr ⟨_, readMem00_noBase _ _ _ h4 hs, rfl⟩
  · exact (readForm_disp8_iff hmod).mpr ⟨_, _, readBase_reg _ _ _ h4, rfl⟩
  · exact (readForm_disp8_iff hmod).mpr ⟨_, _, readBase_sib _ _ _ h4 sib, rfl⟩
  · exact (readForm_disp32_iff hmod).mpr ⟨_, _, _, readBase_reg _ _ _ h4, readDisp32_cons .., rfl⟩
  · exact (readForm_disp32_iff hmod).mpr ⟨_, _, _, readBase_sib _ _ _ h4 sib, readDisp32_cons .., rfl⟩

/-! ### Ignored bits (R74) -/

section IgnoredBits

variable (pre : List Prefix) (p0 p1 m : Byte) (bs : List Byte)

/-- From ModRM on, of P2 the bits `z`, `b`, `V'` and `aaa` count, and whether `L'L` is admitted. -/
theorem decodeModrm_congr_p2 {p2 q2 : Byte} (hz : p2Z p2 = p2Z q2) (hb : p2B p2 = p2B q2) (hv : p2.getLsbD 3 = q2.getLsbD 3)
    (hmask : p2Mask p2 = p2Mask q2) (hp : ¬ (p2B p2 = false ∧ p2LL p2 = 0b11#2))
    (hq : ¬ (p2B q2 = false ∧ p2LL q2 = 0b11#2)) :
    decodeModrm pre p0 p1 p2 m bs = decodeModrm pre p0 p1 q2 m bs := by
  have hcommon : ∀ imm8, commonOf pre p0 p1 p2 m imm8 = commonOf pre p0 p1 q2 m imm8 := fun imm8 => by
    simp only [commonOf, src1Of, hz, hv, hmask]
  have htail : decodeTail pre p0 p1 p2 m bs = decodeTail pre p0 p1 q2 m bs := by simp only [decodeTail, hb, hcommon]
  rw [hb] at hp
  simp only [decodeModrm, if_neg hp, if_neg hq, hz, hb, hmask, htail]

/-- From ModRM on, of P0 the bits of DEST count, and X and B as far as the operand reads them. -/
theorem decodeModrm_congr_p0 {p0 q0 : Byte} (p2 : Byte) (hdest : destOf p0 m = destOf q0 m)
    (hread : readForm (extX p0) (extB p0) (field76 m) (field20 m) bs = readForm (extX q0) (extB q0) (field76 m) (field20 m) bs) :
    decodeModrm pre p0 p1 p2 m bs = decodeModrm pre q0 p1 p2 m bs := by
  have hcommon : ∀ imm8, commonOf pre p0 p1 p2 m imm8 = commonOf pre q0 p1 p2 m imm8 := fun imm8 => by
    simp only [commonOf, hdest]
  simp only [decodeModrm, decodeTail, hcommon, hread]

end IgnoredBits

/-- Without a SIB byte a memory operand does not read X. -/
theorem readForm_congr_x {mod : BitVec 2} {rm : BitVec 3} (hmod : mod ≠ 0b11#2) (hrm : rm ≠ 0b100#3) (x x' b : Bool)
    (bs : List Byte) : readForm x b mod rm bs = readForm x' b mod rm bs := by
  simp only [readForm, if_neg hmod, readMem00, readBase, if_neg hrm]

theorem readForm_congr_mem {mod : BitVec 2} {rm : BitVec 3} {x x' b b' : Bool} {bs : List Byte} (hmod : mod = 0b00#2)
    (h : readMem00 x b rm bs = readMem00 x' b' rm bs) : readForm x b mod rm bs = readForm x' b' mod rm bs := by
  subst hmod
  simp [readForm, h]

/-- A RIP-relative operand does not read B. -/
theorem readForm_congr_b_ripRel {mod : BitVec 2} {rm : BitVec 3} (hmod : mod = 0b00#2) (hrm : rm = 0b101#3) (x b b' : Bool)
    (bs : List Byte) : readForm x b mod rm bs = readForm x b' mod rm bs :=
  readForm_congr_mem hmod ((readMem00_ripRel x b bs hrm).trans (readMem00_ripRel x b' bs hrm).symm)

/-- An operand with SIB.base = 101b and mod = 00b does not read B. -/
theorem readForm_congr_b_noBase {mod : BitVec 2} {rm : BitVec 3} {sib : Byte} (hmod : mod = 0b00#2) (hrm : rm = 0b100#3)
    (hsib : field20 sib = 0b101#3) (x b b' : Bool) (bs : List Byte) :
    readForm x b mod rm (sib :: bs) = readForm x b' mod rm (sib :: bs) :=
  readForm_congr_mem hmod ((readMem00_noBase x b bs hrm hsib).trans (readMem00_noBase x b' bs hrm hsib).symm)

/-- Flipping P0[6] or P0[5] leaves the other fields of P0. -/
theorem p0_fields_xor {p0 k : Byte} (hk : k = 0x40#8 ∨ k = 0x20#8) :
    p0Map (p0 ^^^ k) = p0Map p0 ∧ p0Reserved (p0 ^^^ k) = p0Reserved p0 ∧ ∀ m, destOf (p0 ^^^ k) m = destOf p0 m := by
  rcases hk with rfl | rfl <;> simp [p0Map, p0Reserved, destOf, BitVec.extractLsb'_xor]

theorem extB_xor_x (p0 : Byte) : extB (p0 ^^^ 0x40#8) = extB p0 := by simp [extB]

theorem extX_xor_b (p0 : Byte) : extX (p0 ^^^ 0x20#8) = extX p0 := by simp [extX]

/-- Flipping P0[6] or P0[5] changes nothing when the operand does not read that bit. -/
theorem decode_xor_p0 {p0 k p1 p2 m : Byte} {bs : List Byte} (hk : k = 0x40#8 ∨ k = 0x20#8)
    (hread : readForm (extX (p0 ^^^ k)) (extB (p0 ^^^ k)) (field76 m) (field20 m) bs =
      readForm (extX p0) (extB p0) (field76 m) (field20 m) bs) (pre : List Prefix) :
    decode (pre.map prefixByte ++ 0x62#8 :: (p0 ^^^ k) :: p1 :: p2 :: 0x51#8 :: m :: bs) =
      decode (pre.map prefixByte ++ 0x62#8 :: p0 :: p1 :: p2 :: 0x51#8 :: m :: bs) := by
  obtain ⟨hmap, hres, hdest⟩ := p0_fields_xor (p0 := p0) hk
  rw [decode_prefixes_evex, decode_prefixes_evex]
  refine decodeEvex_congr hmap hres fun m' bs' heq => ?_
  cases heq
  exact decodeModrm_congr_p0 pre p1 m bs p2 (hdest m) hread

/-- `b` = 1 or an admitted `L'L` is what step (5) lets through. -/
theorem admitted_iff {p2 : Byte} :
    (p2.getLsbD 4 = true ∨ p2.extractLsb' 5 2 ≠ 0b11#2) ↔ ¬ (p2B p2 = false ∧ p2LL p2 = 0b11#2) := by
  rw [not_and_or, Bool.not_eq_false]
  rfl

/-- Bytes alike under the mask 9Fh have the same `z`, `b`, `V'` and `aaa`. -/
theorem p2_fields_of_and_eq {p2 q2 : Byte} (h : p2 &&& 0x9F#8 = q2 &&& 0x9F#8) :
    p2Z p2 = p2Z q2 ∧ p2B p2 = p2B q2 ∧ p2.getLsbD 3 = q2.getLsbD 3 ∧ p2Mask p2 = p2Mask q2 := by
  have hbit : ∀ n, (0x9F#8).getLsbD n = true → p2.getLsbD n = q2.getLsbD n := fun n hn => by
    simpa only [BitVec.getLsbD_and, hn, Bool.and_true] using congrArg (BitVec.getLsbD · n) h
  have hmask := congrArg (BitVec.extractLsb' 0 3) h
  rw [BitVec.extractLsb'_and, BitVec.extractLsb'_and, show BitVec.extractLsb' 0 3 0x9F#8 = BitVec.allOnes 3 from rfl,
    BitVec.and_allOnes, BitVec.and_allOnes] at hmask
  exact ⟨hbit 7 rfl, hbit 4 rfl, hbit 3 rfl, hmask⟩

/-- Settles O5: the stages of the decoder read none of the ignored bits. -/
theorem ignoredEncodingBits : Obligations.IgnoredEncodingBits := by
  refine ⟨fun pre p0 p1 p2 q2 bs h hp hq => ?_, fun pre p0 p1 p2 m bs h0 hw h1 hz hb hll => ?_, fun c b => ?_,
    fun pre p0 p1 p2 m bs hmod hrm => decode_xor_p0 (.inl rfl) ?_ pre,
    fun pre p0 p1 p2 m bs hmod hrm => decode_xor_p0 (.inr rfl) ?_ pre,
    fun pre p0 p1 p2 m sib bs hmod hrm hsib => decode_xor_p0 (.inr rfl) ?_ pre⟩
  · obtain ⟨hz, hb, hv, hmask⟩ := p2_fields_of_and_eq h
    rw [decode_prefixes_evex, decode_prefixes_evex]
    exact decodeEvex_congr rfl rfl fun m bs' _ =>
      decodeModrm_congr_p2 pre p0 p1 m bs' hz hb hv hmask (admitted_iff.mp hp) (admitted_iff.mp hq)
  · rw [decode_payload h0 hw h1]
    exact decodeModrm_vectorLength11 (fun h => Bool.false_ne_true (hb.symm.trans h.2)) pre p0 p1 bs hz ⟨hb, hll⟩
  · exact p2LL_p2Byte ..
  · rw [extB_xor_x]
    exact readForm_congr_x hmod hrm ..
  · rw [extX_xor_b]
    exact readForm_congr_b_ripRel hmod hrm ..
  · rw [extX_xor_b]
    exact readForm_congr_b_noBase hmod hrm hsib ..

/-! ### Invalid encodings and other instructions (R73, R75) -/

theorem forbiddenPrefix_iff {f : Byte} :
    forbiddenPrefix f = true ↔ f = 0xF0#8 ∨ f = 0x66#8 ∨ f = 0xF2#8 ∨ f = 0xF3#8 ∨ f.extractLsb' 4 4 = 0x4#4 := by
  simp only [forbiddenPrefix, Bool.or_eq_true, beq_iff_eq, or_assoc]

/-- Settles O6, a check of the decoder at a time. -/
theorem invalidEncodingsAreUd : Obligations.InvalidEncodingsAreUd := by
  refine ⟨fun pre p0 p1 p2 bs hmap hpp hw => ?_, fun before after f bs hf => ?_⟩
  · simp only [decode_prefixes_evex]
    refine ⟨fun hres => decodeEvex_reservedP0 hmap hpp hw hres ..,
      fun hres hfixed => decodeEvex_fixedP1 hmap hpp hw hres hfixed ..,
      fun hres hfixed m hmod hb => ?_, fun hres hfixed m hmod hz hmask => ?_⟩
    · rw [decodeEvex_modrm hmap hpp hw hres hfixed]
      exact decodeModrm_broadcast ⟨hmod, hb⟩ ..
    · rw [decodeEvex_modrm hmap hpp hw hres hfixed]
      refine decodeModrm_zeroingNoMask (fun h => ?_) pre p0 p1 bs ⟨hz, hmask⟩
      exact hmod.elim h.1 fun hb => Bool.false_ne_true (hb.symm.trans h.2)
  · rw [decode, decodeFrom_prefixes, decodeFrom_forbidden (forbiddenPrefix_iff.mpr hf), decodeFrom_prefixes]
    exact decodeFrom_evex true _ bs

/-- Settles O7: the checks of the payload, of the opcode and of the byte after the prefixes. -/
theorem otherInstructionsAreNotDecoded : Obligations.OtherInstructionsAreNotDecoded := by
  refine ⟨fun pre p0 p1 p2 bs h => ?_, fun pre p0 p1 p2 op bs h0 hw h1 hop => ?_, fun pre b bs hp hf he => ?_⟩
  · rw [decode_prefixes_evex]
    exact decodeEvex_notVrangess h ..
  · obtain ⟨hmap, hres⟩ := p0_fields h0
    obtain ⟨hpp, hfixed⟩ := p1_fields h1
    rw [decode_prefixes_evex]
    exact decodeEvex_opcode hmap hpp hw hres hfixed hop ..
  · rw [decode, decodeFrom_prefixes]
    exact decodeFrom_other hp hf he ..

end Sys2Proof

/-! Lengths and imm8[7:4] (30_encoding.md R76, R84): what the gate stops at, and what of imm8 an execution reads. -/

namespace Sys2Proof.Machine

/-! ### What the gate says of the length and of imm8 -/

theorem gate_of_too_long {c : Common} {n : Nat} {s : State} (hm : s.mode = .mode64) (hr : s.ripInRange n = true)
    (hi : immAllowed s.cfg c.imm8 = true) (hn : maxLength < n) : gate c n s = .fault (.gp s) := by
  simp [gate, hm, hr, hi, hn, raise]

theorem gate_of_imm_refused {c : Common} {n : Nat} {s : State} (hm : s.mode = .mode64) (hr : s.ripInRange n = true)
    (hi : immAllowed s.cfg c.imm8 = false) : gate c n s = .refused (.immHigh c.imm8) := by
  simp [gate, hm, hr, hi]

/-- A fault of the gate is the instruction's. -/
theorem exec_of_gate_fault {i : Instr} {s : State} {f : Fault} (h : gate i.common i.length s = .fault f) :
    exec i s = .fault f := by
  rw [exec_eq, vrangess, h, andThen_fault]

/-- Settles O9: the operands of an instruction that is too long are read back, and the gate looks at the length before
the enabling checks. -/
theorem instructionLengths : Obligations.InstructionLengths := by
  refine ⟨length_encode, fun c r g x sc d b => ⟨rfl, rfl, rfl, rfl, rfl, rfl, rfl, rfl, rfl, rfl⟩,
    fun i rest hc ho hlen => ?_, fun s i hm ho hr hd hrip himm => ?_⟩
  · rw [decode_encode hc ho, checkLength_of_lt hlen]
  · rw [step_of_overlong hm ho hr hd]
    exact exec_of_gate_fault (gate_of_too_long hm hrip himm (decode_overlong hd))

/-! ### The high bits of imm8 -/

theorem immAllowed_of_ignore {cfg : Config} (h : cfg.immHi = .ignore) (imm8 : Byte) : immAllowed cfg imm8 = true := by
  simp [immAllowed, h]

theorem immAllowed_of_refuse {cfg : Config} (h : cfg.immHi = .refuse) {imm8 : Byte} (hhi : imm8.extractLsb' 4 4 ≠ 0#4) :
    immAllowed cfg imm8 = false := by
  simp [immAllowed, immHighBits, h, hhi]

theorem cmpOp_and (imm8 : Byte) : cmpOp (imm8 &&& 0x0F#8) = cmpOp imm8 := by simp [cmpOp]

theorem signSel_and (imm8 : Byte) : signSel (imm8 &&& 0x0F#8) = signSel imm8 := by simp [signSel]

/-- Of imm8 an instruction reads the controls and, under the policy, the high bits. -/
theorem vrangess_congr_imm {c : Common} {s : State} {b : Byte} (hcmp : cmpOp b = cmpOp c.imm8)
    (hsign : signSel b = signSel c.imm8) (hb : immAllowed s.cfg b = true) (hc : immAllowed s.cfg c.imm8 = true)
    (src : Source) (sae : Bool) (n : Nat) :
    vrangess { c with imm8 := b } src sae n s = vrangess c src sae n s := by
  have hgate : gate { c with imm8 := b } n s = gate c n s := by
    simp only [gate, hb, hc]
    rfl
  have hcompute : compute { c with imm8 := b } src sae n s = compute c src sae n s := by
    simp only [compute, hcmp, hsign]
  rw [vrangess, hgate, hcompute]
  rfl

/-- Replacing imm8 changes nothing else of an instruction. -/
theorem exec_withImm (b : Byte) (i : Instr) (s : State) :
    exec (withImm b i) s = vrangess { i.common with imm8 := b } (sourceOf i) (saeOf i) i.length s := by
  rw [exec_eq]
  cases i <;> rfl

/-- Settles O47: the gate applies the policy, and nothing else reads imm8[7:4]. -/
theorem immediateHighBits : Obligations.ImmediateHighBits := by
  refine ⟨fun i s hm hr hhi hpolicy => ?_, fun i s hpolicy => ?_, rfl⟩
  · exact exec_of_gate_refused (gate_of_imm_refused hm hr (immAllowed_of_refuse hpolicy hhi))
  · have hallowed := immAllowed_of_ignore hpolicy
    rw [exec_withImm, vrangess_congr_imm (cmpOp_and _) (signSel_and _) (hallowed _) (hallowed _), exec_eq]

end Sys2Proof.Machine

/-! One value twice (30_encoding.md R83; 40_vrangess.md R109 (b)): every comparison selects it, so the sign control alone
decides. -/

namespace Sys2Proof.Machine

/-! ### A pattern as its sign and its magnitude -/

theorem withSign_sign_magnitude (v : Dword) : withSign (sign v) (magnitude v) = v := by
  have hsign : BitVec.ofBool (sign v) = v.extractLsb' 31 1 := by
    ext k hk
    obtain rfl : k = 0 := by omega
    simp [sign, BitVec.getElem_extractLsb']
  rw [withSign, hsign, magnitude, BitVec.extractLsb'_append_extractLsb'_eq_extractLsb' (by decide), BitVec.extractLsb'_eq_self]

theorem withSign_and (p q : Bool) (m n : BitVec 31) : withSign p m &&& withSign q n = withSign (p && q) (m &&& n) := by
  rw [withSign, withSign, BitVec.and_append, withSign, BitVec.ofBool_and_ofBool]

theorem withSign_or (p q : Bool) (m n : BitVec 31) : withSign p m ||| withSign q n = withSign (p || q) (m ||| n) := by
  rw [withSign, withSign, BitVec.or_append, withSign, BitVec.ofBool_or_ofBool]

theorem sign_withSign (p : Bool) (m : BitVec 31) : sign (withSign p m) = p :=
  BitVec.getLsbD_append.trans (by cases p <;> rfl)

theorem withSign_false_magnitude (v : Dword) : withSign false (magnitude v) = v &&& 0x7FFFFFFF#32 := by
  have h := withSign_and (sign v) false (magnitude v) (BitVec.allOnes 31)
  rw [withSign_sign_magnitude, Bool.and_false, BitVec.and_allOnes] at h
  exact h.symm

theorem withSign_true_magnitude (v : Dword) : withSign true (magnitude v) = v ||| 0x80000000#32 := by
  have h := withSign_or (sign v) true (magnitude v) 0#31
  rw [withSign_sign_magnitude, Bool.or_true, BitVec.or_zero] at h
  exact h.symm

theorem signedZero_eq (v : Dword) : signedZero v = v &&& 0x80000000#32 := by
  have h := withSign_and (sign v) true (magnitude v) 0#31
  rw [withSign_sign_magnitude, Bool.and_true, BitVec.and_zero] at h
  exact h.symm

/-! ### Steps 2 to 4 on one value -/

/-- A denormal is no NaN. -/
theorem isQNaN_of_isDenormal {v : Dword} (h : isDenormal v = true) : isQNaN v = false := by
  have hexp : exponent v = 0#8 := by
    rw [isDenormal, Bool.and_eq_true, beq_iff_eq] at h
    exact h.1
  simp [isQNaN, isNaN, hexp]

theorem denormalIndicated_self (daz : Bool) (v : Dword) : denormalIndicated daz v v = (isDenormal v && !daz) := by
  unfold denormalIndicated
  cases h : isDenormal v with
  | false => simp
  | true => simp [isQNaN_of_isDenormal h]

/-- Whatever the arm, one value twice selects that value. -/
theorem selectTmp_self (cfg : Config) (cmp : CmpOp) (a : Dword) : selectTmp cfg cmp a a = a := by
  cases cmp <;> simp [selectTmp, compareTie, compareOrdinary]

theorem rangeSP_self {x : Dword} (h : isSNaN x = false) (cfg : Config) (cmp : CmpOp) (sgn : SignSel) (daz : Bool) :
    rangeSP cfg x x cmp sgn daz =
      { res := applySign sgn x (dazInput cfg daz x), ie := false, de := isDenormal x && !daz } := by
  simp only [rangeSP, h, selectTmp_self, denormalIndicated_self, Bool.or_self]
  rfl

/-- The sign control on a value of SRC1's sign. -/
theorem applySign_of_sign_eq {x y : Dword} (h : sign y = sign x) :
    applySign .clear x y = y &&& 0x7FFFFFFF#32 ∧ applySign .set x y = y ||| 0x80000000#32 ∧
      applySign .ofSrc1 x y = y ∧ applySign .ofCompare x y = y := by
  refine ⟨withSign_false_magnitude y, withSign_true_magnitude y, ?_, rfl⟩
  rw [applySign, ← h, withSign_sign_magnitude]

theorem dazInput_false (cfg : Config) (v : Dword) : dazInput cfg false v = v := by simp [dazInput]

theorem dazInput_replace {cfg : Config} (h : cfg.daz = .replace) (v : Dword) :
    dazInput cfg true v = if isDenormal v then v &&& 0x80000000#32 else v := by
  simp [dazInput, h, signedZero_eq]

theorem sign_dazInput (cfg : Config) (daz : Bool) (v : Dword) : sign (dazInput cfg daz v) = sign v := by
  unfold dazInput
  split
  · exact sign_withSign ..
  · rfl

/-- Settles O30: the sign control on the value that step 2 makes of `x`. -/
theorem sameSourceTwice : Obligations.SameSourceTwice := by
  intro cfg x cmp
  refine ⟨fun h => ?_, fun h hdaz y hy => ?_, fun h sgn daz => ?_⟩
  · obtain ⟨hclear, hset, hsrc1, hcompare⟩ := applySign_of_sign_eq (rfl : sign x = sign x)
    simp [rangeSP_self h, dazInput_false, hclear, hset, hsrc1, hcompare]
  · have hin : dazInput cfg true x = y := (dazInput_replace hdaz x).trans hy.symm
    obtain ⟨hclear, hset, hsrc1, hcompare⟩ := applySign_of_sign_eq (hin ▸ sign_dazInput cfg true x)
    simp [rangeSP_self h, hin, hclear, hset, hsrc1, hcompare]
  · rw [rangeSP, if_pos h, quiet]

end Sys2Proof.Machine

/-! RangeSP (40_vrangess.md R93 to R101): the classes of patterns, and what each step gives. -/

namespace Sys2Proof.Machine

/-! ### Classes of patterns (00_scope.md R9, R10) -/

theorem isNaN_eq (v : Dword) : isNaN v = (isSNaN v || isQNaN v) := by
  rw [isSNaN, isQNaN, ← Bool.and_or_distrib_left, Bool.not_or_self, Bool.and_true]

theorem isNaN_eq_false_iff {v : Dword} : isNaN v = false ↔ isSNaN v = false ∧ isQNaN v = false := by
  rw [isNaN_eq, Bool.or_eq_false_iff]

theorem isSNaN_of_isQNaN {v : Dword} (h : isQNaN v = true) : isSNaN v = false := by
  rw [isQNaN, Bool.and_eq_true] at h
  simp [isSNaN, h.2]

theorem isDenormal_of_isNaN {v : Dword} (h : isNaN v = true) : isDenormal v = false := by
  rw [isNaN, Bool.and_eq_true, beq_iff_eq] at h
  simp [isDenormal, h.1]

theorem isSNaN_of_isDenormal {v : Dword} (h : isDenormal v = true) : isSNaN v = false := by
  cases hs : isSNaN v with
  | false => rfl
  | true => simp [isDenormal_of_isNaN (show isNaN v = true by rw [isNaN_eq, hs, Bool.true_or])] at h

/-- Whether a pattern is a NaN is a matter of its magnitude. -/
theorem isNaN_congr {a b : Dword} (h : magnitude a = magnitude b) : isNaN a = isNaN b := by
  have hm := congrArg BitVec.toNat h
  have hexp : exponent a = exponent b := by
    rw [← BitVec.toNat_inj, exponent_eq_magnitude_div, exponent_eq_magnitude_div, hm]
  have hfrac : fraction a = fraction b := by
    rw [← BitVec.toNat_inj, fraction_eq_magnitude_mod, fraction_eq_magnitude_mod, hm]
  rw [isNaN, isNaN, hexp, hfrac]

theorem signedZero_eq_or (v : Dword) : signedZero v = 0x00000000#32 ∨ signedZero v = 0x80000000#32 := by
  unfold signedZero
  cases sign v <;> decide

theorem isDenormal_signedZero (v : Dword) : isDenormal (signedZero v) = false := by
  rcases signedZero_eq_or v with h | h <;> rw [h] <;> decide

theorem isSNaN_signedZero (v : Dword) : isSNaN (signedZero v) = false := by
  rcases signedZero_eq_or v with h | h <;> rw [h] <;> decide

theorem isQNaN_signedZero (v : Dword) : isQNaN (signedZero v) = false := by
  rcases signedZero_eq_or v with h | h <;> rw [h] <;> decide

/-! ### Signs and magnitudes -/

@[simp] theorem magnitude_withSign (p : Bool) (m : BitVec 31) : magnitude (withSign p m) = m :=
  BitVec.extractLsb'_append_eq_right

/-- A pattern is its sign and its magnitude. -/
theorem eq_of_sign_of_magnitude {a b : Dword} (hs : sign a = sign b) (hm : magnitude a = magnitude b) : a = b := by
  rw [← withSign_sign_magnitude a, hs, hm, withSign_sign_magnitude]

/-- Zeros of opposite sign, Table 5-22's inputs (R97). -/
abbrev OppositeZeros (a b : Dword) : Prop := magnitude a = 0#31 ∧ magnitude b = 0#31 ∧ sign a ≠ sign b

/-- Equal magnitudes of opposite sign, Table 5-23's inputs (R98). -/
abbrev MagnitudeTie (a b : Dword) : Prop := magnitude a = magnitude b ∧ sign a ≠ sign b

theorem OppositeZeros.symm {a b : Dword} (h : OppositeZeros a b) : OppositeZeros b a := ⟨h.2.1, h.1, h.2.2.symm⟩

theorem MagnitudeTie.symm {a b : Dword} (h : MagnitudeTie a b) : MagnitudeTie b a := ⟨h.1.symm, h.2.symm⟩

/-- Equal absolute values are equal magnitudes. -/
theorem natAbs_scaledValue_inj {a b : Dword} :
    (scaledValue a).natAbs = (scaledValue b).natAbs ↔ magnitude a = magnitude b := by
  rw [scaledValue_eq, scaledValue_eq, natAbs_signed, natAbs_signed, scaledMagnitude_strictMono.injective.eq_iff,
    BitVec.toNat_inj]

/-- Patterns of equal value are identical, or the two zeros. -/
theorem eq_of_scaledValue_eq {a b : Dword} (hz : ¬ OppositeZeros a b) (h : scaledValue a = scaledValue b) : a = b := by
  have hm : magnitude a = magnitude b := natAbs_scaledValue_inj.mp (congrArg Int.natAbs h)
  by_contra hne
  have hs : sign a ≠ sign b := fun hs => hne (eq_of_sign_of_magnitude hs hm)
  have hzero : scaledMagnitude (magnitude a).toNat = scaledMagnitude 0 := by
    rw [scaledMagnitude_zero]
    rw [scaledValue_eq, scaledValue_eq, ← hm] at h
    revert hs h
    cases sign a <;> cases sign b <;> simp
  have ha : magnitude a = 0#31 := BitVec.toNat_inj.mp (scaledMagnitude_strictMono.injective hzero)
  exact hz ⟨ha, hm ▸ ha, hs⟩

/-- Patterns of equal magnitude are identical, or a tie. -/
theorem eq_or_tie_of_magnitude_eq {a b : Dword} (h : magnitude a = magnitude b) : a = b ∨ MagnitudeTie a b := by
  by_cases hs : sign a = sign b
  · exact .inl (eq_of_sign_of_magnitude hs h)
  · exact .inr ⟨h, hs⟩

/-! ### Step 2 (R95) -/

theorem dazInput_of_not_denormal {v : Dword} (h : isDenormal v = false) (cfg : Config) (daz : Bool) :
    dazInput cfg daz v = v := by
  simp [dazInput, h]

theorem dazInput_literal {cfg : Config} (h : cfg.daz = .literal) (daz : Bool) (v : Dword) : dazInput cfg daz v = v := by
  simp [dazInput, h]

/-- Step 2 leaves a pattern or makes a zero of its sign. -/
theorem dazInput_eq_or (cfg : Config) (daz : Bool) (v : Dword) :
    dazInput cfg daz v = v ∨ isDenormal v = true ∧ dazInput cfg daz v = signedZero v := by
  unfold dazInput
  split
  · rename_i h
    simp only [Bool.and_eq_true] at h
    exact .inr ⟨h.1.1, rfl⟩
  · exact .inl rfl

@[simp] theorem isQNaN_dazInput (cfg : Config) (daz : Bool) (v : Dword) : isQNaN (dazInput cfg daz v) = isQNaN v := by
  rcases dazInput_eq_or cfg daz v with h | ⟨hd, h⟩
  · rw [h]
  · rw [h, isQNaN_signedZero, isQNaN_of_isDenormal hd]

@[simp] theorem isSNaN_dazInput (cfg : Config) (daz : Bool) (v : Dword) : isSNaN (dazInput cfg daz v) = isSNaN v := by
  rcases dazInput_eq_or cfg daz v with h | ⟨hd, h⟩
  · rw [h]
  · rw [h, isSNaN_signedZero, isSNaN_of_isDenormal hd]

@[simp] theorem denormalIndicated_true (v other : Dword) : denormalIndicated true v other = false := by
  simp [denormalIndicated]

/-! ### Step 3 (R96 to R99): each arm -/

theorem selectTmp_of_isQNaN_right {a b : Dword} (hb : isQNaN b = true) (cfg : Config) (cmp : CmpOp) :
    selectTmp cfg cmp a b = a := by
  rw [selectTmp, if_pos hb]

theorem selectTmp_of_isQNaN_left {a b : Dword} (ha : isQNaN a = true) (hb : isQNaN b = false) (cfg : Config) (cmp : CmpOp) :
    selectTmp cfg cmp a b = b := by
  rw [selectTmp, if_neg (by simp [hb]), if_pos ha]

theorem selectTmp_of_oppositeZeros {a b : Dword} (ha : isQNaN a = false) (hb : isQNaN b = false) (hz : OppositeZeros a b)
    (cfg : Config) (cmp : CmpOp) : selectTmp cfg cmp a b = table522 cfg.table522 cmp := by
  rw [selectTmp, if_neg (by simp [hb]), if_neg (by simp [ha]), if_pos hz]

theorem selectTmp_of_numbers {a b : Dword} (ha : isQNaN a = false) (hb : isQNaN b = false) (hz : ¬ OppositeZeros a b)
    (cfg : Config) (cmp : CmpOp) : selectTmp cfg cmp a b = compareTie cfg.table523 cmp a b := by
  rw [selectTmp, if_neg (by simp [hb]), if_neg (by simp [ha]), if_neg hz]

theorem compareTie_of_not_tie {a b : Dword} (h : ¬ MagnitudeTie a b) (t : Table523) (cmp : CmpOp) :
    compareTie t cmp a b = compareOrdinary cmp a b := if_neg h

theorem compareTie_minAbs_of_tie {a b : Dword} (h : MagnitudeTie a b) (t : Table523) :
    compareTie t .minAbs a b = pickTie t.minAbs a b := if_pos h

theorem compareTie_maxAbs_of_tie {a b : Dword} (h : MagnitudeTie a b) (t : Table523) :
    compareTie t .maxAbs a b = pickTie t.maxAbs a b := if_pos h

/-- MIN and MAX know no ties. -/
theorem compareTie_min (t : Table523) (a b : Dword) : compareTie t .min a b = compareOrdinary .min a b := ite_self _

theorem compareTie_max (t : Table523) (a b : Dword) : compareTie t .max a b = compareOrdinary .max a b := ite_self _

theorem pickTie_of_signs {a b : Dword} (ha : sign a = false) (hb : sign b = true) (p : TiePick) :
    pickTie p a b = (if p = .negativeInput then b else a) ∧ pickTie p b a = (if p = .negativeInput then b else a) := by
  cases p <;> simp [pickTie, ha, hb]

/-- The tie's entry names an input by its sign, so it does not matter which operand held it. -/
theorem pickTie_comm {a b : Dword} (h : sign a ≠ sign b) (p : TiePick) : pickTie p a b = pickTie p b a := by
  cases ha : sign a with
  | false =>
    obtain ⟨hab, hba⟩ := pickTie_of_signs ha (by simpa [ha] using h.symm) p
    rw [hab, hba]
  | true =>
    obtain ⟨hab, hba⟩ := pickTie_of_signs (by simpa [ha] using h.symm) ha p
    rw [hab, hba]

/-! ### What step 3 selects from -/

theorem pickTie_eq_or (p : TiePick) (a b : Dword) : pickTie p a b = a ∨ pickTie p a b = b := by
  cases p <;> cases h : sign a <;> simp [pickTie, h]

theorem compareOrdinary_eq_or (cmp : CmpOp) (a b : Dword) : compareOrdinary cmp a b = a ∨ compareOrdinary cmp a b = b := by
  cases cmp <;> simp only [compareOrdinary] <;> split <;> simp

theorem compareTie_eq_or (t : Table523) (cmp : CmpOp) (a b : Dword) : compareTie t cmp a b = a ∨ compareTie t cmp a b = b := by
  by_cases h : MagnitudeTie a b
  · cases cmp with
    | min => rw [compareTie_min]; exact compareOrdinary_eq_or ..
    | max => rw [compareTie_max]; exact compareOrdinary_eq_or ..
    | minAbs => rw [compareTie_minAbs_of_tie h]; exact pickTie_eq_or ..
    | maxAbs => rw [compareTie_maxAbs_of_tie h]; exact pickTie_eq_or ..
  · rw [compareTie_of_not_tie h]
    exact compareOrdinary_eq_or ..

theorem magnitude_table522 (t : Table522) (cmp : CmpOp) : magnitude (table522 t cmp) = 0#31 := by
  have hzero : ∀ p, magnitude (zeroOf p) = 0#31 := by intro p; cases p <;> decide
  cases cmp <;> exact hzero _

/-- Whatever the arm, the magnitude selected is that of an input. -/
theorem magnitude_selectTmp (cfg : Config) (cmp : CmpOp) (a b : Dword) :
    magnitude (selectTmp cfg cmp a b) = magnitude a ∨ magnitude (selectTmp cfg cmp a b) = magnitude b := by
  cases hb : isQNaN b with
  | true => rw [selectTmp_of_isQNaN_right hb]; exact .inl rfl
  | false =>
    cases ha : isQNaN a with
    | true => rw [selectTmp_of_isQNaN_left ha hb]; exact .inr rfl
    | false =>
      by_cases hz : OppositeZeros a b
      · rw [selectTmp_of_oppositeZeros ha hb hz, magnitude_table522]
        exact .inl hz.1.symm
      · rw [selectTmp_of_numbers ha hb hz]
        exact (compareTie_eq_or ..).imp (congrArg magnitude) (congrArg magnitude)

/-- MIN_ABS selects the lesser magnitude, in every arm that numbers reach. -/
theorem magnitude_selectTmp_minAbs {a b : Dword} (ha : isQNaN a = false) (hb : isQNaN b = false) (cfg : Config) :
    magnitude (selectTmp cfg .minAbs a b) = if leMagnitude a b then magnitude a else magnitude b := by
  by_cases hm : magnitude a = magnitude b
  · have h := magnitude_selectTmp cfg .minAbs a b
    rw [← hm, or_self] at h
    rw [h, ← hm, ite_self]
  · have hz : ¬ OppositeZeros a b := fun h => hm (h.1.trans h.2.1.symm)
    rw [selectTmp_of_numbers ha hb hz, compareTie_of_not_tie (fun h => hm h.1), compareOrdinary, apply_ite magnitude]

/-! ### The order of the operands -/

theorem leValue_antisymm {a b : Dword} (hz : ¬ OppositeZeros a b) (hab : leValue a b = true) (hba : leValue b a = true) :
    a = b :=
  eq_of_scaledValue_eq hz (Int.le_antisymm ((leValue_iff a b).mp hab) ((leValue_iff b a).mp hba))

theorem leMagnitude_antisymm {a b : Dword} (ht : ¬ MagnitudeTie a b) (hab : leMagnitude a b = true)
    (hba : leMagnitude b a = true) : a = b := by
  have hm : magnitude a = magnitude b :=
    natAbs_scaledValue_inj.mp (Nat.le_antisymm ((leMagnitude_iff a b).mp hab) ((leMagnitude_iff b a).mp hba))
  exact (eq_or_tie_of_magnitude_eq hm).resolve_right ht

theorem leValue_total (a b : Dword) : leValue a b = true ∨ leValue b a = true := by
  rw [leValue_iff, leValue_iff]
  exact Int.le_total ..

theorem leMagnitude_total (a b : Dword) : leMagnitude a b = true ∨ leMagnitude b a = true := by
  rw [leMagnitude_iff, leMagnitude_iff]
  exact Nat.le_total ..

/-- A choice by a total and antisymmetric test does not depend on the order of its two candidates. -/
theorem ite_comm_of_total {p q : Bool} {a b : Dword} (htotal : p = true ∨ q = true) (hanti : p = true → q = true → a = b) :
    (if p then a else b) = (if q then b else a) ∧ (if p then b else a) = (if q then a else b) := by
  cases p <;> cases q <;> simp_all

theorem compareOrdinary_comm {a b : Dword} (hz : ¬ OppositeZeros a b) {cmp : CmpOp}
    (ht : (cmp = .minAbs ∨ cmp = .maxAbs) → ¬ MagnitudeTie a b) : compareOrdinary cmp a b = compareOrdinary cmp b a := by
  have hvalue := ite_comm_of_total (leValue_total a b) (leValue_antisymm hz)
  have hmagnitude := fun h => ite_comm_of_total (leMagnitude_total a b) (leMagnitude_antisymm (ht h))
  cases cmp with
  | min => exact hvalue.1
  | max => exact hvalue.2
  | minAbs => exact (hmagnitude (.inl rfl)).1
  | maxAbs => exact (hmagnitude (.inr rfl)).2

theorem compareTie_comm {a b : Dword} (hz : ¬ OppositeZeros a b) (t : Table523) (cmp : CmpOp) :
    compareTie t cmp a b = compareTie t cmp b a := by
  by_cases ht : MagnitudeTie a b
  · cases cmp with
    | min => rw [compareTie_min, compareTie_min, compareOrdinary_comm hz (by simp)]
    | max => rw [compareTie_max, compareTie_max, compareOrdinary_comm hz (by simp)]
    | minAbs => rw [compareTie_minAbs_of_tie ht, compareTie_minAbs_of_tie ht.symm, pickTie_comm ht.2]
    | maxAbs => rw [compareTie_maxAbs_of_tie ht, compareTie_maxAbs_of_tie ht.symm, pickTie_comm ht.2]
  · rw [compareTie_of_not_tie ht, compareTie_of_not_tie (mt MagnitudeTie.symm ht), compareOrdinary_comm hz fun _ => ht]

/-- On numbers step 3 does not look at which operand held which. -/
theorem selectTmp_comm {a b : Dword} (ha : isQNaN a = false) (hb : isQNaN b = false) (cfg : Config) (cmp : CmpOp) :
    selectTmp cfg cmp a b = selectTmp cfg cmp b a := by
  by_cases hz : OppositeZeros a b
  · rw [selectTmp_of_oppositeZeros ha hb hz, selectTmp_of_oppositeZeros hb ha hz.symm]
  · rw [selectTmp_of_numbers ha hb hz, selectTmp_of_numbers hb ha (mt OppositeZeros.symm hz), compareTie_comm hz]

/-! ### Step 4 (R100) -/

@[simp] theorem magnitude_applySign (sgn : SignSel) (x tmp : Dword) : magnitude (applySign sgn x tmp) = magnitude tmp := by
  cases sgn <;> simp [applySign]

/-- Only one control looks at SRC1. -/
theorem applySign_congr {sgn : SignSel} (h : sgn ≠ .ofSrc1) (x y tmp : Dword) : applySign sgn x tmp = applySign sgn y tmp := by
  cases sgn with
  | ofSrc1 => exact absurd rfl h
  | ofCompare => rfl
  | clear => rfl
  | set => rfl

theorem applySign_congr_sign {x y : Dword} (h : sign x = sign y) (sgn : SignSel) (tmp : Dword) :
    applySign sgn x tmp = applySign sgn y tmp := by
  cases sgn <;> simp [applySign, h]

/-! ### The function (R93, R94) -/

theorem rangeSP_of_isSNaN_left {s1 : Dword} (h : isSNaN s1 = true) (cfg : Config) (s2 : Dword) (cmp : CmpOp) (sgn : SignSel)
    (daz : Bool) : rangeSP cfg s1 s2 cmp sgn daz = { res := quiet s1, ie := true, de := false } := if_pos h

theorem rangeSP_of_isSNaN_right {s1 s2 : Dword} (h1 : isSNaN s1 = false) (h2 : isSNaN s2 = true) (cfg : Config) (cmp : CmpOp)
    (sgn : SignSel) (daz : Bool) : rangeSP cfg s1 s2 cmp sgn daz = { res := quiet s2, ie := true, de := false } := by
  rw [rangeSP, if_neg (by simp [h1]), if_pos h2]

theorem rangeSP_of_not_snan {s1 s2 : Dword} (h1 : isSNaN s1 = false) (h2 : isSNaN s2 = false) (cfg : Config) (cmp : CmpOp)
    (sgn : SignSel) (daz : Bool) :
    rangeSP cfg s1 s2 cmp sgn daz =
      { res := applySign sgn s1 (selectTmp cfg cmp (dazInput cfg daz s1) (dazInput cfg daz s2))
        ie := false
        de := denormalIndicated daz s1 s2 || denormalIndicated daz s2 s1 } := by
  rw [rangeSP, if_neg (by simp [h1]), if_neg (by simp [h2])]

theorem rangeSP_ie_iff (cfg : Config) (s1 s2 : Dword) (cmp : CmpOp) (sgn : SignSel) (daz : Bool) :
    (rangeSP cfg s1 s2 cmp sgn daz).ie = true ↔ isSNaN s1 = true ∨ isSNaN s2 = true := by
  cases h1 : isSNaN s1 with
  | true => simp [rangeSP_of_isSNaN_left h1]
  | false =>
    cases h2 : isSNaN s2 with
    | true => simp [rangeSP_of_isSNaN_right h1 h2]
    | false => simp [rangeSP_of_not_snan h1 h2]

theorem denormalIndicated_iff {v other : Dword} (ho : isSNaN other = false) (daz : Bool) :
    denormalIndicated daz v other = true ↔ daz = false ∧ isDenormal v = true ∧ isNaN other = false := by
  simp only [denormalIndicated, isNaN_eq, ho, Bool.and_eq_true, Bool.not_eq_true', Bool.false_or]
  tauto

/-- A denormal indicates DE when DAZ = 0 and its partner is not a NaN. -/
theorem rangeSP_de_iff (cfg : Config) (s1 s2 : Dword) (cmp : CmpOp) (sgn : SignSel) (daz : Bool) :
    (rangeSP cfg s1 s2 cmp sgn daz).de = true ↔
      daz = false ∧ ((isDenormal s1 = true ∧ isNaN s2 = false) ∨ (isDenormal s2 = true ∧ isNaN s1 = false)) := by
  have hno : ∀ {v}, isSNaN v = true → isNaN v = true ∧ isDenormal v = false := fun {v} h => by
    have hnan : isNaN v = true := by rw [isNaN_eq, h, Bool.true_or]
    exact ⟨hnan, isDenormal_of_isNaN hnan⟩
  cases h1 : isSNaN s1 with
  | true => simp [rangeSP_of_isSNaN_left h1, hno h1]
  | false =>
    cases h2 : isSNaN s2 with
    | true => simp [rangeSP_of_isSNaN_right h1 h2, hno h2]
    | false =>
      rw [rangeSP_of_not_snan h1 h2, Bool.or_eq_true, denormalIndicated_iff h2, denormalIndicated_iff h1, and_or_left]

/-- IE and DE are never both indicated. -/
theorem rangeSP_not_ie_and_de (cfg : Config) (s1 s2 : Dword) (cmp : CmpOp) (sgn : SignSel) (daz : Bool) :
    ¬ ((rangeSP cfg s1 s2 cmp sgn daz).ie = true ∧ (rangeSP cfg s1 s2 cmp sgn daz).de = true) := by
  rintro ⟨hie, hde⟩
  cases h1 : isSNaN s1 with
  | true => simp [rangeSP_of_isSNaN_left h1] at hde
  | false =>
    cases h2 : isSNaN s2 with
    | true => simp [rangeSP_of_isSNaN_right h1 h2] at hde
    | false => simp [rangeSP_of_not_snan h1 h2] at hie

/-! ### The statements about RangeSP -/

/-- Settles O19. -/
theorem signallingNanReturns : Obligations.SignallingNanReturns := by
  intro cfg s1 s2 cmp sgn daz
  refine ⟨fun h => rangeSP_of_isSNaN_left h .., fun h1 h2 => rangeSP_of_isSNaN_right h1 h2 .., fun h1 h2 => ?_, ?_, ?_⟩
  · rw [rangeSP_of_not_snan h1 h2]
  · exact rangeSP_of_isSNaN_left (by decide) ..
  · exact rangeSP_of_isSNaN_right (by decide) (by decide) ..

/-- Step 2, done beforehand, changes nothing. -/
theorem rangeSP_res_dazInput {s1 s2 : Dword} (h1 : isSNaN s1 = false) (h2 : isSNaN s2 = false) (cfg : Config)
    (cmp : CmpOp) (sgn : SignSel) :
    (rangeSP cfg (dazInput cfg true s1) (dazInput cfg true s2) cmp sgn true).res = (rangeSP cfg s1 s2 cmp sgn true).res := by
  have hidem : ∀ v, dazInput cfg true (dazInput cfg true v) = dazInput cfg true v := fun v => by
    rcases dazInput_eq_or cfg true v with h | ⟨-, h⟩
    · rw [h, h]
    · rw [h, dazInput_of_not_denormal (isDenormal_signedZero v)]
  rw [rangeSP_of_not_snan (by simp [h1]) (by simp [h2]), rangeSP_of_not_snan h1 h2, hidem, hidem,
    applySign_congr_sign (sign_dazInput cfg true s1)]

/-- Settles O20: what DAZ = 1 does to the inputs it does once, and DAZ = 0 does nothing to them. -/
theorem denormalInputsHandled : Obligations.DenormalInputsHandled := by
  refine ⟨fun cfg s1 s2 cmp sgn hcfg h1 h2 => ⟨?_, ?_, ?_, ?_⟩, by decide, by decide, by decide, by decide⟩
  · simp [rangeSP_of_not_snan h1 h2]
  · rw [← dazInput_replace hcfg, ← dazInput_replace hcfg, rangeSP_res_dazInput h1 h2]
  · simp [rangeSP_of_not_snan h1 h2, denormalIndicated]
  · simp [rangeSP_of_not_snan h1 h2, dazInput_false]

/-- Settles O21. -/
theorem literalDazReading : Obligations.LiteralDazReading := by
  intro cfg s1 s2 cmp sgn hcfg
  cases h1 : isSNaN s1 with
  | true => simp [rangeSP_of_isSNaN_left h1]
  | false =>
    cases h2 : isSNaN s2 with
    | true => simp [rangeSP_of_isSNaN_right h1 h2]
    | false => simp [rangeSP_of_not_snan h1 h2, dazInput_literal hcfg]

/-- Settles O22: both orders are the third arm's. -/
theorem oppositeZerosTable : Obligations.OppositeZerosTable := by
  have htable : ∀ (cfg : Config) (a b : Dword),
      (a = 0x00000000#32 ∧ b = 0x80000000#32) ∨ (a = 0x80000000#32 ∧ b = 0x00000000#32) →
      ∀ cmp, selectTmp cfg cmp a b = table522 cfg.table522 cmp := by
    rintro cfg a b (⟨rfl, rfl⟩ | ⟨rfl, rfl⟩) cmp <;>
      exact selectTmp_of_oppositeZeros (by decide) (by decide) (by decide) cfg cmp
  refine ⟨htable, fun a b h => ?_⟩
  simp only [htable _ a b h]
  decide

/-- Settles O23: the tie's entry names an input by its sign. -/
theorem equalMagnitudeTable : Obligations.EqualMagnitudeTable := by
  intro cfg a b hnan hzero hm ha hb
  have hqa : isQNaN a = false := (isNaN_eq_false_iff.mp hnan).2
  have hqb : isQNaN b = false := (isNaN_eq_false_iff.mp ((isNaN_congr hm).symm.trans hnan)).2
  have hz : ¬ OppositeZeros a b := fun h => hzero h.1
  have ht : MagnitudeTie a b := ⟨hm, by rw [sign, sign, ha, hb]; decide⟩
  have hmin : ∀ c : Config, selectTmp c .minAbs a b = (if c.table523.minAbs = .negativeInput then b else a) := fun c => by
    rw [selectTmp_of_numbers hqa hqb hz, compareTie_minAbs_of_tie ht, (pickTie_of_signs ha hb _).1]
  have hmax : ∀ c : Config, selectTmp c .maxAbs a b = (if c.table523.maxAbs = .positiveInput then a else b) := fun c => by
    rw [selectTmp_of_numbers hqa hqb hz, compareTie_maxAbs_of_tie ht, (pickTie_of_signs ha hb _).1]
    cases c.table523.maxAbs <;> rfl
  rw [selectTmp_comm hqb hqa cfg, selectTmp_comm hqb hqa cfg, selectTmp_comm hqb hqa, selectTmp_comm hqb hqa]
  exact ⟨hmin cfg, hmin cfg, hmax cfg, hmax cfg, hmin _, hmin _, hmax _, hmax _⟩

/-- Settles O25: the comparison is that of the values, and equal values are identical patterns where this arm is reached. -/
theorem ordinaryComparison : Obligations.OrdinaryComparison := by
  intro cfg a b ha hb hz
  have hselect := selectTmp_of_numbers (isNaN_eq_false_iff.mp ha).2 (isNaN_eq_false_iff.mp hb).2 hz cfg
  refine ⟨?_, ?_, fun ht => ⟨?_, ?_⟩, eq_of_scaledValue_eq hz, fun h => eq_or_tie_of_magnitude_eq (natAbs_scaledValue_inj.mp h),
    (leValue_iff ..).mp (leValue_negInfinity ha), (leValue_iff ..).mp (leValue_posInfinity ha)⟩
  · rw [hselect, compareTie_min]
    exact if_congr (leValue_iff a b) rfl rfl
  · rw [hselect, compareTie_max]
    exact if_congr (leValue_iff a b) rfl rfl
  · rw [hselect, compareTie_of_not_tie ht]
    exact if_congr (leMagnitude_iff a b) rfl rfl
  · rw [hselect, compareTie_of_not_tie ht]
    exact if_congr (leMagnitude_iff a b) rfl rfl

/-- Settles O26. -/
theorem signSelection : Obligations.SignSelection := by
  rintro cfg s1 s2 cmp sgn daz tmp h1 h2 rfl
  rw [rangeSP_of_not_snan h1 h2]
  refine ⟨magnitude_applySign .., ?_, ?_, ?_, ?_, sign_dazInput cfg daz s1⟩
  · rintro rfl
    exact sign_withSign ..
  · rintro rfl
    rfl
  · rintro rfl
    exact sign_withSign ..
  · rintro rfl
    exact sign_withSign ..

/-- Settles O27, a row at a time. -/
theorem nanInputTable : Obligations.NanInputTable := by
  intro cfg s1 s2 cmp sgn daz
  refine ⟨fun h => rangeSP_of_isSNaN_left h .., fun h1 h2 => rangeSP_of_isSNaN_right (isSNaN_of_isQNaN h1) h2 ..,
    fun h1 h2 => ?_, fun h1 h2 => ?_, fun h1 h2 => rangeSP_of_isSNaN_right (isNaN_eq_false_iff.mp h1).1 h2 .., fun h1 h2 => ?_,
    rangeSP_ie_iff ..⟩
  · have hd : isDenormal s1 = false := isDenormal_of_isNaN (by rw [isNaN_eq, h1, Bool.or_true])
    rw [rangeSP_of_not_snan (isSNaN_of_isQNaN h1) (isSNaN_of_isQNaN h2), selectTmp_of_isQNaN_right (by simp [h2]),
      dazInput_of_not_denormal hd]
    exact ⟨rfl, rfl⟩
  · obtain ⟨hs2, hq2⟩ := isNaN_eq_false_iff.mp h2
    rw [rangeSP_of_not_snan (isSNaN_of_isQNaN h1) hs2, selectTmp_of_isQNaN_left (by simp [h1]) (by simp [hq2])]
    exact ⟨rfl, rfl⟩
  · obtain ⟨hs1, -⟩ := isNaN_eq_false_iff.mp h1
    rw [rangeSP_of_not_snan hs1 (isSNaN_of_isQNaN h2), selectTmp_of_isQNaN_right (by simp [h2])]
    exact ⟨rfl, rfl⟩

/-- MIN_ABS with the sign of SRC1 (imm8 = 02h) gives the lesser magnitude with the sign of SRC1. -/
theorem rangeSP_minAbs_ofSrc1 {s1 s2 : Dword} (h1 : isNaN s1 = false) (h2 : isNaN s2 = false) {daz : Bool}
    (hd1 : daz = false ∨ isDenormal s1 = false) (hd2 : daz = false ∨ isDenormal s2 = false) (cfg : Config) :
    (rangeSP cfg s1 s2 .minAbs .ofSrc1 daz).res =
      withSign (sign s1) (if leMagnitude s1 s2 then magnitude s1 else magnitude s2) := by
  have hdaz : ∀ {v}, (daz = false ∨ isDenormal v = false) → dazInput cfg daz v = v := fun {v} h => by
    rcases h with rfl | h
    · exact dazInput_false cfg v
    · exact dazInput_of_not_denormal h cfg daz
  obtain ⟨hs1, hq1⟩ := isNaN_eq_false_iff.mp h1
  obtain ⟨hs2, hq2⟩ := isNaN_eq_false_iff.mp h2
  rw [rangeSP_of_not_snan hs1 hs2, hdaz hd1, hdaz hd2, applySign, magnitude_selectTmp_minAbs hq1 hq2]

/-- A value on one side of zero has that side's sign. -/
theorem sign_of_scaledValue {v : Dword} :
    (0 < scaledValue v → sign v = false) ∧ (scaledValue v < 0 → sign v = true) := by
  rw [scaledValue_eq]
  cases sign v <;> simp

/-- Settles O29: below the reference the magnitude is that of SRC1, at or above it that of the reference. -/
theorem clampToReference : Obligations.ClampToReference := by
  intro s1 daz h1 hd
  have hres : (rangeSP Config.default s1 0x43160000#32 (cmpOp 0x02#8) (signSel 0x02#8) daz).res =
      withSign (sign s1) (if leMagnitude s1 0x43160000#32 then magnitude s1 else magnitude 0x43160000#32) :=
    rangeSP_minAbs_ofSrc1 h1 (by decide) hd (.inr (by decide)) _
  have hpos : 0 < scaledValue 0x43160000#32 := by decide
  have hneg : scaledValue 0xC3160000#32 = -scaledValue 0x43160000#32 := by decide
  have hle := leMagnitude_iff s1 0x43160000#32
  have hclamped : (scaledValue 0x43160000#32).natAbs ≤ (scaledValue s1).natAbs →
      (if leMagnitude s1 0x43160000#32 then magnitude s1 else magnitude 0x43160000#32) = magnitude 0x43160000#32 := fun hge => by
    split
    · rename_i h
      exact natAbs_scaledValue_inj.mp (Nat.le_antisymm (hle.mp h) hge)
    · rfl
  obtain ⟨hsignPos, hsignNeg⟩ := sign_of_scaledValue (v := s1)
  generalize scaledValue 0x43160000#32 = ref at *
  refine ⟨fun hbelow => ?_, fun habove => ?_, fun habove => ?_⟩
  · rw [hres, if_pos (hle.mpr hbelow.le), withSign_sign_magnitude]
  · rw [hres, hclamped (by omega), hsignPos (by omega)]
    decide
  · rw [hres, hclamped (by omega), hsignNeg (by omega)]
    decide

end Sys2Proof.Machine

/-! The instruction (40_vrangess.md R102 to R110, R113): what a completed state holds, when an execution completes, and how it
faults. -/

namespace Sys2Proof.Machine

/-! ### What a completed state holds (R103, R104) -/

@[simp] theorem low_append (a : BitVec 96) (v : Dword) : low (a ++ v) = v := BitVec.extractLsb'_append_eq_right

@[simp] theorem upper_append (a : BitVec 96) (v : Dword) : upper (a ++ v) = a := BitVec.extractLsb'_append_eq_left

theorem upper_append_low (v : Xmm) : upper v ++ low v = v := BitVec.extractLsb'_append_extractLsb'

theorem State.zmmAt_wrote_dest (s : State) (c : Common) (v : Dword) (ie de : Bool) (n : Nat) :
    (s.wrote c v ie de n).zmmAt c.dest = (upper (s.xmm c.src1) ++ v).setWidth 512 := by
  rw [wrote_eq, State.zmmAt_complete, if_pos rfl]

theorem State.xmm_wrote_dest (s : State) (c : Common) (v : Dword) (ie de : Bool) (n : Nat) :
    (s.wrote c v ie de n).xmm c.dest = upper (s.xmm c.src1) ++ v := by
  rw [wrote_eq, State.xmm_complete_self]

theorem State.mxcsr_wrote (s : State) (c : Common) (v : Dword) (ie de : Bool) (n : Nat) :
    (s.wrote c v ie de n).mxcsr = s.mxcsr ||| flagBits ie de := mxcsrWith_eq ..

/-- Without its flags a completed state is the one an execution without indications gives. -/
theorem State.setMxcsr_wrote (s : State) (c : Common) (v : Dword) (ie de : Bool) (n : Nat) :
    (s.wrote c v ie de n).setMxcsr s.mxcsr = s.wrote c v false false n := by
  simp only [State.wrote, mxcsrWith_false]
  rfl

theorem State.setFlags_eq (s : State) (ie de : Bool) : s.setFlags ie de = { s with mxcsr := mxcsrWith s.mxcsr ie de } := by
  rw [mxcsrWith_eq]
  rfl

theorem getLsbD_flagBits_zero (ie de : Bool) : (flagBits ie de).getLsbD 0 = ie := by cases ie <;> cases de <;> rfl

theorem getLsbD_flagBits_one (ie de : Bool) : (flagBits ie de).getLsbD 1 = de := by cases ie <;> cases de <;> rfl

/-- Bits 127:32 of a register are those of its XMM. -/
theorem State.upper_xmm (s : State) (r : VReg) : upper (s.xmm r) = (s.zmmAt r).extractLsb' 32 96 :=
  BitVec.extractLsb'_setWidth_of_le (by decide)

theorem extractLsb'_setWidth_high (v : Xmm) : (v.setWidth 512).extractLsb' 128 384 = 0#384 := by
  ext k hk
  simp

/-- Settles O38: every next state is a `wrote`, which zero-extends SRC1[127:32] above the low element. -/
theorem upperBitsWritten : Obligations.UpperBitsWritten := by
  intro i s t h
  obtain ⟨-, v, ie, de, rfl, -⟩ := exec_eq_next h
  rw [State.zmmAt_wrote_dest, extractLsb'_setWidth_high, BitVec.extractLsb'_setWidth_of_le (by decide), ← State.upper_xmm]
  exact ⟨upper_append .., rfl⟩

/-- Settles O50: the low element kept and the bits above it copied are one register's. -/
theorem mergingIntoFirstSource : Obligations.MergingIntoFirstSource := by
  intro i s t hsame hz hk h
  obtain ⟨-, ⟨hk', -⟩ | ⟨-, -, rfl⟩⟩ := exec_eq_next_iff.mp h
  · exact absurd (hk.symm.trans hk') (by decide)
  · rw [State.zmmAt_wrote_dest, maskedLow, hz, if_neg (by decide), ← hsame, upper_append_low]

theorem sameInputs_zmm {i : Instr} {s : State} {z : Vector Zmm 32}
    (h1 : ({ s with zmm := z } : State).xmm i.common.src1 = s.xmm i.common.src1)
    (hd : low (({ s with zmm := z } : State).xmm i.common.dest) = low (s.xmm i.common.dest))
    (h2 : ∀ r, sourceOf i = .reg r → low (({ s with zmm := z } : State).xmm r) = low (s.xmm r)) :
    SameInputs i s { s with zmm := z } :=
  ⟨rfl, h1, hd, h2, rfl, rfl⟩

/-- Settles O48: those bits are the only inputs among the vector registers. -/
theorem onlyReadVectorBitsMatter : Obligations.OnlyReadVectorBitsMatter := by
  intro i s t z ht h1 hd h2
  obtain ⟨v, ie, de, rfl, hexec⟩ := (sameInputs_zmm h1 hd h2).exec_next ht
  refine ⟨_, hexec, ?_, rfl⟩
  rw [State.zmmAt_wrote_dest, State.zmmAt_wrote_dest, h1]

/-! ### Completion, row by row (R102) -/

/-- A memory operand is read where its four bytes are readable and alignment checking lets it. -/
theorem readSource_mem_next {m : MemOperand} {pre : List Prefix} {n : Nat} {s : State} {v : Dword}
    (hread : s.memRead4 (s.linearAddress m pre n) = some v)
    (halign : s.alignCheck = false ∨ (s.linearAddress m pre n).toNat % 4 = 0) : readSource (.mem m) pre n s = .next v := by
  have hmis : (s.alignCheck && misaligned (s.linearAddress m pre n)) = false := by
    rw [Bool.and_eq_false_iff]
    exact halign.imp_right fun h => by rw [← Bool.not_eq_true, misaligned_iff, not_not, h]
  rw [readSource_mem, load_eq_next]
  exact ⟨hmis, hread⟩

/-- Settles O31. -/
theorem registerFormResult : Obligations.RegisterFormResult := by
  intro c r s hr
  exact ⟨fun hk hu => exec_of_unmasked_false rfl hr hk (readSource_reg ..) hu,
    fun hk => exec_of_masked (i := .vrangessReg c r) hr hk (skipSource_reg ..)⟩

/-- Settles O32: under `{sae}` the report writes nothing, so only MXCSR can differ from the plain form. -/
theorem registerSaeFormResult : Obligations.RegisterSaeFormResult := by
  intro c r s hr
  refine ⟨fun hk => ?_, fun hk => exec_of_masked (i := .vrangessRegSae c r) hr hk (skipSource_reg ..)⟩
  have hsae : exec (.vrangessRegSae c r) s =
      .next (s.wrote c (s.rangeOf c (low (s.xmm r))).res false false (c.pre.length + 7)) :=
    exec_of_sae rfl hr hk (readSource_reg ..)
  refine ⟨hsae, fun t ht => ?_⟩
  obtain ⟨-, ⟨-, s2, h2, ⟨hs, -⟩ | ⟨-, -, rfl⟩⟩ | ⟨hk', -⟩⟩ := exec_eq_next_iff.mp ht
  · cases hs
  · obtain rfl : low (s.xmm r) = s2 := Host.Outcome.next.inj h2
    rw [hsae]
    exact congrArg Host.Outcome.next (s.setMxcsr_wrote ..).symm
  · exact absurd (hk.symm.trans hk') (by decide)

/-- Settles O33. -/
theorem memoryFormResult : Obligations.MemoryFormResult :=
  fun _ _ _ _ hr hk hread halign hu => exec_of_unmasked_false rfl hr hk (readSource_mem_next hread halign) hu

/-- Settles O34. -/
theorem memoryDisp8FormResult : Obligations.MemoryDisp8FormResult :=
  fun _ _ _ _ _ hr hk hread halign hu => exec_of_unmasked_false rfl hr hk (readSource_mem_next hread halign) hu

/-- Settles O35. -/
theorem memoryDisp32FormResult : Obligations.MemoryDisp32FormResult :=
  fun _ _ _ _ _ hr hk hread halign hu => exec_of_unmasked_false rfl hr hk (readSource_mem_next hread halign) hu

/-! ### The report of an execution (R104, R105) -/

theorem State.unmasked_eq_true {s : State} {ie de : Bool} :
    s.unmasked ie de = true ↔ (ie = true ∧ s.im = false) ∨ (de = true ∧ s.dm = false) := by
  simp [State.unmasked]

/-- Settles O36. -/
theorem maskedResponse : Obligations.MaskedResponse := by
  intro i s s2 hs hr hk h2 hie hde
  refine ⟨rangeSP_not_ie_and_de _ _ _ _ _ _, ?_⟩
  have hu : s.unmasked (s.rangeOf i.common s2).ie (s.rangeOf i.common s2).de = false := by
    rw [← Bool.not_eq_true, State.unmasked_eq_true]
    rintro (⟨h, him⟩ | ⟨h, hdm⟩)
    · exact hie.elim (by simp [h]) (by simp [him])
    · exact hde.elim (by simp [h]) (by simp [hdm])
  refine ⟨_, exec_of_unmasked_false hs hr hk h2 hu, ?_, ?_, fun b hb => ?_, rfl, ?_⟩
  · rw [State.ieFlag, State.mxcsr_wrote, BitVec.getLsbD_or, getLsbD_flagBits_zero, State.ieFlag]
  · rw [State.deFlag, State.mxcsr_wrote, BitVec.getLsbD_or, getLsbD_flagBits_one, State.deFlag]
  · rw [State.mxcsr_wrote, BitVec.getLsbD_or, getLsbD_flagBits_of_two_le _ _ hb, Bool.or_false]
  · rw [State.xmm_wrote_dest, low_append]

/-- An unmasked exception with the mask bit 1 and no `{sae}`. -/
theorem exec_of_unmasked {i : Instr} {s : State} {s2 : Dword} (hs : saeOf i = false) (hr : s.Ready i.common i.length)
    (hk : s.maskBit i.common.mask = true) (h2 : readSource (sourceOf i) i.common.pre i.length s = .next s2)
    (hu : s.unmasked (s.rangeOf i.common s2).ie (s.rangeOf i.common s2).de = true) :
    exec i s = .fault (if s.osxmmexcpt
      then .xm (s.rangeOf i.common s2).ie (s.rangeOf i.common s2).de
        (s.setFlags (s.rangeOf i.common s2).ie (s.rangeOf i.common s2).de)
      else .ud .osxmmexcpt (s.setFlags (s.rangeOf i.common s2).ie (s.rangeOf i.common s2).de)) := by
  rw [exec_eq, vrangess_of_ready hr hk h2, andThen_eq_fault]
  exact .inl (report_eq_fault.mpr ⟨hs, hu, rfl⟩)

/-- Settles O37. -/
theorem unmaskedResponse : Obligations.UnmaskedResponse := by
  refine ⟨fun i s u s2 hs hr hk h2 hu hstate => ?_, fun _ _ _ => rfl, fun _ => rfl, rfl, fun _ _ _ _ => rfl, by decide⟩
  rw [exec_of_unmasked hs hr hk h2 (State.unmasked_eq_true.mpr hu), State.setFlags_eq, ← hstate]
  exact ⟨fun hx => by rw [if_pos hx], fun hx => by rw [if_neg (by simp [hx])]⟩

/-! ### Every way to fault (R107, R110) -/

/-- The exceptions of the gate: #GP for the length, #UD and #NM. -/
theorem gate_fault_cases {c : Common} {n : Nat} {s : State} {f : Fault} (h : gate c n s = .fault f) :
    (maxLength < n ∧ f = .gp s) ∨ (∃ why, f = .ud why s) ∨ f = .nm s := by
  unfold gate at h
  split at h
  · cases h
  · split at h
    · cases h
    · split at h
      · cases h
      · split at h
        · exact .inl ⟨‹_›, (Host.Outcome.fault.inj h).symm⟩
        · split at h
          · exact .inr (.inl ⟨_, (Host.Outcome.fault.inj h).symm⟩)
          · split at h
            · exact .inr (.inl ⟨_, (Host.Outcome.fault.inj h).symm⟩)
            · split at h
              · exact .inr (.inr (Host.Outcome.fault.inj h).symm)
              · cases h

/-- The exceptions of the load, at the address read. -/
theorem load_fault_cases {s : State} {la : Qword} {f : Fault} (h : s.load la = .fault f) :
    f = .memoryFault la s ∨ f = .ac la s := by
  unfold State.load at h
  split at h
  · exact .inl (Host.Outcome.fault.inj h).symm
  · split at h
    · exact .inr (Host.Outcome.fault.inj h).symm
    · split at h
      · cases h
      · exact .inl (Host.Outcome.fault.inj h).symm

theorem readSource_fault_cases {src : Source} {pre : List Prefix} {n : Nat} {s : State} {f : Fault}
    (h : readSource src pre n s = .fault f) : ∃ m, src = .mem m ∧
      (f = .memoryFault (s.linearAddress m pre n) s ∨ f = .ac (s.linearAddress m pre n) s) := by
  cases src with
  | reg r => cases h
  | mem m => exact ⟨m, rfl, load_fault_cases h⟩

/-- An execution faults in the gate, in the read of its memory operand, or in its report. -/
theorem exec_eq_fault {i : Instr} {s : State} {f : Fault} (h : exec i s = .fault f) :
    gate i.common i.length s = .fault f ∨
    (s.maskBit i.common.mask = true ∧ readSource (sourceOf i) i.common.pre i.length s = .fault f) ∨
    (s.maskBit i.common.mask = true ∧ ∃ s2, readSource (sourceOf i) i.common.pre i.length s = .next s2 ∧
      report (s.rangeOf i.common s2).ie (s.rangeOf i.common s2).de (saeOf i) s = .fault f) := by
  rw [exec_eq, vrangess] at h
  rcases andThen_eq_fault.mp h with hg | ⟨u, -, h⟩
  · exact .inl hg
  · split at h
    · rename_i hk
      rcases andThen_eq_fault.mp h with h2 | ⟨s2, h2, h⟩
      · exact .inr (.inl ⟨hk, h2⟩)
      · rcases andThen_eq_fault.mp h with h3 | ⟨s', -, h⟩
        · exact .inr (.inr ⟨hk, s2, h2, h3⟩)
        · cases h
    · rcases andThen_eq_fault.mp h with h2 | ⟨_, -, h⟩
      · exact absurd h2 skipSource_ne_fault
      · cases h

/-- Settles O41. -/
theorem programCounterRule : Obligations.ProgramCounterRule := by
  refine ⟨fun i s t h => ?_, fun i s f h => ?_⟩
  · obtain ⟨-, v, ie, de, rfl, -⟩ := exec_eq_next h
    rw [length_encode]
    rfl
  · rw [exec_eq] at h
    rcases vrangess_eq_fault h with hstate | ⟨-, ie, de, -, hstate⟩
    · rw [hstate]
    · rw [hstate, State.setFlags_rip]

/-- An unmasked exception: an SNaN input with IM = 0, or a denormal input with DAZ = 0 and DM = 0 whose partner is not a NaN. -/
theorem rangeOf_unmasked_cases {s : State} {c : Common} {s2 : Dword}
    (hu : s.unmasked (s.rangeOf c s2).ie (s.rangeOf c s2).de = true) :
    ((s.rangeOf c s2).ie = true ∧ (s.rangeOf c s2).de = false ∧ s.im = false ∧
        (isSNaN (low (s.xmm c.src1)) = true ∨ isSNaN s2 = true)) ∨
    ((s.rangeOf c s2).ie = false ∧ (s.rangeOf c s2).de = true ∧ s.dm = false ∧ s.daz = false ∧
        ((isDenormal (low (s.xmm c.src1)) = true ∧ isNaN s2 = false) ∨
          (isDenormal s2 = true ∧ isNaN (low (s.xmm c.src1)) = false))) := by
  have hone : ¬ ((s.rangeOf c s2).ie = true ∧ (s.rangeOf c s2).de = true) := rangeSP_not_ie_and_de _ _ _ _ _ _
  rcases State.unmasked_eq_true.mp hu with ⟨hie, him⟩ | ⟨hde, hdm⟩
  · exact .inl ⟨hie, Bool.eq_false_iff.mpr fun hde => hone ⟨hie, hde⟩, him, (rangeSP_ie_iff ..).mp hie⟩
  · obtain ⟨hdaz, hden⟩ := (rangeSP_de_iff ..).mp hde
    exact .inr ⟨Bool.eq_false_iff.mpr fun hie => hone ⟨hie, hde⟩, hde, hdm, hdaz, hden⟩

/-- Settles O43, by the part of the execution that faults. -/
theorem faultsByForm : Obligations.FaultsByForm := by
  intro i s f h
  rcases exec_eq_fault h with hg | ⟨hk, h2⟩ | ⟨hk, s2, h2, h3⟩
  · obtain ⟨hlen, rfl⟩ | ⟨why, rfl⟩ | rfl := gate_fault_cases hg
    · exact ⟨by simp, fun _ _ => hlen, by simp⟩
    · exact ⟨by simp, by simp, by simp⟩
    · exact ⟨by simp, by simp, by simp⟩
  · obtain ⟨m, hm, rfl | rfl⟩ := readSource_fault_cases h2
    · exact ⟨fun _ _ _ => ⟨⟨m, hm⟩, hk⟩, by simp, by simp⟩
    · exact ⟨fun _ _ _ => ⟨⟨m, hm⟩, hk⟩, by simp, by simp⟩
  · obtain ⟨hs, hu, hf⟩ := report_eq_fault.mp h3
    split at hf
    · subst hf
      refine ⟨by simp, by simp, fun ie de t hxm => ?_⟩
      obtain ⟨rfl, rfl, -⟩ := Fault.xm.inj hxm
      exact ⟨hs, hk, ‹_›, s2, h2, rangeOf_unmasked_cases hu⟩
    · subst hf
      exact ⟨by simp, by simp, by simp⟩

/-! ### imm8, DAZ and the result (R113) -/

/-- The controls are imm8[3:0]. -/
theorem controls_congr {a b : Byte} (h : b.extractLsb' 0 4 = a.extractLsb' 0 4) : cmpOp b = cmpOp a ∧ signSel b = signSel a := by
  have hbit : ∀ j, j < 4 → b.getLsbD j = a.getLsbD j := fun j hj => by
    simpa [BitVec.getLsbD_extractLsb', hj] using congrArg (BitVec.getLsbD · j) h
  simp only [cmpOp, signSel, hbit 0 (by decide), hbit 1 (by decide), hbit 2 (by decide), hbit 3 (by decide), and_self]

/-- The vector registers after an execution that goes on: only the mask bit and RangeSP's result decide them. -/
theorem exec_next_zmm {i : Instr} {s t : State} (h : exec i s = .next t) :
    (s.maskBit i.common.mask = true ∧ ∃ s2, readSource (sourceOf i) i.common.pre i.length s = .next s2 ∧
      t.zmm = (s.wrote i.common (s.rangeOf i.common s2).res false false i.length).zmm) ∨
    (s.maskBit i.common.mask = false ∧ t.zmm = (s.wrote i.common (maskedLow i.common s) false false i.length).zmm) := by
  obtain ⟨-, ⟨hk, s2, h2, ⟨-, rfl⟩ | ⟨-, -, rfl⟩⟩ | ⟨hk, -, rfl⟩⟩ := exec_eq_next_iff.mp h
  · exact .inl ⟨hk, s2, h2, rfl⟩
  · exact .inl ⟨hk, s2, h2, rfl⟩
  · exact .inr ⟨hk, rfl⟩

/-- MXCSR is no input of the read. -/
theorem readSource_setMxcsr {src : Source} {pre : List Prefix} {n : Nat} {s : State} {v w : Dword} :
    readSource src pre n (s.setMxcsr v) = .next w ↔ readSource src pre n s = .next w := by
  cases src with
  | reg r => exact Iff.rfl
  | mem m =>
    rw [readSource_mem, readSource_mem, load_eq_next, load_eq_next]
    exact Iff.rfl

/-- Of MXCSR the vector registers depend on DAZ alone. -/
theorem exec_next_zmm_of_daz {i : Instr} {s t t' : State} {v : Dword} (hdaz : v.getLsbD 6 = s.mxcsr.getLsbD 6)
    (h : exec i s = .next t) (h' : exec i (s.setMxcsr v) = .next t') : t'.zmm = t.zmm := by
  have hrange : ∀ w, (s.setMxcsr v).rangeOf i.common w = s.rangeOf i.common w := fun w => by
    rw [State.rangeOf, State.daz, State.setMxcsr_mxcsr, hdaz]
    rfl
  rcases exec_next_zmm h with ⟨hk, s2, h2, hz⟩ | ⟨hk, hz⟩ <;>
    rcases exec_next_zmm h' with ⟨hk', s2', h2', hz'⟩ | ⟨hk', hz'⟩
  · obtain rfl := Host.Outcome.next.inj (h2.symm.trans (readSource_setMxcsr.mp h2'))
    rw [hz', hz, hrange]
    rfl
  · exact absurd (hk.symm.trans hk') (by decide)
  · exact absurd (hk.symm.trans hk') (by decide)
  · rw [hz', hz]
    rfl

/-- Settles O28, a property at a time. -/
theorem rangeProperties : Obligations.RangeProperties := by
  refine ⟨fun cfg s1 s2 cmp sgn daz h1 h2 => ?_, fun cfg s1 s2 cmp sgn daz h1 h2 => ⟨fun hsgn => ?_, ?_⟩, fun cfg x cmp h => ?_,
    fun i s b hpolicy hb => ?_, fun i s t t' v hdaz h h' => exec_next_zmm_of_daz hdaz h h'⟩
  · simp only [rangeSP_of_not_snan h1 h2]
    refine ⟨?_, sign_withSign .., sign_withSign .., sign_withSign .., trivial⟩
    change magnitude _ = magnitude _ ∨ magnitude _ = magnitude _
    rw [magnitude_applySign]
    exact magnitude_selectTmp ..
  · obtain ⟨hs1, hq1⟩ := isNaN_eq_false_iff.mp h1
    obtain ⟨hs2, hq2⟩ := isNaN_eq_false_iff.mp h2
    rw [rangeSP_of_not_snan hs1 hs2, rangeSP_of_not_snan hs2 hs1, selectTmp_comm (by simp [hq1]) (by simp [hq2]),
      applySign_congr hsgn s1 s2, Bool.or_comm]
  · rw [rangeSP_de_iff]
    simp [h1, h2]
  · rw [rangeSP_self h, dazInput_false, applySign, Bool.not_false, Bool.and_true]
  · have hallowed := immAllowed_of_ignore hpolicy
    obtain ⟨hcmp, hsign⟩ := controls_congr hb
    rw [exec_withImm, vrangess_congr_imm hcmp hsign (hallowed _) (hallowed _), exec_eq]

end Sys2Proof.Machine

/-! Exceptions (60_exceptions.md R131 to R147): the gate's order of checks, when the read of a memory operand faults and how, what a step
does where there is no instruction to execute, and what a fault stands for on the chip. -/

namespace Sys2Proof.Machine

/-! ### The enabling checks (R133, R134) -/

/-- Nothing stops the gate before the enabling checks: 64-bit mode, and an encoding and a place the model gives a meaning to. -/
structure State.Admits (s : State) (c : Common) (n : Nat) : Prop where
  mode : s.mode = .mode64
  rip : s.ripInRange n = true
  imm : immAllowed s.cfg c.imm8 = true
  length : n ≤ maxLength
  masking : c.wellFormed = true

theorem State.admits_of_wellFormed {s : State} {i : Instr} (hm : s.mode = .mode64) (hr : s.ripInRange i.length = true)
    (hi : immAllowed s.cfg i.common.imm8 = true) (hw : i.wellFormed = true) : s.Admits i.common i.length := by
  simp only [Instr.wellFormed, Bool.and_eq_true, decide_eq_true_eq] at hw
  obtain ⟨⟨hmask, -⟩, hlen⟩ := hw
  exact ⟨hm, hr, hi, hlen, hmask⟩

theorem gate_of_enableUd {s : State} {c : Common} {n : Nat} {why : UdCause} (ha : s.Admits c n) (h : s.enableUd = some why) :
    gate c n s = .fault (.ud why s) := by
  have hn : ¬ maxLength < n := Nat.not_lt.mpr ha.length
  simp [gate, ha.mode, ha.rip, ha.imm, hn, ha.masking, h, raise]

theorem gate_of_ts {s : State} {c : Common} {n : Nat} (ha : s.Admits c n) (h : s.enableUd = none) (ht : s.ts = true) :
    gate c n s = .fault (.nm s) := by
  have hn : ¬ maxLength < n := Nat.not_lt.mpr ha.length
  simp [gate, ha.mode, ha.rip, ha.imm, hn, ha.masking, h, ht, raise]

theorem exec_of_enableUd {s : State} {i : Instr} {why : UdCause} (ha : s.Admits i.common i.length) (h : s.enableUd = some why) :
    exec i s = .fault (.ud why s) :=
  exec_of_gate_fault (gate_of_enableUd ha h)

theorem enableUd_of_no_feature {s : State} (hf : featurePresent s.cfg = false) : s.enableUd = some .feature := if_pos hf

theorem enableUd_of_no_osxsave {s : State} (hf : featurePresent s.cfg = true) (ho : s.osxsave = false) :
    s.enableUd = some .osxsave := by
  simp [State.enableUd, hf, ho]

theorem enableUd_of_no_xcr0 {s : State} (hf : featurePresent s.cfg = true) (ho : s.osxsave = true) (hx : s.xcr0Enabled = false) :
    s.enableUd = some .xcr0 := by
  simp [State.enableUd, hf, ho, hx]

theorem featurePresent_iff {c : Config} : featurePresent c = true ↔
    c.cpuid7_0_ebx.getLsbD 17 = true ∨ (c.cpuid7_1_edx.getLsbD 19 = true ∧ 1 ≤ c.avx10Version.toNat) := by
  rw [featurePresent, Bool.or_eq_true, Bool.and_eq_true, decide_eq_true_eq]

theorem State.xcr0Enabled_eq_false {s : State} :
    s.xcr0Enabled = false ↔ s.xcr0.extractLsb' 1 2 ≠ 0b11#2 ∨ s.xcr0.extractLsb' 5 3 ≠ 0b111#3 := by
  rw [State.xcr0Enabled, Bool.and_eq_false_iff, beq_eq_false_iff_ne, beq_eq_false_iff_ne]

/-- Settles O44: the gate raises the first enabling condition that fails, before it looks at CR0.TS and before any operand is read. -/
theorem enablingFaults : Obligations.EnablingFaults := by
  refine ⟨fun c => featurePresent_iff, fun i s hm hr hi hw => ?_⟩
  have ha := State.admits_of_wellFormed hm hr hi hw
  exact ⟨fun hf => exec_of_enableUd ha (enableUd_of_no_feature hf),
    fun hf ho => exec_of_enableUd ha (enableUd_of_no_osxsave hf ho),
    fun hf ho hx => exec_of_enableUd ha (enableUd_of_no_xcr0 hf ho (State.xcr0Enabled_eq_false.mpr hx))⟩

/-- Settles O45: the gate looks at CR0.TS where no enabling condition fails. -/
theorem deviceNotAvailable : Obligations.DeviceNotAvailable := by
  refine ⟨fun i s hm hr hi hw ht => ?_, rfl, fun _ _ _ _ => rfl, by decide⟩
  have ha := State.admits_of_wellFormed hm hr hi hw
  refine ⟨fun henabled => exec_of_gate_fault (gate_of_ts ha (enableUd_eq_none.mpr henabled) ht), fun hnot => ?_⟩
  obtain ⟨why, hwhy⟩ := Option.ne_none_iff_exists'.mp fun h => hnot (enableUd_eq_none.mp h)
  exact ⟨why, exec_of_enableUd ha hwhy⟩

/-! ### Canonical addresses, bit by bit (10_state.md R30) -/

/-- The bits from `n` up are all 0 or all 1 when each equals the highest. -/
theorem extract_high_uniform_iff (a : Qword) {n w : Nat} (h : n + w = 64) :
    (a.extractLsb' n w = 0#w ∨ a.extractLsb' n w = BitVec.allOnes w) ↔
      ∀ b, n ≤ b → b < 64 → a.getLsbD b = a.getLsbD 63 := by
  have hbit : ∀ b, n ≤ b → b < 64 → (a.extractLsb' n w).getLsbD (b - n) = a.getLsbD b := fun b hn hb => by
    rw [BitVec.getLsbD_extractLsb', Nat.add_sub_cancel' hn, decide_eq_true (by omega), Bool.true_and]
  constructor
  · rintro (hv | hv) b hn hb
    · rw [← hbit b hn hb, ← hbit 63 (by omega) (by omega), hv, BitVec.getLsbD_zero, BitVec.getLsbD_zero]
    · rw [← hbit b hn hb, ← hbit 63 (by omega) (by omega), hv, BitVec.getLsbD_allOnes, BitVec.getLsbD_allOnes,
        decide_eq_true (by omega), decide_eq_true (by omega)]
  · intro hall
    have hextract : ∀ k, k < w → (a.extractLsb' n w).getLsbD k = a.getLsbD 63 := fun k hk => by
      rw [← hall (n + k) (by omega) (by omega), ← hbit (n + k) (by omega) (by omega), Nat.add_sub_cancel_left]
    cases htop : a.getLsbD 63 with
    | false =>
      refine .inl (BitVec.eq_of_getLsbD_eq fun k hk => ?_)
      rw [hextract k hk, htop, BitVec.getLsbD_zero]
    | true =>
      refine .inr (BitVec.eq_of_getLsbD_eq fun k hk => ?_)
      rw [hextract k hk, htop, BitVec.getLsbD_allOnes, decide_eq_true hk]

theorem canonical_iff_bits {p : Paging} {a : Qword} :
    canonical p a = true ↔ ∀ b, pagingWidth p ≤ b → b < 64 → a.getLsbD b = a.getLsbD 63 := by
  cases p with
  | level4 => rw [canonical, Bool.or_eq_true, beq_iff_eq, beq_iff_eq]; exact extract_high_uniform_iff a rfl
  | level5 => rw [canonical, Bool.or_eq_true, beq_iff_eq, beq_iff_eq]; exact extract_high_uniform_iff a rfl

theorem two_pow_pagingWidth_le (p : Paging) : 2 ^ pagingWidth p ≤ 2 ^ 56 := by cases p <;> decide

/-- Of four addresses that do not wrap the inner ones are canonical when the outer ones are: the gap between the lowest and the highest
part of the address space is wider than two addresses. -/
theorem State.canonical4_iff {s : State} {la : Qword} : s.canonical4 la = true ↔
    la.toNat + 3 < 2 ^ 64 ∧ ∀ k, k < 4 → canonical s.cfg.paging (la + BitVec.ofNat 64 k) = true := by
  rw [State.canonical4, Bool.and_eq_true, Bool.and_eq_true, decide_eq_true_eq, addressSpace, and_assoc]
  refine and_congr_right fun htop => ⟨?_, fun h => ⟨by simpa using h 0 (by decide), h 3 (by decide)⟩⟩
  rintro ⟨hfirst, hlast⟩ k hk
  have hnat : ∀ j, j < 4 → (la + BitVec.ofNat 64 j).toNat = la.toNat + j := fun j hj => by
    rw [BitVec.toNat_add, BitVec.toNat_ofNat, Nat.mod_eq_of_lt (show j < 2 ^ 64 by omega), Nat.mod_eq_of_lt (by omega)]
  have hwidth := two_pow_pagingWidth_le s.cfg.paging
  rw [canonical_iff] at hfirst hlast ⊢
  rw [hnat 3 (by decide)] at hlast
  rw [hnat k hk]
  omega

theorem State.ripInRange_iff {s : State} {n : Nat} : s.ripInRange n = true ↔
    s.rip.toNat + n < 2 ^ 64 ∧ ∀ b, pagingWidth s.cfg.paging ≤ b → b < 64 →
      s.rip.getLsbD b = s.rip.getLsbD 63 ∧
      (s.rip + BitVec.ofNat 64 n).getLsbD b = (s.rip + BitVec.ofNat 64 n).getLsbD 63 := by
  rw [State.ripInRange, Bool.and_eq_true, Bool.and_eq_true, decide_eq_true_eq, addressSpace, and_assoc,
    canonical_iff_bits, canonical_iff_bits]
  exact and_congr_right fun _ => ⟨fun ⟨hrip, hnext⟩ b hn hb => ⟨hrip b hn hb, hnext b hn hb⟩,
    fun h => ⟨fun b hn hb => (h b hn hb).1, fun b hn hb => (h b hn hb).2⟩⟩

/-! ### The read of a memory operand (R135 to R137, R139) -/

theorem Memory.read4_eq_none {m : Memory} {a : Nat} :
    Memory.read4 m a = none ↔ ∃ k, k < 4 ∧ Memory.read m (a + k) = none := by
  constructor
  · intro h
    by_contra hall
    have hthere : ∀ k, k < 4 → ∃ b, Memory.read m (a + k) = some b := fun k hk =>
      Option.ne_none_iff_exists'.mp fun hnone => hall ⟨k, hk, hnone⟩
    obtain ⟨b0, h0⟩ := hthere 0 (by decide)
    obtain ⟨b1, h1⟩ := hthere 1 (by decide)
    obtain ⟨b2, h2⟩ := hthere 2 (by decide)
    obtain ⟨b3, h3⟩ := hthere 3 (by decide)
    cases h.symm.trans (Memory.read4_of_reads h0 h1 h2 h3)
  · rintro ⟨k, hk, h⟩
    unfold Memory.read4
    split
    · interval_cases k <;> simp_all
    · rfl

theorem State.memRead4_of_canonical {s : State} {la : Qword} (hc : s.canonical4 la = true) :
    s.memRead4 la = Memory.read4 s.mem la.toNat := if_pos hc

theorem State.alignCheck_iff {s : State} : s.alignCheck = true ↔ s.am = true ∧ s.acFlag = true ∧ s.cpl = 3#2 := by
  rw [State.alignCheck, Bool.and_eq_true, Bool.and_eq_true, beq_iff_eq, and_assoc]

theorem load_of_not_canonical {s : State} {la : Qword} (hc : s.canonical4 la = false) :
    s.load la = .fault (.memoryFault la s) := by
  rw [State.load, if_pos hc]
  rfl

theorem load_of_misaligned {s : State} {la : Qword} (hc : s.canonical4 la = true)
    (ha : (s.alignCheck && misaligned la) = true) : s.load la = .fault (.ac la s) := by
  rw [State.load, if_neg (by simp [hc]), if_pos ha]
  rfl

theorem load_of_absent {s : State} {la : Qword} (hc : s.canonical4 la = true)
    (ha : (s.alignCheck && misaligned la) = false) (hread : s.memRead4 la = none) :
    s.load la = .fault (.memoryFault la s) := by
  rw [State.load, if_neg (by simp [hc]), if_neg (by simp [ha]), hread]
  rfl

/-- An #AC of the load is one of the alignment check, at the address read. -/
theorem load_eq_ac {s t : State} {la la' : Qword} (h : s.load la = .fault (.ac la' t)) :
    s.alignCheck = true ∧ misaligned la = true ∧ la' = la ∧ t = s := by
  unfold State.load at h
  split at h
  · cases h
  · split at h
    · rename_i ha
      obtain ⟨halign, hmis⟩ := Bool.and_eq_true_iff.mp ha
      cases h
      exact ⟨halign, hmis, rfl, rfl⟩
    · split at h <;> cases h

/-- With the mask bit 1, what the operand faults with the instruction faults with. -/
theorem exec_of_read_fault {i : Instr} {s : State} {f : Fault} (hr : s.Ready i.common i.length)
    (hk : s.maskBit i.common.mask = true) (h : readSource (sourceOf i) i.common.pre i.length s = .fault f) :
    exec i s = .fault f := by
  rw [exec_eq, vrangess, gate_eq_next_iff (u := ()) |>.mpr hr, andThen_next, if_pos hk, compute, h, andThen_fault]

theorem exec_of_load_fault {i : Instr} {s : State} {m : MemOperand} {f : Fault} (hr : s.Ready i.common i.length)
    (hsrc : sourceOf i = .mem m) (hk : s.maskBit i.common.mask = true) (h : s.load (s.operandAddress i m) = .fault f) :
    exec i s = .fault f := by
  refine exec_of_read_fault hr hk ?_
  rw [hsrc, readSource_mem]
  exact h

/-- An #AC comes from the read of a memory operand, never from the gate or the report. -/
theorem exec_eq_ac {i : Instr} {s t : State} {la : Qword} (h : exec i s = .fault (.ac la t)) :
    s.maskBit i.common.mask = true ∧ ∃ m, sourceOf i = .mem m ∧ s.load (s.operandAddress i m) = .fault (.ac la t) := by
  rcases exec_eq_fault h with hg | ⟨hk, h2⟩ | ⟨-, s2, -, h3⟩
  · obtain ⟨-, hf⟩ | ⟨why, hf⟩ | hf := gate_fault_cases hg <;> cases hf
  · obtain ⟨m, hm, -⟩ := readSource_fault_cases h2
    rw [hm, readSource_mem] at h2
    exact ⟨hk, m, hm, h2⟩
  · obtain ⟨-, -, hf⟩ := report_eq_fault.mp h3
    split at hf <;> cases hf

/-- Settles O16: an #AC comes from the load alone, which checks the alignment once the address is canonical. -/
theorem alignmentCheckFault : Obligations.AlignmentCheckFault := by
  refine ⟨fun i s m hr hsrc hk hc ham hac hcpl hmis => ?_, fun i s t la h => ?_, by decide⟩
  · have halign := State.alignCheck_iff.mpr ⟨ham, hac, hcpl⟩
    exact exec_of_load_fault hr hsrc hk
      (load_of_misaligned hc (Bool.and_eq_true_iff.mpr ⟨halign, (misaligned_iff _).mpr hmis⟩))
  · obtain ⟨hk, m, hsrc, hload⟩ := exec_eq_ac h
    obtain ⟨halign, hmis, rfl, rfl⟩ := load_eq_ac hload
    obtain ⟨ham, hac, hcpl⟩ := State.alignCheck_iff.mp halign
    exact ⟨rfl, hk, ham, hac, hcpl, (misaligned_iff _).mp hmis, m, hsrc, rfl⟩

/-- Settles O17: the load is a memory fault where the address is not canonical, and where it passes the alignment check and a byte
is absent. -/
theorem unreadableOperandFaults : Obligations.UnreadableOperandFaults := by
  refine ⟨fun s la => ?_, fun i s m hr hsrc hk h => exec_of_load_fault hr hsrc hk ?_⟩
  · simp only [State.canonical4_iff, canonical_iff_bits]
    exact Iff.rfl
  · cases hc : s.canonical4 (s.operandAddress i m) with
    | false => exact load_of_not_canonical hc
    | true =>
      obtain ⟨halign, habsent⟩ := h.resolve_left (by simp [hc])
      refine load_of_absent hc ?_ ((State.memRead4_of_canonical hc).trans (Memory.read4_eq_none.mpr habsent))
      rw [Bool.and_eq_false_iff, ← Bool.not_eq_true (misaligned _), misaligned_iff, not_not]
      exact halign

/-! ### Precision (R141) -/

/-- Settles O42, by the part of the execution that faults: the gate and the read raise at the state before, the report after it has set
the flags. -/
theorem preciseFaults : Obligations.PreciseFaults := by
  intro i s f h
  rcases exec_eq_fault h with hg | ⟨-, h2⟩ | ⟨-, s2, -, h3⟩
  · obtain ⟨-, rfl⟩ | ⟨why, rfl⟩ | rfl := gate_fault_cases hg
    · rfl
    · cases why with
      | osxmmexcpt => exact ⟨false, false, by rw [mxcsrWith_false]⟩
      | _ => rfl
    · rfl
  · obtain ⟨m, -, rfl | rfl⟩ := readSource_fault_cases h2 <;> rfl
  · obtain ⟨-, -, hf⟩ := report_eq_fault.mp h3
    split at hf
    · subst hf
      exact s.setFlags_eq ..
    · subst hf
      exact ⟨_, _, s.setFlags_eq ..⟩

/-! ### A step without an instruction to execute (R147; 70_reset_and_hazards.md R165) -/

theorem fetch_of_onProgram {s : State} (hm : s.mode = .mode64) (ho : s.onProgram = true) :
    fetch s = verdictResult (decode s.bytesAtRip) s := by
  simp [fetch, hm, ho]

theorem fetch_of_offProgram {s : State} (hm : s.mode = .mode64) (ho : s.onProgram = false) :
    fetch s = .refused .notInstructionStart := by
  simp [fetch, hm, ho]

/-- Before the end of the run, a fault of the fetch is the step's. -/
theorem step_of_fetch_fault {s : State} {f : Fault} (hr : s.runComplete = false) (h : fetch s = .fault f) :
    step s = .fault f := by
  rw [step, if_neg (by simp [hr]), h, andThen_fault]

theorem gate_of_rip_out_of_range {s : State} {n : Nat} (hm : s.mode = .mode64) (hr : s.ripInRange n = false) (c : Common) :
    gate c n s = .refused .ripLeavesCanonical := by
  simp [gate, hm, hr]

/-- Settles O52: each stop is the fetch's, or the gate's of the instruction fetched. -/
theorem stepWithoutInstruction : Obligations.StepWithoutInstruction := by
  refine ⟨fun s hm hr ho => ?_, fun s hm hr ho => step_of_fetch_refused hr (fetch_of_offProgram hm ho), fun s => step_of_complete,
    fun s i hm hrip => exec_of_gate_refused (gate_of_rip_out_of_range hm hrip _), fun s n => State.ripInRange_iff,
    fun s i hm hr ho hd hrip hpolicy hhi => ?_⟩
  · have hfetch := fetch_of_onProgram hm ho
    refine ⟨fun why hd => step_of_fetch_fault hr ?_, fun hd => step_of_fetch_refused hr ?_,
      fun hd => step_of_fetch_refused hr ?_, fun hd => step_of_fetch_refused hr ?_⟩
    all_goals
      rw [hfetch, hd]
      rfl
  · rw [step_of_overlong hm ho hr hd]
    exact exec_of_gate_refused (gate_of_imm_refused hm hrip (immAllowed_of_refuse hpolicy hhi))

/-! ### What a fault stands for (R135, R136, R138) -/

/-- The bits of a #PF's error code, from the lowest: P, W/R, U/S, RSVD, I/D, PK. -/
theorem State.pageFaultCode_bits (s : State) (p rsvd pk : Bool) {c : Dword} (hc : c = (s.pageFaultCode p rsvd pk).setWidth 32) :
    c.getLsbD 0 = p ∧ c.getLsbD 1 = false ∧ c.getLsbD 2 = (s.cpl == 3#2) ∧ c.getLsbD 3 = rsvd ∧ c.getLsbD 4 = false ∧
      c.getLsbD 5 = pk := by
  subst hc
  unfold State.pageFaultCode
  generalize (s.cpl == 3#2) = us
  revert p rsvd pk us
  decide

/-- CR2 gets the lowest address of the four at which there is no byte. -/
theorem State.faultingAddress_lowest {s : State} {la : Qword} (h : Memory.read4 s.mem la.toNat = none) :
    ∃ k, k < 4 ∧ s.faultingAddress la = la + BitVec.ofNat 64 k ∧ Memory.read s.mem (la.toNat + k) = none ∧
      ∀ j, j < k → Memory.read s.mem (la.toNat + j) ≠ none := by
  obtain ⟨k, hk, hnone⟩ := Memory.read4_eq_none.mp h
  unfold State.faultingAddress
  split
  · exact ⟨0, by decide, (BitVec.add_zero la).symm, ‹_›, fun j hj => absurd hj (Nat.not_lt_zero j)⟩
  · rename_i h0
    split
    · refine ⟨1, by decide, rfl, ‹_›, fun j hj => ?_⟩
      obtain rfl := Nat.lt_one_iff.mp hj
      exact h0
    · rename_i h1
      split
      · refine ⟨2, by decide, rfl, ‹_›, fun j hj => ?_⟩
        interval_cases j <;> assumption
      · rename_i h2
        have h3 : Memory.read s.mem (la.toNat + 3) = none := by
          interval_cases k
          · exact absurd hnone h0
          · exact absurd hnone h1
          · exact absurd hnone h2
          · exact hnone
        refine ⟨3, by decide, rfl, h3, fun j hj => ?_⟩
        interval_cases j <;> assumption

theorem usesStackSegment_iff {m : MemOperand} {pre : List Prefix} : usesStackSegment m pre = true ↔
    (m.base = some 4#4 ∨ m.base = some 5#4) ∧ Prefix.fs ∉ pre ∧ Prefix.gs ∉ pre := by
  rw [usesStackSegment, Bool.and_eq_true, Bool.or_eq_true, beq_iff_eq, beq_iff_eq, Option.isNone_iff_eq_none, segOverride_eq_none]

theorem State.addressExceptions_of_canonical {s : State} {m : MemOperand} {pre : List Prefix} {n : Nat}
    (hc : s.canonical4 (s.linearAddress m pre n) = true) : s.addressExceptions m pre n = [.pf] := if_pos hc

/-- A stack operand that is not canonical is #SS. -/
theorem State.addressExceptions_of_stackSegment {s : State} {m : MemOperand} {pre : List Prefix} {n : Nat}
    (hc : s.canonical4 (s.linearAddress m pre n) = false) (hss : usesStackSegment m pre = true) :
    s.addressExceptions m pre n = [.ss] := by
  simp [State.addressExceptions, hc, hss]

/-- Any other operand that is not canonical is #GP, but where 36h stands with no FS or GS override. -/
theorem State.addressExceptions_of_otherSegment {s : State} {m : MemOperand} {pre : List Prefix} {n : Nat}
    (hc : s.canonical4 (s.linearAddress m pre n) = false) (hss : usesStackSegment m pre = false)
    (hpre : Prefix.ss ∉ pre ∨ segOverride pre ≠ none) : s.addressExceptions m pre n = [.gp] := by
  have hno36 : (pre.contains .ss && (segOverride pre).isNone) = false := by
    rw [Bool.and_eq_false_iff, List.contains_eq_mem, decide_eq_false_iff_not, Option.isNone_eq_false_iff,
      Option.isSome_iff_ne_none]
    exact hpre
  rw [State.addressExceptions, hc, hss, hno36]
  rfl

/-- Settles O60, an exception's attribute at a time. -/
theorem architecturalExceptions : Obligations.ArchitecturalExceptions := by
  refine ⟨rfl, fun s p rsvd pk => ⟨rfl, rfl, rfl, rfl, rfl, rfl, _, rfl, ?_⟩,
    fun _ _ _ _ _ => ⟨rfl, rfl, rfl, rfl, rfl, rfl⟩, fun s la => ⟨fun e he => ?_, _, rfl, fun hc hread => ?_⟩,
    fun s m pre n => ⟨State.addressExceptions_of_canonical, fun hc => ⟨fun hbase hfs hgs => ?_, fun hbase hss => ?_, fun hseg => ?_⟩⟩⟩
  · obtain ⟨hp, hwr, hus, hrsvd, hid, hpk⟩ := s.pageFaultCode_bits p rsvd pk rfl
    exact ⟨hp, hwr, by rw [hus, beq_iff_eq], hrsvd, hid, hpk⟩
  · cases e with
    | pf => exact absurd rfl he
    | _ => rfl
  · exact State.faultingAddress_lowest ((State.memRead4_of_canonical hc).symm.trans hread)
  · exact State.addressExceptions_of_stackSegment hc (usesStackSegment_iff.mpr ⟨hbase, hfs, hgs⟩)
  · refine State.addressExceptions_of_otherSegment hc ?_ (.inl hss)
    rw [← Bool.not_eq_true, usesStackSegment_iff]
    exact fun ⟨h, _⟩ => h.elim hbase.1 hbase.2
  · have hover : segOverride pre ≠ none := fun h => by
      obtain ⟨hfs, hgs⟩ := segOverride_eq_none.mp h
      exact hseg.elim hfs hgs
    refine State.addressExceptions_of_otherSegment hc ?_ (.inr hover)
    rw [← Bool.not_eq_true, usesStackSegment_iff]
    exact fun ⟨_, hno⟩ => hover (segOverride_eq_none.mpr hno)

end Sys2Proof.Machine

/-! Runs (70_reset_and_hazards.md R161, R165): how an instruction moves `rip` through the program text, the invariant and the end of every
run, and the state a run starts from. -/

namespace Sys2Proof.Machine

/-! ### Boundaries of the program text -/

theorem onBoundary_succ_iff {n : Nat} {bs : List Byte} {off : Nat} : onBoundary (n + 1) bs off = true ↔
    off = 0 ∨ ∃ i rest, decode bs = .ok i rest ∧ i.length ≤ off ∧ onBoundary n rest (off - i.length) = true := by
  rw [onBoundary]
  by_cases h0 : off = 0
  · simp [h0]
  · rw [if_neg h0]
    cases decode bs <;> simp [h0]

/-- What is decoded is as long as the bytes it takes. -/
theorem drop_of_decode_ok {bs rest : List Byte} {i : Instr} (h : decode bs = .ok i rest) :
    bs.drop i.length = rest ∧ bs.length = i.length + rest.length := by
  obtain ⟨-, front, rfl, hfront⟩ := decodedTermsAreWellFormed bs i rest h
  exact ⟨by rw [← hfront, List.drop_left], by rw [List.length_append, hfront]⟩

/-- A boundary lies within the bytes. -/
theorem le_length_of_onBoundary {n : Nat} {bs : List Byte} {off : Nat} (h : onBoundary n bs off = true) : off ≤ bs.length := by
  induction n generalizing bs off with
  | zero =>
    rw [onBoundary, beq_iff_eq] at h
    omega
  | succ n ih =>
    obtain rfl | ⟨i, rest, hd, -, hrest⟩ := onBoundary_succ_iff.mp h
    · exact Nat.zero_le _
    · have hlen := (drop_of_decode_ok hd).2
      have hoff := ih hrest
      omega

/-- From a boundary, past the instruction that stands there, to the next boundary. -/
theorem onBoundary_add_length {n : Nat} {bs rest : List Byte} {off : Nat} {i : Instr} (hn : bs.length ≤ n)
    (h : onBoundary n bs off = true) (hd : decode (bs.drop off) = .ok i rest) : onBoundary n bs (off + i.length) = true := by
  induction n generalizing bs off with
  | zero =>
    obtain rfl := List.length_eq_zero_iff.mp (Nat.le_zero.mp hn)
    rw [List.drop_nil] at hd
    cases hd
  | succ n ih =>
    refine onBoundary_succ_iff.mpr (.inr ?_)
    obtain rfl | ⟨j, rest', hj, hle, hrest⟩ := onBoundary_succ_iff.mp h
    · refine ⟨i, rest, hd, by omega, ?_⟩
      rw [Nat.zero_add, Nat.sub_self]
      exact onBoundary_zero n rest
    · obtain ⟨hdrop, hlen⟩ := drop_of_decode_ok hj
      have hpos := Instr.seven_le_length j
      refine ⟨j, rest', hj, by omega, ?_⟩
      rw [Nat.sub_add_comm hle]
      refine ih (by omega) hrest ?_
      rwa [← hdrop, List.drop_drop, Nat.add_sub_cancel' hle]

/-! ### How an execution moves through the program -/

theorem State.offset_le_of_onProgram {s : State} (h : s.onProgram = true) : s.offset ≤ s.text.length :=
  le_length_of_onBoundary h

/-- On the program, the run has ended when no bytes are left. -/
theorem State.runComplete_iff {s : State} (h : s.onProgram = true) : s.runComplete = true ↔ s.bytesAtRip = [] := by
  have hle := s.offset_le_of_onProgram h
  rw [State.runComplete, beq_iff_eq, State.bytesAtRip, List.drop_eq_nil_iff]
  omega

/-- At the end of the run `rip` is one past the last instruction. -/
theorem State.rip_of_runComplete {s : State} (h : s.runComplete = true) :
    s.rip = s.codeBase + BitVec.ofNat 64 s.text.length := by
  rw [State.runComplete, beq_iff_eq] at h
  rw [← h, State.offset, BitVec.ofNat_toNat, BitVec.setWidth_eq, BitVec.add_comm, BitVec.sub_add_cancel]

/-- An instruction of the program that goes on leaves `rip` on the program, at the bytes after it. -/
theorem exec_advances {i : Instr} {s t : State} {rest : List Byte} (htext : s.text.length < addressSpace)
    (ho : s.onProgram = true) (hd : decode s.bytesAtRip = .ok i rest) (h : exec i s = .next t) :
    t.onProgram = true ∧ t.bytesAtRip = rest := by
  obtain ⟨hdrop, hlen⟩ := drop_of_decode_ok hd
  have hon : onBoundary s.text.length s.text (s.offset + i.length) = true :=
    onBoundary_add_length le_rfl ho hd
  have hoff : t.offset = s.offset + i.length := by
    obtain ⟨-, v, ie, de, rfl, -⟩ := exec_eq_next h
    exact offset_add s i.length ((le_length_of_onBoundary hon).trans_lt htext)
  have htexteq : t.text = s.text := by rw [(exec_keepsRest h).frame]
  constructor
  · rwa [State.onProgram, htexteq, hoff]
  · rw [State.bytesAtRip, htexteq, hoff, ← List.drop_drop]
    exact hdrop

/-- A step that goes on is the stay at the end of the run, or an instruction that leaves fewer bytes to run. -/
theorem step_next_cases {s t : State} (htext : s.text.length < addressSpace) (h : step s = .next t) :
    (s.runComplete = true ∧ t = s) ∨
    (t.onProgram = true ∧ t.bytesAtRip.length < s.bytesAtRip.length ∧ ∃ i, exec i s = .next t) := by
  cases hr : s.runComplete with
  | true => exact .inl ⟨rfl, (Host.Outcome.next.inj ((step_of_complete hr).symm.trans h)).symm⟩
  | false =>
    obtain ⟨ho, i, rest, hd, hexec⟩ := step_eq_next hr h
    obtain ⟨hon, rfl⟩ := exec_advances htext ho hd hexec
    have hlen := (drop_of_decode_ok hd).2
    have hpos := Instr.seven_le_length i
    exact .inr ⟨hon, by omega, i, hexec⟩

/-- Settles O51: neither the run's end, nor the mode, which the gate of the instruction looks at too, nor the fetch adds anything. -/
theorem stepRunsDecodedInstruction : Obligations.StepRunsDecodedInstruction := by
  intro s i rest hr ho hd
  by_cases hm : s.mode = .mode64
  · rw [step, if_neg (by simp [hr]), fetch_of_onProgram hm ho, hd]
    rfl
  · rw [step_of_fetch_refused hr (fetch_of_mode_ne hm), exec_of_gate_refused (gate_of_mode_ne hm ..)]

/-! ### The invariant -/

theorem two_pow_128_le (m : MaxVL) : 2 ^ 128 ≤ 2 ^ maxvlBits m :=
  Nat.pow_le_pow_right two_pos (by cases m <;> decide)

/-- An execution writes no vector register bit at or above bit 128, which every MAXVL has. -/
theorem exec_zmmWithin {i : Instr} {s t : State} (hs : s.zmmWithin) (h : exec i s = .next t) : t.zmmWithin := by
  obtain ⟨-, v, ie, de, rfl, -⟩ := exec_eq_next h
  intro x hx
  obtain hold | rfl := Vector.mem_or_eq_of_mem_set (hi := i.common.dest.isLt) (Vector.mem_toList_iff.mp hx)
  · exact hs x (Vector.mem_toList_iff.mpr hold)
  · rw [BitVec.toNat_setWidth]
    exact ((Nat.mod_le ..).trans_lt (BitVec.isLt _)).trans_le (two_pow_128_le _)

/-- The reserved bits of MXCSR lie above the flags. -/
theorem KeepsRest.mxcsrReserved_eq {s t : State} (h : KeepsRest s t) : t.mxcsrReserved = s.mxcsrReserved := by
  refine BitVec.eq_of_getLsbD_eq fun b _ => ?_
  rw [State.mxcsrReserved, State.mxcsrReserved, BitVec.getLsbD_extractLsb', BitVec.getLsbD_extractLsb', h.mxcsr _ (by omega)]

/-- Settles O54: a step is a stay or one execution, which leaves memory, text and configuration as they were. -/
theorem invariantKept : Obligations.InvariantKept := by
  intro s t hinv hstep
  obtain ⟨-, rfl⟩ | ⟨hon, -, i, hexec⟩ := step_next_cases hinv.text hstep
  · exact hinv
  · have hkeeps := exec_keepsRest hexec
    refine ⟨?_, exec_zmmWithin hinv.zmm hexec, hkeeps.mxcsrReserved_eq.trans hinv.mxcsr, ?_, hon⟩
    · rw [hkeeps.frame]
      exact hinv.mem
    · rw [hkeeps.frame]
      exact hinv.text

/-! ### The end of every run -/

/-- A run of at least as many steps as there are bytes left ends at the end of the program. -/
theorem run_complete_of_inv {n : Nat} {s t : State} (hinv : s.Inv) (hn : s.bytesAtRip.length ≤ n)
    (h : Sys2Proof.core.run n s = .next t) : t.runComplete = true := by
  induction n generalizing s with
  | zero =>
    obtain rfl := Host.Outcome.next.inj h
    exact (State.runComplete_iff hinv.rip).mpr (List.length_eq_zero_iff.mp (Nat.le_zero.mp hn))
  | succ n ih =>
    rw [run_succ] at h
    obtain ⟨s', hstep, hrun⟩ := andThen_eq_next.mp h
    refine ih (invariantKept s s' hinv hstep) ?_ hrun
    obtain ⟨hr, rfl⟩ | ⟨-, hlt, -⟩ := step_next_cases hinv.text hstep
    · rw [(State.runComplete_iff hinv.rip).mp hr]
      exact Nat.zero_le n
    · omega

/-- Settles O55: what is left to run gets shorter by a step or is nothing. -/
theorem runsComeToTheirEnd : Obligations.RunsComeToTheirEnd := by
  intro s t hinv h
  have hleft : s.bytesAtRip.length ≤ s.text.length := List.length_drop ▸ Nat.sub_le ..
  have hend : t.runComplete = true := run_complete_of_inv hinv hleft h
  have hframe := (runsKeepEverythingElse s.text.length s t h).1
  refine ⟨hend, (State.rip_of_runComplete hend).trans ?_⟩
  rw [hframe]

/-! ### The start (R161) -/

theorem launch_mode (s : State) : s.launch.mode = .mode64 := by
  have hpe : s.launch.pe = true := by simp [State.pe, State.launch]
  have hlma : s.launch.lma = true := by simp [State.lma, State.launch]
  have hcsL : s.launch.csL = true := rfl
  simp [State.mode, hpe, hlma, hcsL]

theorem launch_osxsave (s : State) : s.launch.osxsave = true := by simp [State.osxsave, State.launch]

theorem launch_ts (s : State) : s.launch.ts = false := by simp [State.ts, State.launch]

theorem launch_osxmmexcpt (s : State) : s.launch.osxmmexcpt = true := by simp [State.osxmmexcpt, State.launch]

theorem launch_xcr0Enabled (s : State) : s.launch.xcr0Enabled = true := by
  rw [State.xcr0Enabled, Bool.and_eq_true, beq_iff_eq, beq_iff_eq]
  change (s.xcr0 ||| 0xE7#64).extractLsb' 1 2 = BitVec.allOnes 2 ∧ (s.xcr0 ||| 0xE7#64).extractLsb' 5 3 = BitVec.allOnes 3
  rw [BitVec.extractLsb'_or, BitVec.extractLsb'_or]
  exact ⟨BitVec.or_allOnes, BitVec.or_allOnes⟩

/-- Settles O59: each enabling bit is one that a boot step or-s in, and CR0.TS one that a boot step clears. -/
theorem launchEnables : Obligations.LaunchEnables :=
  ⟨fun s => ⟨launch_mode s, launch_osxsave s, launch_xcr0Enabled s, launch_ts s, launch_osxmmexcpt s, rfl, rfl, rfl, rfl, rfl, rfl⟩,
    rfl⟩

/-- Settles O53: the vector registers are zero, the program is empty, and `rip` is at the program's end. -/
theorem resetSatisfiesInvariant : Obligations.ResetSatisfiesInvariant where
  mem := reset_mem_wf
  zmm v hv := by
    have hzero : v ∈ List.replicate 32 0#512 := by rwa [← Vector.toList_replicate]
    rw [List.eq_of_mem_replicate hzero, BitVec.toNat_zero]
    exact Nat.two_pow_pos _
  mxcsr := by decide
  text := by decide
  rip := by decide

/-! ### Programs of register forms -/

/-- The state in which nothing stops a register form that the program holds: 64-bit mode, the enabling state, both exceptions masked, and a
program that lies in the lowest part of the address space. -/
structure State.RunsRegisterForms (s : State) : Prop where
  mode : s.mode = .mode64
  feature : featurePresent s.cfg = true
  osxsave : s.osxsave = true
  xcr0 : s.xcr0Enabled = true
  ts : s.ts = false
  im : s.im = true
  dm : s.dm = true
  place : s.codeBase.toNat + s.text.length < 2 ^ 47
  rip : s.onProgram = true

/-- A register form that has an encoding, and an imm8 with bits 7:4 clear. -/
def IsRegisterForm (i : Instr) : Prop :=
  i.wellFormed = true ∧ i.common.imm8.extractLsb' 4 4 = 0#4 ∧ ∃ r, sourceOf i = .reg r

namespace State.RunsRegisterForms

variable {s t : State}

theorem text_lt (h : s.RunsRegisterForms) : s.text.length < addressSpace := by
  have := h.place
  unfold addressSpace
  omega

theorem of_exec (h : s.RunsRegisterForms) {i : Instr} (hexec : exec i s = .next t) (hon : t.onProgram = true) :
    t.RunsRegisterForms := by
  obtain ⟨hframe, hbits, -, -⟩ := exec_keepsRest hexec
  have him : t.im = true := (hbits 7 (by decide)).trans h.im
  have hdm : t.dm = true := (hbits 8 (by decide)).trans h.dm
  refine ⟨?_, ?_, ?_, ?_, ?_, him, hdm, ?_, hon⟩
  all_goals rw [hframe]
  · exact h.mode
  · exact h.feature
  · exact h.osxsave
  · exact h.xcr0
  · exact h.ts
  · exact h.place

/-- The instruction at `rip` and the address after it lie in the lowest part of the address space. -/
theorem ripInRange (h : s.RunsRegisterForms) {n : Nat} (hn : s.offset + n ≤ s.text.length) : s.ripInRange n = true := by
  have hplace := h.place
  have hwidth : 2 ^ 47 ≤ 2 ^ pagingWidth s.cfg.paging := Nat.pow_le_pow_right two_pos (by cases s.cfg.paging <;> decide)
  have hrip : s.rip.toNat = s.codeBase.toNat + s.offset := by
    unfold State.offset at *
    bv_omega
  have hnext : (s.rip + BitVec.ofNat 64 n).toNat = s.rip.toNat + n := by bv_omega
  rw [State.ripInRange, Bool.and_eq_true, Bool.and_eq_true, decide_eq_true_eq, canonical_iff, canonical_iff, hnext, hrip, addressSpace]
  omega

theorem ready (h : s.RunsRegisterForms) {i : Instr} {rest : List Byte} (hi : IsRegisterForm i)
    (hd : decode s.bytesAtRip = .ok i rest) : s.Ready i.common i.length := by
  obtain ⟨hwf, himm, -⟩ := hi
  obtain ⟨hmasking, -, hlength⟩ := Instr.wellFormed_iff.mp hwf
  have hnext : s.offset + i.length ≤ s.text.length := le_length_of_onBoundary (onBoundary_add_length le_rfl h.rip hd)
  exact ⟨h.mode, h.feature, h.osxsave, h.xcr0, h.ts, h.ripInRange hnext, by simp [immAllowed, immHighBits, himm], hlength, hmasking⟩

/-- With both exceptions masked a register form goes on, whatever its writemask bit. -/
theorem exec_next (h : s.RunsRegisterForms) {i : Instr} (hi : IsRegisterForm i) (hr : s.Ready i.common i.length) :
    ∃ t, exec i s = .next t := by
  obtain ⟨-, -, r, hsrc⟩ := hi
  have hunmasked : ∀ ie de, s.unmasked ie de = false := fun ie de => by simp [State.unmasked, h.im, h.dm]
  cases hk : s.maskBit i.common.mask with
  | true =>
    have hread : readSource (sourceOf i) i.common.pre i.length s = .next (low (s.xmm r)) := by rw [hsrc, readSource_reg]
    cases hs : saeOf i with
    | true => exact ⟨_, exec_of_sae hs hr hk hread⟩
    | false => exact ⟨_, exec_of_unmasked_false hs hr hk hread (hunmasked _ _)⟩
  | false => exact ⟨_, exec_of_masked hr hk (by rw [hsrc, skipSource_reg])⟩

/-- A step runs the first of the register forms that are left. -/
theorem step_next (h : s.RunsRegisterForms) {i : Instr} {rest : List Byte} (hi : IsRegisterForm i)
    (hbytes : s.bytesAtRip = encode i ++ rest) : ∃ t, step s = .next t ∧ t.RunsRegisterForms ∧ t.bytesAtRip = rest := by
  have hd : decode s.bytesAtRip = .ok i rest := hbytes ▸ decodeInvertsEncode i rest hi.1
  have hrun : s.runComplete = false := by
    rw [← Bool.not_eq_true, State.runComplete_iff h.rip]
    intro hnil
    rw [hnil] at hd
    cases hd
  obtain ⟨t, hexec⟩ := h.exec_next hi (h.ready hi hd)
  obtain ⟨hon, hrest⟩ := exec_advances h.text_lt h.rip hd hexec
  exact ⟨t, (stepRunsDecodedInstruction s i rest hrun h.rip hd).trans hexec, h.of_exec hexec hon, hrest⟩

theorem run_complete (h : s.RunsRegisterForms) {is : List Instr} (his : ∀ i ∈ is, IsRegisterForm i)
    (hbytes : s.bytesAtRip = (is.map encode).flatten) :
    ∃ t, Sys2Proof.core.run is.length s = .next t ∧ t.runComplete = true := by
  induction is generalizing s with
  | nil => exact ⟨s, rfl, (State.runComplete_iff h.rip).mpr hbytes⟩
  | cons i is ih =>
    obtain ⟨hi, his⟩ := List.forall_mem_cons.mp his
    rw [List.map_cons, List.flatten_cons] at hbytes
    obtain ⟨s', hstep, hs', hrest⟩ := h.step_next hi hbytes
    obtain ⟨t, hrun, hend⟩ := ih hs' his hrest
    refine ⟨t, ?_, hend⟩
    rw [List.length_cons, run_succ, hstep]
    exact hrun

end State.RunsRegisterForms

theorem reset_offset : State.reset.offset = 0 := by decide

/-- A program of fewer than 2^32 bytes at the state a run starts from: the launched state has every enabling bit, and the reset value of
MXCSR masks the exceptions. -/
theorem reset_runsRegisterForms {bs : List Byte} (hbs : bs.length < 2 ^ 32) :
    ({ State.reset with text := bs } : State).RunsRegisterForms where
  mode := launch_mode State.powerUp
  feature := show featurePresent State.reset.cfg = true by decide
  osxsave := launch_osxsave State.powerUp
  xcr0 := launch_xcr0Enabled State.powerUp
  ts := launch_ts State.powerUp
  im := show State.reset.im = true by decide
  dm := show State.reset.dm = true by decide
  place := by
    have hbase : State.reset.codeBase.toNat = 0xFFFFFFF0 := by decide
    change State.reset.codeBase.toNat + bs.length < 2 ^ 47
    omega
  rip := by
    change onBoundary bs.length bs State.reset.offset = true
    rw [reset_offset]
    exact onBoundary_zero bs.length bs

/-- Settles O57, by induction on the list of instructions. -/
theorem registerProgramsComplete : Obligations.RegisterProgramsComplete := by
  intro is his hlen
  refine (reset_runsRegisterForms hlen).run_complete his ?_
  change (is.map encode).flatten.drop State.reset.offset = _
  rw [reset_offset, List.drop_zero]

end Sys2Proof.Machine

/-! Words written out from the test vectors (95_test_vectors.md): each is what the encoder writes. -/

namespace Sys2Proof

/-- A byte string the encoder writes for a well-formed instruction decodes to it, with no byte left (30_encoding.md R85, R86). -/
theorem decode_eq_ok_of_encode_eq {i : Instr} {bs : List Byte} (hwf : i.wellFormed = true) (henc : encode i = bs) :
    decode bs = .ok i [] := by
  rw [← henc, ← List.append_nil (encode i)]
  exact decodeInvertsEncode i [] hwf

/-- Settles O8: each word is the encoding of its instruction, so the round trip O1 reads it back. The words stand in the order
A1, A5, A6, A12, A19, A21, A26, A30, A18 of 95_test_vectors.md. -/
theorem writtenWordsDecode : Obligations.WrittenWordsDecode := by
  unfold Obligations.WrittenWordsDecode
  refine ⟨?registerForm, ?saeZeroing, ?highRegisters, ?disp8, ?ripRelative, ?sibExtended, ?noBase, ?fsPrefix, ?disp32⟩
  all_goals exact decode_eq_ok_of_encode_eq (by decide) (by decide)

end Sys2Proof
